-- ==== Sys2Proof/Word.lean ====
section
/-! DEFINITION. The words of the machine: data bytes, program ROM words, program addresses, and the
plain type in which every memory is held (00_scope.md R4, 20_memory.md R100). -/

namespace Sys2Proof

/-- A data memory byte, 8 bits (00_scope.md R4). -/
abbrev Byte := BitVec 8

/-- A program ROM word, 16 bits (00_scope.md R4). -/
abbrev RomWord := BitVec 16

/-- A program memory address, 13 bits (10_state.md R22). -/
abbrev PAddr := BitVec 13

/-- A memory of `w`-bit units as (address, unit) pairs. `Memory 8` is a list of `Host.Cell`. Its
canonical form is `Memory.wf` of Machine/Memory.lean. -/
abbrev Memory (w : Nat) := List (Nat × BitVec w)

end Sys2Proof
end

