-- ==== Sys2Proof/Syntax.lean ====
section
/-! DEFINITION. The 63 instructions of spec/opcode_table.json, one constructor a row, in the order of
30_encoding.md R143. Operands as 30_encoding.md R144: `m` a data memory address, `x` an immediate,
`i` a bit number (0 to 7, checked in WellFormed.lean), `addr` a program address. -/

namespace Sys2Proof

/-- The instructions. -/
inductive Instr where
  /-- ADD A,[m] -/
  | addAm (m : Byte)
  /-- ADDM A,[m] -/
  | addmAm (m : Byte)
  /-- ADD A,x -/
  | addAx (x : Byte)
  /-- ADC A,[m] -/
  | adcAm (m : Byte)
  /-- ADCM A,[m] -/
  | adcmAm (m : Byte)
  /-- SUB A,x -/
  | subAx (x : Byte)
  /-- SUB A,[m] -/
  | subAm (m : Byte)
  /-- SUBM A,[m] -/
  | submAm (m : Byte)
  /-- SBC A,[m] -/
  | sbcAm (m : Byte)
  /-- SBCM A,[m] -/
  | sbcmAm (m : Byte)
  /-- DAA [m] -/
  | daa (m : Byte)
  /-- AND A,[m] -/
  | andAm (m : Byte)
  /-- OR A,[m] -/
  | orAm (m : Byte)
  /-- XOR A,[m] -/
  | xorAm (m : Byte)
  /-- ANDM A,[m] -/
  | andmAm (m : Byte)
  /-- ORM A,[m] -/
  | ormAm (m : Byte)
  /-- XORM A,[m] -/
  | xormAm (m : Byte)
  /-- AND A,x -/
  | andAx (x : Byte)
  /-- OR A,x -/
  | orAx (x : Byte)
  /-- XOR A,x -/
  | xorAx (x : Byte)
  /-- CPL [m] -/
  | cpl (m : Byte)
  /-- CPLA [m] -/
  | cpla (m : Byte)
  /-- INCA [m] -/
  | inca (m : Byte)
  /-- INC [m] -/
  | inc (m : Byte)
  /-- DECA [m] -/
  | deca (m : Byte)
  /-- DEC [m] -/
  | dec (m : Byte)
  /-- RRA [m] -/
  | rra (m : Byte)
  /-- RR [m] -/
  | rr (m : Byte)
  /-- RRCA [m] -/
  | rrca (m : Byte)
  /-- RRC [m] -/
  | rrc (m : Byte)
  /-- RLA [m] -/
  | rla (m : Byte)
  /-- RL [m] -/
  | rl (m : Byte)
  /-- RLCA [m] -/
  | rlca (m : Byte)
  /-- RLC [m] -/
  | rlc (m : Byte)
  /-- MOV A,[m] -/
  | movAm (m : Byte)
  /-- MOV [m],A -/
  | movMa (m : Byte)
  /-- MOV A,x -/
  | movAx (x : Byte)
  /-- CLR [m].i -/
  | clrBit (m : Byte) (i : Nat)
  /-- SET [m].i -/
  | setBit (m : Byte) (i : Nat)
  /-- JMP addr -/
  | jmp (addr : PAddr)
  /-- SZ [m] -/
  | sz (m : Byte)
  /-- SZA [m] -/
  | sza (m : Byte)
  /-- SZ [m].i -/
  | szBit (m : Byte) (i : Nat)
  /-- SNZ [m].i -/
  | snzBit (m : Byte) (i : Nat)
  /-- SIZ [m] -/
  | siz (m : Byte)
  /-- SDZ [m] -/
  | sdz (m : Byte)
  /-- SIZA [m] -/
  | siza (m : Byte)
  /-- SDZA [m] -/
  | sdza (m : Byte)
  /-- CALL addr -/
  | call (addr : PAddr)
  /-- RET -/
  | ret
  /-- RET A,x -/
  | retAx (x : Byte)
  /-- RETI -/
  | reti
  /-- TABRDC [m] -/
  | tabrdc (m : Byte)
  /-- TABRDL [m] -/
  | tabrdl (m : Byte)
  /-- NOP -/
  | nop
  /-- CLR [m] -/
  | clr (m : Byte)
  /-- SET [m] -/
  | set (m : Byte)
  /-- CLR WDT -/
  | clrWdt
  /-- CLR WDT1 -/
  | clrWdt1
  /-- CLR WDT2 -/
  | clrWdt2
  /-- SWAP [m] -/
  | swap (m : Byte)
  /-- SWAPA [m] -/
  | swapa (m : Byte)
  /-- HALT -/
  | halt
deriving DecidableEq, Repr

end Sys2Proof
end

