-- ==== Sys2Proof/WellFormed.lean ====
section
/-! DEFINITION. Which instructions can be written down. Addresses and immediates are bit vectors of
the width the encoding gives them; the one operand with a range of its own is the bit number of the
four bit instructions, "i: 0~7 number of bits" (00_scope.md R9, 30_encoding.md R144). -/

namespace Sys2Proof

/-- An instruction's operands are in the ranges of 00_scope.md R9. -/
def Instr.wf : Instr → Bool
  | .clrBit _ i => i < 8
  | .setBit _ i => i < 8
  | .szBit _ i => i < 8
  | .snzBit _ i => i < 8
  | .addAm _ | .addmAm _ | .addAx _ | .adcAm _ | .adcmAm _ | .subAx _ | .subAm _ | .submAm _
  | .sbcAm _ | .sbcmAm _ | .daa _ | .andAm _ | .orAm _ | .xorAm _ | .andmAm _ | .ormAm _
  | .xormAm _ | .andAx _ | .orAx _ | .xorAx _ | .cpl _ | .cpla _ | .inca _ | .inc _ | .deca _
  | .dec _ | .rra _ | .rr _ | .rrca _ | .rrc _ | .rla _ | .rl _ | .rlca _ | .rlc _ | .movAm _
  | .movMa _ | .movAx _ | .jmp _ | .sz _ | .sza _ | .siz _ | .sdz _ | .siza _ | .sdza _ | .call _
  | .ret | .retAx _ | .reti | .tabrdc _ | .tabrdl _ | .nop | .clr _ | .set _ | .clrWdt | .clrWdt1
  | .clrWdt2 | .swap _ | .swapa _ | .halt => true

end Sys2Proof
end

