-- ==== Sys2Proof/Decode.lean ====
section
/-! DEFINITION. The spec-assigned encoding (30_encoding.md R142, R143; log 1): the decoder, total on
16-bit words and rejecting by name, then the encoder. -/

namespace Sys2Proof

/-- Why a word is no instruction: it is one of the unassigned words of 30_encoding.md R145. -/
inductive DecodeError where
  | unassigned (w : RomWord)
deriving DecidableEq, Repr

/-- Format N: the low byte is the opcode (30_encoding.md R142, R143). -/
def decodeN (n : Byte) (w : RomWord) : Except DecodeError Instr :=
  match n.toNat with
  | 0 => .ok .nop
  | 1 => .ok .clrWdt
  | 2 => .ok .clrWdt1
  | 3 => .ok .clrWdt2
  | 4 => .ok .halt
  | 5 => .ok .ret
  | 6 => .ok .reti
  | _ => .error (.unassigned w)

/-- Formats N, M and I, told apart by the high byte (30_encoding.md R142, R143). -/
def decodeByteOp (op m : Byte) (w : RomWord) : Except DecodeError Instr :=
  match op.toNat with
  | 0x00 => decodeN m w
  | 0x01 => .ok (.addAm m)
  | 0x02 => .ok (.addmAm m)
  | 0x03 => .ok (.adcAm m)
  | 0x04 => .ok (.adcmAm m)
  | 0x05 => .ok (.subAm m)
  | 0x06 => .ok (.submAm m)
  | 0x07 => .ok (.sbcAm m)
  | 0x08 => .ok (.sbcmAm m)
  | 0x09 => .ok (.daa m)
  | 0x0A => .ok (.andAm m)
  | 0x0B => .ok (.orAm m)
  | 0x0C => .ok (.xorAm m)
  | 0x0D => .ok (.andmAm m)
  | 0x0E => .ok (.ormAm m)
  | 0x0F => .ok (.xormAm m)
  | 0x10 => .ok (.cpl m)
  | 0x11 => .ok (.cpla m)
  | 0x12 => .ok (.inca m)
  | 0x13 => .ok (.inc m)
  | 0x14 => .ok (.deca m)
  | 0x15 => .ok (.dec m)
  | 0x16 => .ok (.rra m)
  | 0x17 => .ok (.rr m)
  | 0x18 => .ok (.rrca m)
  | 0x19 => .ok (.rrc m)
  | 0x1A => .ok (.rla m)
  | 0x1B => .ok (.rl m)
  | 0x1C => .ok (.rlca m)
  | 0x1D => .ok (.rlc m)
  | 0x1E => .ok (.movAm m)
  | 0x1F => .ok (.movMa m)
  | 0x20 => .ok (.sz m)
  | 0x21 => .ok (.sza m)
  | 0x22 => .ok (.siz m)
  | 0x23 => .ok (.sdz m)
  | 0x24 => .ok (.siza m)
  | 0x25 => .ok (.sdza m)
  | 0x26 => .ok (.tabrdc m)
  | 0x27 => .ok (.tabrdl m)
  | 0x28 => .ok (.clr m)
  | 0x29 => .ok (.set m)
  | 0x2A => .ok (.swap m)
  | 0x2B => .ok (.swapa m)
  | 0x40 => .ok (.addAx m)
  | 0x41 => .ok (.subAx m)
  | 0x42 => .ok (.andAx m)
  | 0x43 => .ok (.orAx m)
  | 0x44 => .ok (.xorAx m)
  | 0x45 => .ok (.movAx m)
  | 0x46 => .ok (.retAx m)
  | _ => .error (.unassigned w)

/-- Format B: `op2` in bits 12 and 11, `i` in bits 10 to 8 (30_encoding.md R142, R143). -/
def decodeBitOp (op2 : BitVec 2) (i : BitVec 3) (m : Byte) : Instr :=
  match op2.toNat with
  | 0 => .setBit m i.toNat
  | 1 => .clrBit m i.toNat
  | 2 => .szBit m i.toNat
  | _ => .snzBit m i.toNat

/-- Format A: bit 13 tells CALL from JMP (30_encoding.md R142, R143). -/
def decodeAddrOp (op1 : Bool) (addr : PAddr) : Instr :=
  if op1 then .call addr else .jmp addr

/-- The decoder, testing the formats in the order of 30_encoding.md R142. -/
def decode (w : RomWord) : Except DecodeError Instr :=
  if w.extractLsb' 14 2 = 0b11#2 then
    .ok (decodeAddrOp (w.getLsbD 13) (w.extractLsb' 0 13))
  else if w.extractLsb' 13 3 = 0b100#3 then
    .ok (decodeBitOp (w.extractLsb' 11 2) (w.extractLsb' 8 3) (w.extractLsb' 0 8))
  else
    decodeByteOp (w.extractLsb' 8 8) (w.extractLsb' 0 8) w

/-- The host's view of the decoder: a table row of `nbits` bits whose bits are `w`. The ROM unit is
the 16-bit word itself, so there is no byte order (20_memory.md R124). -/
def decodeTableWord (nbits w : Nat) : Option Instr :=
  match decode (BitVec.ofNat 16 (w % 2 ^ nbits)) with
  | .ok i => some i
  | .error _ => none

/-- Formats N, M, I: opcode byte above operand byte (30_encoding.md R142). -/
def byteWord (op m : Byte) : RomWord := op ++ m

/-- Format B (30_encoding.md R142). -/
def bitWord (op2 : BitVec 2) (i : Nat) (m : Byte) : RomWord :=
  0b100#3 ++ op2 ++ BitVec.ofNat 3 i ++ m

/-- Format A (30_encoding.md R142). -/
def addrWord (op1 : BitVec 1) (addr : PAddr) : RomWord := 0b11#2 ++ op1 ++ addr

/-- The encoder: the SAE word of an instruction (30_encoding.md R143). -/
def encode : Instr → RomWord
  | .addAm m => byteWord 0x01#8 m
  | .addmAm m => byteWord 0x02#8 m
  | .addAx x => byteWord 0x40#8 x
  | .adcAm m => byteWord 0x03#8 m
  | .adcmAm m => byteWord 0x04#8 m
  | .subAx x => byteWord 0x41#8 x
  | .subAm m => byteWord 0x05#8 m
  | .submAm m => byteWord 0x06#8 m
  | .sbcAm m => byteWord 0x07#8 m
  | .sbcmAm m => byteWord 0x08#8 m
  | .daa m => byteWord 0x09#8 m
  | .andAm m => byteWord 0x0A#8 m
  | .orAm m => byteWord 0x0B#8 m
  | .xorAm m => byteWord 0x0C#8 m
  | .andmAm m => byteWord 0x0D#8 m
  | .ormAm m => byteWord 0x0E#8 m
  | .xormAm m => byteWord 0x0F#8 m
  | .andAx x => byteWord 0x42#8 x
  | .orAx x => byteWord 0x43#8 x
  | .xorAx x => byteWord 0x44#8 x
  | .cpl m => byteWord 0x10#8 m
  | .cpla m => byteWord 0x11#8 m
  | .inca m => byteWord 0x12#8 m
  | .inc m => byteWord 0x13#8 m
  | .deca m => byteWord 0x14#8 m
  | .dec m => byteWord 0x15#8 m
  | .rra m => byteWord 0x16#8 m
  | .rr m => byteWord 0x17#8 m
  | .rrca m => byteWord 0x18#8 m
  | .rrc m => byteWord 0x19#8 m
  | .rla m => byteWord 0x1A#8 m
  | .rl m => byteWord 0x1B#8 m
  | .rlca m => byteWord 0x1C#8 m
  | .rlc m => byteWord 0x1D#8 m
  | .movAm m => byteWord 0x1E#8 m
  | .movMa m => byteWord 0x1F#8 m
  | .movAx x => byteWord 0x45#8 x
  | .clrBit m i => bitWord 0b01#2 i m
  | .setBit m i => bitWord 0b00#2 i m
  | .jmp addr => addrWord 0#1 addr
  | .sz m => byteWord 0x20#8 m
  | .sza m => byteWord 0x21#8 m
  | .szBit m i => bitWord 0b10#2 i m
  | .snzBit m i => bitWord 0b11#2 i m
  | .siz m => byteWord 0x22#8 m
  | .sdz m => byteWord 0x23#8 m
  | .siza m => byteWord 0x24#8 m
  | .sdza m => byteWord 0x25#8 m
  | .call addr => addrWord 1#1 addr
  | .ret => byteWord 0x00#8 0x05#8
  | .retAx x => byteWord 0x46#8 x
  | .reti => byteWord 0x00#8 0x06#8
  | .tabrdc m => byteWord 0x26#8 m
  | .tabrdl m => byteWord 0x27#8 m
  | .nop => byteWord 0x00#8 0x00#8
  | .clr m => byteWord 0x28#8 m
  | .set m => byteWord 0x29#8 m
  | .clrWdt => byteWord 0x00#8 0x01#8
  | .clrWdt1 => byteWord 0x00#8 0x02#8
  | .clrWdt2 => byteWord 0x00#8 0x03#8
  | .swap m => byteWord 0x2A#8 m
  | .swapa m => byteWord 0x2B#8 m
  | .halt => byteWord 0x00#8 0x04#8

end Sys2Proof
end

