-- ==== Sys2Proof/Config.lean ====
section
/-! DEFINITION. What is fixed when a chip is made (00_scope.md R5) as plain data, and the values the
spec leaves open as constants without a body. -/

namespace Sys2Proof.Config

/-- The two parts of the series (00_scope.md R2). -/
inductive Part where
  | ht86030
  | ht86070
deriving DecidableEq, Repr

/-- Mask option "One or two CLR instruction" (00_scope.md R5, 48_misc.md R299). -/
inductive ClrWdtTimes where
  | one
  | two
deriving DecidableEq, Repr

/-- Mask option "WDT clock source is from WDTOSC or T1" (00_scope.md R5). -/
inductive WdtClock where
  | wdtOsc
  | t1
deriving DecidableEq, Repr

/-- Mask option for the INT pin's active edge (00_scope.md R5, 60_exceptions.md R420). -/
inductive IntEdge where
  | falling
  | fallingAndRising
deriving DecidableEq, Repr

/-- System oscillator (00_scope.md R5, 60_exceptions.md R475). -/
inductive Osc where
  | rc
  | crystal
deriving DecidableEq, Repr

/-- The parameters of 00_scope.md R5 and the two cycle parameters the spec adds (60_exceptions.md
R412, R470). Plain data: a state carries it, no step changes it (log 3). -/
structure Options where
  /-- `PART`. -/
  part : Part
  /-- `OPT_PA_WAKEUP`, one bit per port A line. -/
  paWakeup : Byte
  /-- `OPT_WDT_ENABLE`. -/
  wdtEnable : Bool
  /-- `OPT_CLRWDT_TIMES`. -/
  clrWdtTimes : ClrWdtTimes
  /-- `OPT_WDT_CLOCK`. -/
  wdtClock : WdtClock
  /-- `OPT_INT_EDGE`. -/
  intEdge : IntEdge
  /-- `OPT_EXT_TIMER`. -/
  extTimer : Bool
  /-- `OPT_PA_PULLHIGH`. -/
  paPullHigh : Bool
  /-- `OPT_PB_PULLHIGH`. -/
  pbPullHigh : Bool
  /-- `OPT_OSC`. -/
  osc : Osc
  /-- `F_SYS` in kHz. -/
  fSysKHz : Nat
  /-- `INT_ENTRY_CYCLES` (60_exceptions.md R412). -/
  intEntryCycles : Nat
  /-- `VROM_DELAY_CYCLES` (60_exceptions.md R470). -/
  vromDelayCycles : Nat
deriving DecidableEq, Repr

/-- `VROM_BYTES` of a part (00_scope.md R2, R5). -/
def Part.vromBytes : Part → Nat
  | .ht86030 => 98304
  | .ht86070 => 196608

/-- `VROM_ADDR_BITS` of a part (00_scope.md R2, R5). -/
def Part.vromAddrBits : Part → Nat
  | .ht86030 => 17
  | .ht86070 => 18

/-- The ranges the spec states for the parameters: `F_SYS` 4 to 8 MHz (00_scope.md R4) and a voice
ROM delay of at least ceil(`F_SYS` x 1 us) cycles (60_exceptions.md R470). -/
def Options.valid (o : Options) : Bool :=
  4000 ≤ o.fSysKHz && o.fSysKHz ≤ 8000 && (o.fSysKHz + 999) / 1000 ≤ o.vromDelayCycles

/-- The configuration of `State.reset`. DESIGN CHOICE (log 3): the conventions of
95_test_vectors.md where they name a value, else as listed. -/
def Options.ofReset : Options where
  part := .ht86070
  paWakeup := 0xFF#8
  wdtEnable := true
  clrWdtTimes := .one
  wdtClock := .t1
  intEdge := .falling
  extTimer := true
  paPullHigh := true
  pbPullHigh := true
  osc := .rc
  fSysKHz := 4000
  intEntryCycles := 2
  vromDelayCycles := 4

/-- FREE VALUE: the `n`-th byte the spec leaves open (`draw` of 00_scope.md R8). No body, so nothing
can be proved of its value (log 9). -/
opaque freeByte : Nat → Byte

/-- The parameter `DAA_AC1_BOTH` of 40_arithmetic.md R211 (92_eei_decisions.md D26, log 14). -/
opaque daaAc1Both : Bool

end Sys2Proof.Config
end

