-- ==== Sys2Proof/Machine/State.lean ====
section
/-! DEFINITION. The state of the machine as plain data (10_state.md R20 to R48), the reasons a step
can stop (60_exceptions.md R401), and the state right after power-on (70_reset_and_hazards.md R503). -/

namespace Sys2Proof.Machine

open Sys2Proof.Config

/-- The two 16-bit timer/event counters, n = 0 and 1 (10_state.md R35). -/
inductive TimerId where
  | t0
  | t1
deriving DecidableEq, Repr

/-- The two voice ROM address latches (10_state.md R40). -/
inductive LatchId where
  | l0
  | l1
deriving DecidableEq, Repr

/-- The four interrupt sources in order of priority (60_exceptions.md R410). -/
inductive IrqSource where
  | ext
  | timer0
  | timer1
  | timer3
deriving DecidableEq, Repr

/-- One bit for each interrupt source: the request flags (EIF, T0F, T1F, T3F), the individual
enables (EEI, ET0I, ET1I, ET3I) and `halt_preflags` (10_state.md R33, R34, R47). -/
structure IrqBits where
  ext : Bool
  timer0 : Bool
  timer1 : Bool
  timer3 : Bool
deriving DecidableEq, Repr

/-- Timer/Event Counter 0 or 1 (10_state.md R35, R36, R47). -/
structure Timer16 where
  /-- `TnCNT`. -/
  cnt : BitVec 16
  /-- `TnPRE`. -/
  pre : BitVec 16
  /-- `TnBUF`, the low byte buffer. -/
  buf : Byte
  /-- TE, bit 3 of TMRnC. -/
  te : Bool
  /-- TON, bit 4 of TMRnC. -/
  ton : Bool
  /-- The mode TM1:TM0, bits 7 and 6 of TMRnC. -/
  tm : BitVec 2
  /-- `TnPW`: a pulse width measurement is in progress. -/
  pw : Bool
  /-- `TMRn_prev`, the last level of the external input. -/
  pin : Bool
  /-- The model's own: the count of the next instruction cycle is lost (60_exceptions.md R436, log
  13). Set by a read of TMRnH, cleared by the next instruction cycle. -/
  lose : Bool
deriving DecidableEq, Repr

/-- Timer Counter 3 (10_state.md R37, R38). -/
structure Timer8 where
  /-- `T3CNT`. -/
  cnt : Byte
  /-- `T3PRE`. -/
  pre : Byte
  /-- `T3PS`, the prescaler count. -/
  ps : Byte
  /-- TMR3S2:TMR3S1:TMR3S0, bits 2 to 0 of TMR3C. -/
  sel : BitVec 3
  /-- TE, bit 3. -/
  te : Bool
  /-- TON, bit 4. -/
  ton : Bool
  /-- The mode TM1:TM0, bits 7 and 6. -/
  tm : BitVec 2
deriving DecidableEq, Repr

/-- An I/O port: its two registers (10_state.md R39) and what the environment does at its pads
(60_exceptions.md R460, R476; log 18). -/
structure Port where
  /-- `Px_LATCH`. -/
  latch : Byte
  /-- `PxC`: 1 makes the line an input. -/
  ctrl : Byte
  /-- The lines the environment drives. -/
  driven : Byte
  /-- The levels it drives there. -/
  level : Byte
deriving DecidableEq, Repr

/-- What the environment can do at an instruction boundary (60_exceptions.md R430, R476). -/
inductive EnvEvent where
  /-- Power is applied. -/
  | powerOn
  /-- RES goes low. -/
  | resLow
  /-- The INT pin changes to a level. -/
  | intPin (level : Bool)
  /-- The TMRn input changes to a level. -/
  | timerPin (n : TimerId) (level : Bool)
  /-- The environment now drives these port A lines at these levels. -/
  | padsA (driven level : Byte)
  /-- The same for port B. -/
  | padsB (driven level : Byte)
  /-- One tick of the WDT oscillator. -/
  | wdtOscTick
deriving DecidableEq, Repr

/-- The whole machine. Fields of the spec first, then what is fixed when the chip is made, then the
environment's events and the model's own bookkeeping (INVENTORY.md, State). -/
structure State where
  /-- ACC (10_state.md R20). -/
  acc : Byte
  /-- The program counter (10_state.md R22). -/
  pc : PAddr
  /-- STATUS bit 0, C (10_state.md R24). -/
  fC : Bool
  /-- STATUS bit 1, AC. -/
  fAC : Bool
  /-- STATUS bit 2, Z. -/
  fZ : Bool
  /-- STATUS bit 3, OV. -/
  fOV : Bool
  /-- STATUS bit 4, PDF. -/
  fPDF : Bool
  /-- STATUS bit 5, TO. -/
  fTO : Bool
  /-- The hardware stack, oldest entry first; its length is `depth` (10_state.md R26). -/
  stack : List PAddr
  /-- MP0 (10_state.md R29). -/
  mp0 : Byte
  /-- MP1 (10_state.md R29). -/
  mp1 : Byte
  /-- TBLP (10_state.md R30). -/
  tblp : Byte
  /-- TBHP, its five implemented bits (10_state.md R30). -/
  tbhp : BitVec 5
  /-- TBLH (10_state.md R31). -/
  tblh : Byte
  /-- WDTS (10_state.md R32). -/
  wdts : Byte
  /-- EMI, INTC bit 0 (10_state.md R33). -/
  emi : Bool
  /-- EEI, ET0I, ET1I (INTC) and ET3I (INTCH) (10_state.md R33, R34). -/
  enable : IrqBits
  /-- EIF, T0F, T1F (INTC) and T3F (INTCH) (10_state.md R33, R34). -/
  request : IrqBits
  /-- Timer/Event Counter 0 (10_state.md R35). -/
  t0 : Timer16
  /-- Timer/Event Counter 1 (10_state.md R35). -/
  t1 : Timer16
  /-- Timer Counter 3 (10_state.md R37). -/
  t3 : Timer8
  /-- Port A (10_state.md R39). -/
  pa : Port
  /-- Port B (10_state.md R39). -/
  pb : Port
  /-- LATCH0 (10_state.md R40). -/
  latch0 : BitVec 18
  /-- LATCH1 (10_state.md R40). -/
  latch1 : BitVec 18
  /-- VOICEC bit 1, DAC (10_state.md R41). -/
  dac : Bool
  /-- VOICEC bit 2, VROMC. -/
  vromc : Bool
  /-- VOICEC bit 4, LATCHC. -/
  latchc : Bool
  /-- VOICEC bit 7, without a described function. -/
  voiceB7 : Bool
  /-- DAL bits 7 to 4 (10_state.md R42). -/
  dal : BitVec 4
  /-- DAH (10_state.md R42). -/
  dah : Byte
  /-- VOL bits 7 to 5 (10_state.md R43). -/
  vol : BitVec 3
  /-- LATCHD (10_state.md R44). -/
  latchd : Byte
  /-- General RAM, 30H to FFH (10_state.md R45). -/
  ram : Memory 8
  /-- `WDTCNT` (10_state.md R47). -/
  wdtcnt : BitVec 15
  /-- `WDT1F` (10_state.md R47). -/
  wdt1f : Bool
  /-- `WDT2F` (10_state.md R47). -/
  wdt2f : Bool
  /-- `halted` (10_state.md R47). -/
  halted : Bool
  /-- `halt_preflags` (10_state.md R47). -/
  haltPre : IrqBits
  /-- `INT_prev` (10_state.md R47). -/
  intPrev : Bool
  /-- `PA_prev` (10_state.md R47). -/
  paPrev : Byte
  /-- `VROM_age`, saturating at `VROM_DELAY_CYCLES` (10_state.md R47, log 15). -/
  vromAge : Nat
  /-- Program ROM, fixed when the chip is made (20_memory.md R101). -/
  rom : Memory 16
  /-- Voice ROM, fixed when the chip is made (20_memory.md R103). -/
  vrom : Memory 8
  /-- Part, mask options and parameters, fixed when the chip is made (00_scope.md R5). -/
  opt : Options
  /-- The model's own: the environment's events to come, one list an instruction boundary (log 2). -/
  env : List (List EnvEvent)
  /-- The model's own: how many free values have been drawn (log 9). -/
  draws : Nat
  /-- The spec's pseudocode variable `cycles`: instruction cycles executed (log 22). -/
  cycles : Nat
  /-- The model's own: `VROM_age` is cleared after this instruction's device step (log 15). -/
  vromRestart : Bool
deriving DecidableEq, Repr

/-- Why the machine stops: the spec's model faults, each with the address of the instruction and the
info of 60_exceptions.md R401. All are SAFE: the hardware goes on in a way the spec does not
describe, the model stops. -/
inductive Fault where
  /-- Raised by a step whose fetched word is no instruction (30_encoding.md R145). Safe. -/
  | illegalInstruction (pc : PAddr) (w : RomWord)
  /-- Raised by a data access that resolves to a location that does not exist (20_memory.md R123).
  Safe. -/
  | unusedAddress (pc : PAddr) (a : Byte)
  /-- Raised by an instruction that computes flags and has STATUS as destination, by SIZ or SDZ with
  PCL as destination, and by a write that switches a timer on in a mode the source calls "Unused"
  (10_state.md R25; 46_branch.md R276, R277; 60_exceptions.md R433, R437). Safe. -/
  | unpredictable (pc : PAddr) (i : Instr) (a : Byte)
  /-- Raised by a write of 1 to VOICEC bit 7 (20_memory.md R118). Safe. -/
  | undocumentedBit (pc : PAddr) (reg : Byte) (bit : Nat)
  /-- Raised by RET, RET A,x and RETI on an empty stack (10_state.md R28). Safe. -/
  | stackUnderflow (pc : PAddr)
deriving DecidableEq, Repr

/-- Why an instruction has no meaning. -/
inductive Refusal where
  /-- Raised by an arm of `exec` whose instruction has no meaning yet. Safe. No arm raises it. -/
  | notModelled (mnemonic : String)
deriving DecidableEq, Repr

/-- An unknown timer 0 or 1 as `State.reset` has it: every bit the spec calls unknown is 1, TON is 0
(10_state.md R36), the external input low (log 6, 8). -/
def Timer16.ofReset : Timer16 where
  cnt := 0xFFFF#16
  pre := 0xFFFF#16
  buf := 0xFF#8
  te := true
  ton := false
  tm := 0b11#2
  pw := true
  pin := false
  lose := false

/-- Timer 3 as `State.reset` has it (10_state.md R38, log 6). -/
def Timer8.ofReset : Timer8 where
  cnt := 0xFF#8
  pre := 0xFF#8
  ps := 0xFF#8
  sel := 0b111#3
  te := true
  ton := false
  tm := 0b11#2

/-- A port after reset: latch and control FFH (10_state.md R39), no pad driven (log 18). -/
def Port.ofReset : Port where
  latch := 0xFF#8
  ctrl := 0xFF#8
  driven := 0x00#8
  level := 0xFF#8

/-- The machine right after power-on: the column "Power On" of 10_state.md R60, and R61. Every bit
the spec gives as unknown is 1 (log 6, 7; DESIGN CHOICE, unsafe), and no event is to come. -/
def State.reset : State where
  acc := 0xFF#8
  pc := 0x0000#13
  fC := true
  fAC := true
  fZ := true
  fOV := true
  fPDF := false
  fTO := false
  stack := []
  mp0 := 0xFF#8
  mp1 := 0xFF#8
  tblp := 0xFF#8
  tbhp := 0x1F#5
  tblh := 0xFF#8
  wdts := 0x07#8
  emi := false
  enable := { ext := false, timer0 := false, timer1 := false, timer3 := true }
  request := { ext := false, timer0 := false, timer1 := false, timer3 := false }
  t0 := Timer16.ofReset
  t1 := Timer16.ofReset
  t3 := Timer8.ofReset
  pa := Port.ofReset
  pb := Port.ofReset
  latch0 := 0x3FFFF#18
  latch1 := 0x3FFFF#18
  dac := false
  vromc := false
  latchc := false
  voiceB7 := false
  dal := 0xF#4
  dah := 0xFF#8
  vol := 0b111#3
  latchd := 0xFF#8
  ram := []
  wdtcnt := 0#15
  wdt1f := true
  wdt2f := true
  halted := false
  haltPre := { ext := false, timer0 := false, timer1 := false, timer3 := false }
  intPrev := true
  paPrev := 0xFF#8
  vromAge := 0
  rom := []
  vrom := []
  opt := Options.ofReset
  env := []
  draws := 0
  cycles := 0
  vromRestart := false

end Sys2Proof.Machine
end

