-- ==== Sys2Proof/Machine/Flags.lean ====
section
/-! DEFINITION. Every result and flag computation of the spec: the adder (40_arithmetic.md R200), the
decimal adjust (R211), the zero flag of logic and increment (41_logic.md R220, 42_incdec.md R240)
and the rotates (43_rotate.md R250). -/

namespace Sys2Proof.Machine

/-- What the adder delivers (40_arithmetic.md R200). -/
structure AddOut where
  r : Byte
  cout : Bool
  aco : Bool
  ovo : Bool
  zo : Bool
deriving DecidableEq, Repr

/-- `Add8(a, b, cin)` (40_arithmetic.md R200). -/
def add8 (a b : Byte) (cin : Bool) : AddOut :=
  let s : BitVec 9 := a.setWidth 9 + b.setWidth 9 + (BitVec.ofBool cin).setWidth 9
  let n : BitVec 5 :=
    (a.extractLsb' 0 4).setWidth 5 + (b.extractLsb' 0 4).setWidth 5 + (BitVec.ofBool cin).setWidth 5
  let c7 : BitVec 8 :=
    (a.extractLsb' 0 7).setWidth 8 + (b.extractLsb' 0 7).setWidth 8 + (BitVec.ofBool cin).setWidth 8
  { r := s.extractLsb' 0 8
    cout := s.getLsbD 8
    aco := n.getLsbD 4
    ovo := c7.getLsbD 7 != s.getLsbD 8
    zo := s.extractLsb' 0 8 == 0#8 }

/-- Write C, AC, OV and Z from the adder (30_encoding.md R150, first row). -/
def State.withAddFlags (s : State) (o : AddOut) : State :=
  { s with fC := o.cout, fAC := o.aco, fOV := o.ovo, fZ := o.zo }

/-- Write Z alone from an 8-bit result (41_logic.md R220, 42_incdec.md R240). -/
def State.withZ (s : State) (r : Byte) : State := { s with fZ := r == 0#8 }

/-- Write C alone (43_rotate.md R250, 40_arithmetic.md R211). -/
def State.withC (s : State) (c : Bool) : State := { s with fC := c }

/-- The low nibble of DAA: the adjusted nibble and the internal carry AC1 (40_arithmetic.md R211).
Where the nibble is above 9 and AC is 1, AC1 is the open parameter `DAA_AC1_BOTH` (log 14). -/
def daaLow (lo : BitVec 4) (ac : Bool) : BitVec 4 × Bool :=
  if 9 < lo.toNat then (lo + 6#4, if ac then Config.daaAc1Both else true)
  else if ac then (lo + 6#4, false)
  else (lo, false)

/-- The high nibble of DAA and the new C (40_arithmetic.md R211); `t` is 0 to 16. -/
def daaHigh (hi : BitVec 4) (ac1 c : Bool) : BitVec 4 × Bool :=
  let t : BitVec 5 := hi.setWidth 5 + (BitVec.ofBool ac1).setWidth 5
  if 9 < t.toNat ∨ c = true then ((t + 6#5).extractLsb' 0 4, true)
  else (t.extractLsb' 0 4, c)

/-- DAA: the byte stored and the new C (40_arithmetic.md R211). -/
def daaResult (acc : Byte) (ac c : Bool) : Byte × Bool :=
  let low := daaLow (acc.extractLsb' 0 4) ac
  let high := daaHigh (acc.extractLsb' 4 4) low.2 c
  (high.1 ++ low.1, high.2)

/-- `v[0] : v[7:1]` (43_rotate.md R251). -/
def rotRight (v : Byte) : Byte := BitVec.ofBool (v.getLsbD 0) ++ v.extractLsb' 1 7

/-- `v[6:0] : v[7]` (43_rotate.md R255). -/
def rotLeft (v : Byte) : Byte := v.extractLsb' 0 7 ++ BitVec.ofBool (v.getLsbD 7)

/-- `C : v[7:1]`; the new C is `v[0]` (43_rotate.md R253). -/
def rotRightC (v : Byte) (c : Bool) : Byte := BitVec.ofBool c ++ v.extractLsb' 1 7

/-- `v[6:0] : C`; the new C is `v[7]` (43_rotate.md R257). -/
def rotLeftC (v : Byte) (c : Bool) : Byte := v.extractLsb' 0 7 ++ BitVec.ofBool c

/-- `v[3:0] : v[7:4]` (48_misc.md R306). -/
def swapNibbles (v : Byte) : Byte := v.extractLsb' 0 4 ++ v.extractLsb' 4 4

/-- The byte `1 << i` of a bit operation (45_bit.md R265). -/
def bitMask (i : Nat) : Byte := 1#8 <<< i

end Sys2Proof.Machine
end

