-- ==== Sys2Proof/Machine/Memory.lean ====
section
/-! DEFINITION. Memories as lists of (address, unit) pairs in one canonical form: addresses strictly
rising and no entry equal to what an unlisted address reads as. -/

namespace Sys2Proof

/-- Read one unit: the listed one, else the default `d`. -/
def Memory.read {w : Nat} (d : BitVec w) : Memory w → Nat → BitVec w
  | [], _ => d
  | (b, v) :: rest, a => if a = b then v else Memory.read d rest a

/-- List `v` at `a`, in place or in order. -/
def Memory.put {w : Nat} (a : Nat) (v : BitVec w) : Memory w → Memory w
  | [] => [(a, v)]
  | (b, u) :: rest =>
    if a < b then (a, v) :: (b, u) :: rest
    else if a = b then (a, v) :: rest
    else (b, u) :: Memory.put a v rest

/-- List nothing at `a`. -/
def Memory.erase {w : Nat} (a : Nat) : Memory w → Memory w
  | [] => []
  | (b, u) :: rest => if a = b then rest else (b, u) :: Memory.erase a rest

/-- Write one unit, keeping the canonical form: writing the default removes the entry. -/
def Memory.write {w : Nat} (d : BitVec w) (m : Memory w) (a : Nat) (v : BitVec w) : Memory w :=
  if v = d then Memory.erase a m else Memory.put a v m

/-- Every listed address is at least `lo`, the addresses rise strictly and stay below `hi`, and no
listed unit is the default. -/
def Memory.wfFrom {w : Nat} (d : BitVec w) (lo hi : Nat) : Memory w → Bool
  | [] => true
  | (a, v) :: rest => lo ≤ a && a < hi && v ≠ d && Memory.wfFrom d (a + 1) hi rest

/-- The canonical form of a memory with default `d` at addresses `lo` to `hi - 1`. -/
def Memory.wf {w : Nat} (d : BitVec w) (lo hi : Nat) (m : Memory w) : Bool :=
  Memory.wfFrom d lo hi m

/-- The canonical memory that holds `f a` at the `n` addresses from `lo`. -/
def Memory.fill {w : Nat} (d : BitVec w) (f : Nat → BitVec w) : Nat → Nat → Memory w
  | _, 0 => []
  | lo, n + 1 =>
    if f lo = d then Memory.fill d f (lo + 1) n
    else (lo, f lo) :: Memory.fill d f (lo + 1) n

end Sys2Proof
end

