-- ==== Sys2Proof/Machine/Ops.lean ====
section
/-! DEFINITION. The named operations on state: free values, memories, the stack, the skip, request
flags and wake-up, and taking an interrupt and returning from one. -/

namespace Sys2Proof.Machine

open Sys2Proof.Config

/-! ### Bookkeeping -/

/-- Count `n` instruction cycles (70_reset_and_hazards.md R531). -/
def State.retire (s : State) (n : Nat) : State := { s with cycles := s.cycles + n }

/-- The next free byte and the state in which it is drawn (`draw` of 00_scope.md R8, log 9). -/
def State.draw (s : State) : Byte × State := (freeByte s.draws, { s with draws := s.draws + 1 })

/-- The address of the executing instruction: `pc` is already one past it (10_state.md R22). -/
def State.here (s : State) : PAddr := s.pc - 1#13

/-! ### Parts of the state that come in twos and fours -/

/-- The bit of one interrupt source. -/
def IrqBits.get (b : IrqBits) : IrqSource → Bool
  | .ext => b.ext
  | .timer0 => b.timer0
  | .timer1 => b.timer1
  | .timer3 => b.timer3

/-- Change the bit of one interrupt source. -/
def IrqBits.set (b : IrqBits) (src : IrqSource) (v : Bool) : IrqBits :=
  match src with
  | .ext => { b with ext := v }
  | .timer0 => { b with timer0 := v }
  | .timer1 => { b with timer1 := v }
  | .timer3 => { b with timer3 := v }

/-- Timer/Event Counter n. -/
def State.timer (s : State) : TimerId → Timer16
  | .t0 => s.t0
  | .t1 => s.t1

/-- Replace Timer/Event Counter n. -/
def State.setTimer (s : State) (n : TimerId) (t : Timer16) : State :=
  match n with
  | .t0 => { s with t0 := t }
  | .t1 => { s with t1 := t }

/-- The interrupt source of Timer/Event Counter n (60_exceptions.md R410). -/
def TimerId.source : TimerId → IrqSource
  | .t0 => .timer0
  | .t1 => .timer1

/-- Voice ROM address latch n. -/
def State.latch (s : State) : LatchId → BitVec 18
  | .l0 => s.latch0
  | .l1 => s.latch1

/-- Replace voice ROM address latch n. -/
def State.setLatch (s : State) (n : LatchId) (v : BitVec 18) : State :=
  match n with
  | .l0 => { s with latch0 := v }
  | .l1 => { s with latch1 := v }

/-! ### Memories -/

/-- What a general RAM byte that is not listed reads as. DESIGN CHOICE (log 7). -/
def ramDefault : Byte := 0xFF#8

/-- What a program ROM word that is not listed reads as. DESIGN CHOICE (log 4). -/
def romDefault : RomWord := 0x0000#16

/-- What a voice ROM byte that is not listed reads as. DESIGN CHOICE (log 5). -/
def vromDefault : Byte := 0x00#8

/-- A general RAM byte (10_state.md R45). -/
def State.ramRead (s : State) (a : Byte) : Byte := Memory.read ramDefault s.ram a.toNat

/-- Write a general RAM byte (10_state.md R45). -/
def State.ramWrite (s : State) (a v : Byte) : State :=
  { s with ram := Memory.write ramDefault s.ram a.toNat v }

/-- `RomRead(a)` (20_memory.md R101). -/
def State.romRead (s : State) (a : PAddr) : RomWord := Memory.read romDefault s.rom a.toNat

/-- The voice ROM byte at an address (20_memory.md R103). -/
def State.vromRead (s : State) (a : Nat) : Byte := Memory.read vromDefault s.vrom a

/-! ### The hardware stack and the skip -/

/-- The number of entries on the stack (10_state.md R26). -/
def State.depth (s : State) : Nat := s.stack.length

/-- `Push(v)`: on a full stack the oldest entry is lost (10_state.md R27). -/
def State.push (s : State) (v : PAddr) : State :=
  if s.depth < 8 then { s with stack := s.stack ++ [v] }
  else { s with stack := s.stack.drop 1 ++ [v] }

/-- `Pop()`: the newest entry, or nothing on an empty stack (10_state.md R28). -/
def State.pop (s : State) : Option (PAddr × State) :=
  match s.stack.getLast? with
  | none => none
  | some v => some (v, { s with stack := s.stack.dropLast })

/-- `Skip()`: pass over one instruction and pay the dummy cycle (46_branch.md R270). -/
def State.skip (s : State) : State := { s with pc := s.pc + 1#13, cycles := s.cycles + 1 }

/-- Skip if a condition holds (46_branch.md R272). -/
def State.skipIf (s : State) (b : Bool) : State := if b then s.skip else s

/-! ### Request flags, interrupts and returns -/

/-- A request flag's event happens: the flag is 1 afterwards, and if it rose in HALT and was 0 when
HALT executed, the chip wakes (60_exceptions.md R413, R451, R452). -/
def State.raiseRequest (s : State) (src : IrqSource) : State :=
  { s with
    request := s.request.set src true
    halted := s.halted && (s.request.get src || s.haltPre.get src) }

/-- `Pending(s)`: requested and individually enabled (60_exceptions.md R411). -/
def State.pending (s : State) (src : IrqSource) : Bool := s.request.get src && s.enable.get src

/-- The source taken at this boundary, if any: EMI is 1, the stack is not full, and it is the pending
source of highest priority (60_exceptions.md R410, R411). -/
def State.accepted (s : State) : Option IrqSource :=
  if s.emi && s.depth < 8 then
    if s.pending .ext then some .ext
    else if s.pending .timer0 then some .timer0
    else if s.pending .timer1 then some .timer1
    else if s.pending .timer3 then some .timer3
    else none
  else none

/-- The vector of a source (60_exceptions.md R410). -/
def IrqSource.vector : IrqSource → PAddr
  | .ext => 0x004#13
  | .timer0 => 0x008#13
  | .timer1 => 0x00C#13
  | .timer3 => 0x014#13

/-- `InterruptEntry(s)`: push `pc`, clear the request flag and EMI, go to the vector
(60_exceptions.md R412). -/
def State.interruptEntry (s : State) (src : IrqSource) : State :=
  let s1 := s.push s.pc
  { s1 with
    request := s1.request.set src false
    emi := false
    pc := src.vector
    cycles := s1.cycles + s1.opt.intEntryCycles }

/-- The return shared by RET, RET A,x and RETI: `pc <- Pop()` (46_branch.md R281). -/
def State.returnFromStack (s : State) : Except Fault State :=
  match s.pop with
  | none => .error (.stackUnderflow s.here)
  | some (v, s1) => .ok { s1 with pc := v }

/-- The return from an interrupt: `pc <- Pop(); EMI <- 1` (46_branch.md R283). -/
def State.returnFromInterrupt (s : State) : Except Fault State :=
  match s.returnFromStack with
  | .error e => .error e
  | .ok s1 => .ok { s1 with emi := true }

end Sys2Proof.Machine
end

