-- ==== Sys2Proof/Machine/Operands.lean ====
section
/-! DEFINITION. The data memory operand: which location an address names (10_state.md R48, 20_memory.md
R104 to R106, R123), what reading and writing it does (R107 to R122), and the shapes in which the
instructions use it. -/

namespace Sys2Proof.Machine

open Sys2Proof.Config

/-! ### Locations -/

/-- A location an access can resolve to (10_state.md R48). -/
inductive Loc where
  /-- 00H or 02H reached through a pointer that itself holds 00H or 02H (20_memory.md R105). -/
  | window
  | mp0 | mp1 | acc | pcl | tblp | tblh | wdts | status | intc
  | tmrH (n : TimerId)
  | tmrL (n : TimerId)
  | tmrC (n : TimerId)
  | pa | pac | pb | pbc
  | latchH (n : LatchId)
  | latchM (n : LatchId)
  | latchL (n : LatchId)
  | intch | tbhp | tmr3l | tmr3c | voicec | dal | dah | vol | latchd
  /-- General RAM, 30H to FFH. -/
  | ram (a : Byte)
deriving DecidableEq, Repr

/-- The location at a data address, for addresses other than the windows 00H and 02H; none where no
location exists (10_state.md R46, R48). -/
def locOf (a : Byte) : Option Loc :=
  match a.toNat with
  | 0x01 => some .mp0
  | 0x03 => some .mp1
  | 0x05 => some .acc
  | 0x06 => some .pcl
  | 0x07 => some .tblp
  | 0x08 => some .tblh
  | 0x09 => some .wdts
  | 0x0A => some .status
  | 0x0B => some .intc
  | 0x0C => some (.tmrH .t0)
  | 0x0D => some (.tmrL .t0)
  | 0x0E => some (.tmrC .t0)
  | 0x0F => some (.tmrH .t1)
  | 0x10 => some (.tmrL .t1)
  | 0x11 => some (.tmrC .t1)
  | 0x12 => some .pa
  | 0x13 => some .pac
  | 0x14 => some .pb
  | 0x15 => some .pbc
  | 0x18 => some (.latchH .l0)
  | 0x19 => some (.latchM .l0)
  | 0x1A => some (.latchL .l0)
  | 0x1B => some (.latchH .l1)
  | 0x1C => some (.latchM .l1)
  | 0x1D => some (.latchL .l1)
  | 0x1E => some .intch
  | 0x1F => some .tbhp
  | 0x24 => some .tmr3l
  | 0x25 => some .tmr3c
  | 0x26 => some .voicec
  | 0x27 => some .dal
  | 0x28 => some .dah
  | 0x29 => some .vol
  | 0x2A => some .latchd
  | n => if 0x30 ≤ n then some (.ram a) else none

/-- The data address of a location (10_state.md R48), for the info of a fault; 00H for the window. -/
def Loc.addr : Loc → Byte
  | .window => 0x00#8
  | .mp0 => 0x01#8
  | .mp1 => 0x03#8
  | .acc => 0x05#8
  | .pcl => 0x06#8
  | .tblp => 0x07#8
  | .tblh => 0x08#8
  | .wdts => 0x09#8
  | .status => 0x0A#8
  | .intc => 0x0B#8
  | .tmrH .t0 => 0x0C#8
  | .tmrL .t0 => 0x0D#8
  | .tmrC .t0 => 0x0E#8
  | .tmrH .t1 => 0x0F#8
  | .tmrL .t1 => 0x10#8
  | .tmrC .t1 => 0x11#8
  | .pa => 0x12#8
  | .pac => 0x13#8
  | .pb => 0x14#8
  | .pbc => 0x15#8
  | .latchH .l0 => 0x18#8
  | .latchM .l0 => 0x19#8
  | .latchL .l0 => 0x1A#8
  | .latchH .l1 => 0x1B#8
  | .latchM .l1 => 0x1C#8
  | .latchL .l1 => 0x1D#8
  | .intch => 0x1E#8
  | .tbhp => 0x1F#8
  | .tmr3l => 0x24#8
  | .tmr3c => 0x25#8
  | .voicec => 0x26#8
  | .dal => 0x27#8
  | .dah => 0x28#8
  | .vol => 0x29#8
  | .latchd => 0x2A#8
  | .ram a => a

/-- A direct access to an address that is no window (20_memory.md R107, R108, R123). -/
def State.resolveDirect (s : State) (a : Byte) : Except Fault Loc :=
  match locOf a with
  | some l => .ok l
  | none => .error (.unusedAddress s.here a)

/-- An access through a pointer that holds `p` (20_memory.md R104 to R106). -/
def State.resolvePointer (s : State) (p : Byte) : Except Fault Loc :=
  if p = 0x00#8 ∨ p = 0x02#8 then .ok .window else s.resolveDirect p

/-- The location the operand `m` names, indirection included (20_memory.md R104 to R106). -/
def State.resolve (s : State) (m : Byte) : Except Fault Loc :=
  if m = 0x00#8 then s.resolvePointer s.mp0
  else if m = 0x02#8 then s.resolvePointer s.mp1
  else s.resolveDirect m

/-! ### Registers seen as bytes -/

/-- A bit as a 1-bit vector. -/
abbrev bit (b : Bool) : BitVec 1 := BitVec.ofBool b

/-- STATUS as read: `0:0:TO:PDF:OV:Z:AC:C` (10_state.md R25). -/
def State.statusByte (s : State) : Byte :=
  0b00#2 ++ bit s.fTO ++ bit s.fPDF ++ bit s.fOV ++ bit s.fZ ++ bit s.fAC ++ bit s.fC

/-- A write of STATUS: TO and PDF stay (10_state.md R25). -/
def State.writeStatus (s : State) (v : Byte) : State :=
  { s with fC := v.getLsbD 0, fAC := v.getLsbD 1, fZ := v.getLsbD 2, fOV := v.getLsbD 3 }

/-- INTC as read (10_state.md R33, 20_memory.md R107). -/
def State.intcByte (s : State) : Byte :=
  0b0#1 ++ bit s.request.timer1 ++ bit s.request.timer0 ++ bit s.request.ext
    ++ bit s.enable.timer1 ++ bit s.enable.timer0 ++ bit s.enable.ext ++ bit s.emi

/-- A write of INTC (20_memory.md R108, R111). -/
def State.writeIntc (s : State) (v : Byte) : State :=
  { s with
    emi := v.getLsbD 0
    enable := { s.enable with
      ext := v.getLsbD 1, timer0 := v.getLsbD 2, timer1 := v.getLsbD 3 }
    request := { s.request with
      ext := v.getLsbD 4, timer0 := v.getLsbD 5, timer1 := v.getLsbD 6 } }

/-- INTCH as read: T3F in bit 5, ET3I in bit 1 (10_state.md R34). -/
def State.intchByte (s : State) : Byte :=
  0b00#2 ++ bit s.request.timer3 ++ 0b000#3 ++ bit s.enable.timer3 ++ 0b0#1

/-- A write of INTCH (20_memory.md R108). -/
def State.writeIntch (s : State) (v : Byte) : State :=
  { s with
    enable := { s.enable with timer3 := v.getLsbD 1 }
    request := { s.request with timer3 := v.getLsbD 5 } }

/-- TMR0C or TMR1C as read (10_state.md R36). -/
def Timer16.ctrlByte (t : Timer16) : Byte := t.tm ++ 0b0#1 ++ bit t.ton ++ bit t.te ++ 0b000#3

/-- A write of TMR0C or TMR1C. A change of TON from 0 to 1 arms a new pulse width measurement
(20_memory.md R114, 60_exceptions.md R435, log 16). -/
def Timer16.writeCtrl (t : Timer16) (v : Byte) : Timer16 :=
  { t with
    te := v.getLsbD 3
    ton := v.getLsbD 4
    tm := v.extractLsb' 6 2
    pw := t.pw && !(v.getLsbD 4 && !t.ton) }

/-- A write of TMR0H or TMR1H: preload, and the counter too while TON is 0 (20_memory.md R112). -/
def Timer16.writeHigh (t : Timer16) (v : Byte) : Timer16 :=
  { t with pre := v ++ t.buf, cnt := if t.ton then t.cnt else v ++ t.buf }

/-- TMR3C as read (10_state.md R38). -/
def Timer8.ctrlByte (t : Timer8) : Byte := t.tm ++ 0b0#1 ++ bit t.ton ++ bit t.te ++ t.sel

/-- A write of TMR3C. A change of TON from 0 to 1 clears the prescaler count (20_memory.md R122,
60_exceptions.md R437, log 17). -/
def Timer8.writeCtrl (t : Timer8) (v : Byte) : Timer8 :=
  { t with
    sel := v.extractLsb' 0 3
    te := v.getLsbD 3
    ton := v.getLsbD 4
    tm := v.extractLsb' 6 2
    ps := if v.getLsbD 4 && !t.ton then 0#8 else t.ps }

/-- A write of TMR3L (20_memory.md R121). -/
def Timer8.writeCount (t : Timer8) (v : Byte) : Timer8 :=
  { t with pre := v, cnt := if t.ton then t.cnt else v }

/-- What a program reads at a port, which is also the level of its eight pads: an output line gives
its latch; an input line gives what the environment drives, else 1 with the pull-high option, else a
floating level, here the bits of `float` (20_memory.md R116, 60_exceptions.md R460, log 18). -/
def Port.levels (p : Port) (pullHigh : Bool) (float : Byte) : Byte :=
  let undriven := if pullHigh then 0xFF#8 else float
  let input := (p.driven &&& p.level) ||| (~~~p.driven &&& undriven)
  (p.ctrl &&& input) ||| (~~~p.ctrl &&& p.latch)

/-- VOICEC as read (20_memory.md R107). -/
def State.voicecByte (s : State) : Byte :=
  bit s.voiceB7 ++ 0b00#2 ++ bit s.latchc ++ 0b0#1 ++ bit s.vromc ++ bit s.dac ++ 0b0#1

/-! ### The voice ROM side of the latches -/

/-- The latch VOICEC selects (60_exceptions.md R470). -/
def State.selected (s : State) : LatchId := if s.latchc then .l1 else .l0

/-- The selected voice ROM address changes, or the circuit is switched: LATCHD becomes unknown and
the delay starts again after this instruction's device step (60_exceptions.md R470, log 12, 15). -/
def State.disturbVoice (s : State) : State :=
  { s.draw.2 with latchd := s.draw.1, vromRestart := true }

/-- A write of a part of latch `n` (20_memory.md R117). -/
def State.writeLatch (s : State) (n : LatchId) (v : BitVec 18) : State :=
  if s.selected = n then (s.setLatch n v).disturbVoice else s.setLatch n v

/-- A write of VOICEC (20_memory.md R118). -/
def State.writeVoicec (s : State) (v : Byte) : State :=
  let s1 := { s with
    dac := v.getLsbD 1, vromc := v.getLsbD 2, latchc := v.getLsbD 4, voiceB7 := v.getLsbD 7 }
  if v.getLsbD 2 = s.vromc ∧ v.getLsbD 4 = s.latchc then s1 else s1.disturbVoice

/-- LATCHD holds the byte at the selected address: the circuit is on and the delay has passed
(60_exceptions.md R470). -/
def State.voiceReady (s : State) : Bool := s.vromc && s.opt.vromDelayCycles ≤ s.vromAge

/-- LATCHnH as read: bits 7 to 2, and on the HT86030 bit 1 too, have no stated value
(93_implementation_defined.md U7, U15; log 11). -/
def latchHighByte (part : Part) (l : BitVec 18) (float : Byte) : Byte :=
  match part with
  | .ht86030 => float.extractLsb' 1 7 ++ bit (l.getLsbD 16)
  | .ht86070 => float.extractLsb' 2 6 ++ l.extractLsb' 16 2

/-! ### Reading and writing a location -/

/-- A read of TMRnH latches the low byte into the buffer, and while the timer runs the count of this
cycle may be lost (20_memory.md R112, 60_exceptions.md R436, log 13). -/
def State.latchTimer (s : State) (n : TimerId) : State :=
  let t := s.timer n
  s.draw.2.setTimer n
    { t with buf := t.cnt.extractLsb' 0 8, lose := t.ton && s.draw.1.getLsbD 0 }

/-- `DirectRead(a)`: the byte read and the state after it (20_memory.md R107). -/
def State.readLoc (s : State) : Loc → Byte × State
  | .window => (0x00#8, s)
  | .mp0 => (s.mp0, s)
  | .mp1 => (s.mp1, s)
  | .acc => (s.acc, s)
  | .pcl => (s.pc.extractLsb' 0 8, s)
  | .tblp => (s.tblp, s)
  | .tblh => (s.tblh, s)
  | .wdts => (s.wdts, s)
  | .status => (s.statusByte, s)
  | .intc => (s.intcByte, s)
  | .tmrH n => ((s.timer n).cnt.extractLsb' 8 8, s.latchTimer n)
  | .tmrL n => ((s.timer n).buf, s)
  | .tmrC n => ((s.timer n).ctrlByte, s)
  | .pa => (s.pa.levels s.opt.paPullHigh s.draw.1, s.draw.2)
  | .pac => (s.pa.ctrl, s)
  | .pb => (s.pb.levels s.opt.pbPullHigh s.draw.1, s.draw.2)
  | .pbc => (s.pb.ctrl, s)
  | .latchH n => (latchHighByte s.opt.part (s.latch n) s.draw.1, s.draw.2)
  | .latchM n => ((s.latch n).extractLsb' 8 8, s)
  | .latchL n => ((s.latch n).extractLsb' 0 8, s)
  | .intch => (s.intchByte, s)
  | .tbhp => (s.draw.1.extractLsb' 5 3 ++ s.tbhp, s.draw.2)
  | .tmr3l => (s.t3.cnt, s)
  | .tmr3c => (s.t3.ctrlByte, s)
  | .voicec => (s.voicecByte, s)
  | .dal => (s.dal ++ 0x0#4, s)
  | .dah => (s.dah, s)
  | .vol => (s.vol ++ s.draw.1.extractLsb' 4 1 ++ 0x0#4, s.draw.2)
  | .latchd => if s.voiceReady then (s.latchd, s) else s.draw
  | .ram a => (s.ramRead a, s)

/-- `DirectWrite(a, v)` (20_memory.md R108). -/
def State.writeLoc (s : State) (v : Byte) : Loc → State
  | .window => s
  | .mp0 => { s with mp0 := v }
  | .mp1 => { s with mp1 := v }
  | .acc => { s with acc := v }
  | .pcl => { s with pc := s.pc.extractLsb' 8 5 ++ v }
  | .tblp => { s with tblp := v }
  | .tblh => s
  | .wdts => { s with wdts := v }
  | .status => s.writeStatus v
  | .intc => s.writeIntc v
  | .tmrH n => s.setTimer n ((s.timer n).writeHigh v)
  | .tmrL n => s.setTimer n { s.timer n with buf := v }
  | .tmrC n => s.setTimer n ((s.timer n).writeCtrl v)
  | .pa => { s with pa := { s.pa with latch := v } }
  | .pac => { s with pa := { s.pa with ctrl := v } }
  | .pb => { s with pb := { s.pb with latch := v } }
  | .pbc => { s with pb := { s.pb with ctrl := v } }
  | .latchH n => s.writeLatch n (v.extractLsb' 0 2 ++ (s.latch n).extractLsb' 0 16)
  | .latchM n =>
    s.writeLatch n ((s.latch n).extractLsb' 16 2 ++ v ++ (s.latch n).extractLsb' 0 8)
  | .latchL n => s.writeLatch n ((s.latch n).extractLsb' 8 10 ++ v)
  | .intch => s.writeIntch v
  | .tbhp => { s with tbhp := v.extractLsb' 0 5 }
  | .tmr3l => { s with t3 := s.t3.writeCount v }
  | .tmr3c => { s with t3 := s.t3.writeCtrl v }
  | .voicec => s.writeVoicec v
  | .dal => { s with dal := v.extractLsb' 4 4 }
  | .dah => { s with dah := v }
  | .vol => { s with vol := v.extractLsb' 5 3 }
  | .latchd => s
  | .ram a => s.ramWrite a v

/-! ### Destination checks -/

/-- Which destination an instruction is refused: STATUS if it computes flags (10_state.md R25), PCL
for SIZ and SDZ (46_branch.md R276, R277). -/
inductive DestRule where
  | any
  | notStatus
  | notPcl
deriving DecidableEq, Repr

/-- The check of the destination itself (60_exceptions.md R401, `Unpredictable`). -/
def DestRule.allows (r : DestRule) (l : Loc) : Bool :=
  match r with
  | .any => true
  | .notStatus => l != .status
  | .notPcl => l != .pcl

/-- TMRnC may be written `v`: not TON = 1 with mode 00 (60_exceptions.md R433). -/
def timerCtrlAllowed (v : Byte) : Bool := !(v.getLsbD 4 && v.extractLsb' 6 2 == 0b00#2)

/-- TMR3C may be written `v`: not TON = 1 with a mode other than 10 (60_exceptions.md R437). -/
def timer3CtrlAllowed (v : Byte) : Bool := !(v.getLsbD 4 && v.extractLsb' 6 2 != 0b10#2)

/-- The destination checks of instruction `i` writing `v` to `l`, none if it may
(60_exceptions.md R401). -/
def State.destFault (s : State) (r : DestRule) (i : Instr) (l : Loc) (v : Byte) : Option Fault :=
  if !r.allows l then some (.unpredictable s.here i l.addr)
  else
    match l with
    | .tmrC _ => if timerCtrlAllowed v then none else some (.unpredictable s.here i l.addr)
    | .tmr3c => if timer3CtrlAllowed v then none else some (.unpredictable s.here i l.addr)
    | .voicec => if v.getLsbD 7 then some (.undocumentedBit s.here 0x26#8 7) else none
    | .window | .mp0 | .mp1 | .acc | .pcl | .tblp | .tblh | .wdts | .status | .intc | .tmrH _
    | .tmrL _ | .pa | .pac | .pb | .pbc | .latchH _ | .latchM _ | .latchL _ | .intch | .tbhp
    | .tmr3l | .dal | .dah | .vol | .latchd | .ram _ => none

/-! ### `MemRead`, `MemWrite` and the shapes of the instructions -/

/-- `MemRead(m, 1)` (20_memory.md R104). -/
def State.memRead (s : State) (m : Byte) : Except Fault (Byte × State) :=
  match s.resolve m with
  | .error e => .error e
  | .ok l => .ok (s.readLoc l)

/-- The dummy cycle of a write to PCL (20_memory.md R109). -/
def Loc.writeCycles (l : Loc) : Nat := if l = .pcl then 1 else 0

/-- An instruction that reads `[m]` and does not write it: `f` says what it does with the byte. -/
def State.loadOp (s : State) (m : Byte) (f : Byte → State → State) :
    Host.Outcome State Fault Refusal :=
  match s.memRead m with
  | .error e => .fault e
  | .ok (v, s1) => .next ((f v s1).retire 1)

/-- An instruction that stores `v` to `[m]` without reading it, after `pre`, in `n` cycles. -/
def State.storeOp (s : State) (r : DestRule) (i : Instr) (n : Nat) (m v : Byte)
    (pre : State → State) : Host.Outcome State Fault Refusal :=
  match s.resolve m with
  | .error e => .fault e
  | .ok l =>
    match s.destFault r i l v with
    | some e => .fault e
    | none => .next (((pre s).writeLoc v l).retire (n + l.writeCycles))

/-- An instruction that reads `[m]`, computes the byte `f v s`, updates flags by `g`, writes the byte
back to the same location, and then does `post` with it (20_memory.md R126). -/
def State.modifyOp (s : State) (r : DestRule) (i : Instr) (m : Byte) (f : Byte → State → Byte)
    (g : Byte → State → State) (post : Byte → State → State) :
    Host.Outcome State Fault Refusal :=
  match s.resolve m with
  | .error e => .fault e
  | .ok l =>
    let v := (s.readLoc l).1
    let s1 := (s.readLoc l).2
    let w := f v s1
    match s.destFault r i l w with
    | some e => .fault e
    | none => .next ((post w ((g v s1).writeLoc w l)).retire (1 + l.writeCycles))

/-- The end of an instruction that cannot fault after its operands: `n` cycles. -/
def State.done (s : State) (n : Nat) : Host.Outcome State Fault Refusal := .next (s.retire n)

/-- The end of a return: `n` cycles, or the fault of an empty stack. -/
def finishReturn (n : Nat) : Except Fault State → Host.Outcome State Fault Refusal
  | .error e => .fault e
  | .ok s => .next (s.retire n)

end Sys2Proof.Machine
end

