-- ==== Sys2Proof/Machine/Arith.lean ====
section
/-! DEFINITION. The arithmetic instructions (40_arithmetic.md). -/

namespace Sys2Proof.Machine

/-- Put the adder's result in ACC and its flags in STATUS (40_arithmetic.md R201). -/
def State.addToAcc (s : State) (o : AddOut) : State := { s.withAddFlags o with acc := o.r }

/-- The shape of ADDM, ADCM, SUBM and SBCM: `sum` is the adder's output for the byte read; refused on
STATUS (40_arithmetic.md R202, R205, R208, R210). -/
def State.addMemOp (s : State) (i : Instr) (m : Byte) (sum : Byte → State → AddOut) :
    Host.Outcome State Fault Refusal :=
  s.modifyOp .notStatus i m (fun v t => (sum v t).r) (fun v t => t.withAddFlags (sum v t))
    (fun _ t => t)

/-- ADD A,[m] (40_arithmetic.md R201). -/
def execAddAm (m : Byte) (s : State) : Host.Outcome State Fault Refusal :=
  s.loadOp m fun v t => t.addToAcc (add8 t.acc v false)

/-- ADDM A,[m] (40_arithmetic.md R202). -/
def execAddmAm (m : Byte) (s : State) : Host.Outcome State Fault Refusal :=
  s.addMemOp (.addmAm m) m fun v t => add8 t.acc v false

/-- ADD A,x (40_arithmetic.md R203). -/
def execAddAx (x : Byte) (s : State) : Host.Outcome State Fault Refusal :=
  (s.addToAcc (add8 s.acc x false)).done 1

/-- ADC A,[m] (40_arithmetic.md R204). -/
def execAdcAm (m : Byte) (s : State) : Host.Outcome State Fault Refusal :=
  s.loadOp m fun v t => t.addToAcc (add8 t.acc v t.fC)

/-- ADCM A,[m] (40_arithmetic.md R205). -/
def execAdcmAm (m : Byte) (s : State) : Host.Outcome State Fault Refusal :=
  s.addMemOp (.adcmAm m) m fun v t => add8 t.acc v t.fC

/-- SUB A,x (40_arithmetic.md R206). -/
def execSubAx (x : Byte) (s : State) : Host.Outcome State Fault Refusal :=
  (s.addToAcc (add8 s.acc (~~~x) true)).done 1

/-- SUB A,[m] (40_arithmetic.md R207). -/
def execSubAm (m : Byte) (s : State) : Host.Outcome State Fault Refusal :=
  s.loadOp m fun v t => t.addToAcc (add8 t.acc (~~~v) true)

/-- SUBM A,[m]: ACC minus memory (40_arithmetic.md R208). -/
def execSubmAm (m : Byte) (s : State) : Host.Outcome State Fault Refusal :=
  s.addMemOp (.submAm m) m fun v t => add8 t.acc (~~~v) true

/-- SBC A,[m] (40_arithmetic.md R209). -/
def execSbcAm (m : Byte) (s : State) : Host.Outcome State Fault Refusal :=
  s.loadOp m fun v t => t.addToAcc (add8 t.acc (~~~v) t.fC)

/-- SBCM A,[m] (40_arithmetic.md R210). -/
def execSbcmAm (m : Byte) (s : State) : Host.Outcome State Fault Refusal :=
  s.addMemOp (.sbcmAm m) m fun v t => add8 t.acc (~~~v) t.fC

/-- DAA [m]: the adjusted ACC goes to memory, C alone is written (40_arithmetic.md R211). -/
def execDaa (m : Byte) (s : State) : Host.Outcome State Fault Refusal :=
  s.storeOp .notStatus (.daa m) 1 m (daaResult s.acc s.fAC s.fC).1
    fun t => t.withC (daaResult s.acc s.fAC s.fC).2

end Sys2Proof.Machine
end

