-- ==== Sys2Proof/Machine/BitOps.lean ====
section
/-! DEFINITION. The bit operation instructions (45_bit.md). -/

namespace Sys2Proof.Machine

/-- CLR [m].i (45_bit.md R265). -/
def execClrBit (m : Byte) (i : Nat) (s : State) : Host.Outcome State Fault Refusal :=
  s.modifyOp .any (.clrBit m i) m (fun v _ => v &&& ~~~bitMask i) (fun _ t => t) (fun _ t => t)

/-- SET [m].i (45_bit.md R266). -/
def execSetBit (m : Byte) (i : Nat) (s : State) : Host.Outcome State Fault Refusal :=
  s.modifyOp .any (.setBit m i) m (fun v _ => v ||| bitMask i) (fun _ t => t) (fun _ t => t)

end Sys2Proof.Machine
end

