-- ==== Sys2Proof/Machine/Branch.lean ====
section
/-! DEFINITION. The branch, skip, call and return instructions (46_branch.md). -/

namespace Sys2Proof.Machine

/-- JMP addr (46_branch.md R271). -/
def execJmp (addr : PAddr) (s : State) : Host.Outcome State Fault Refusal :=
  { s with pc := addr }.done 2

/-- SZ [m] (46_branch.md R272). -/
def execSz (m : Byte) (s : State) : Host.Outcome State Fault Refusal :=
  s.loadOp m fun v t => t.skipIf (v == 0#8)

/-- SZA [m] (46_branch.md R273). -/
def execSza (m : Byte) (s : State) : Host.Outcome State Fault Refusal :=
  s.loadOp m fun v t => { t with acc := v }.skipIf (v == 0#8)

/-- SZ [m].i (46_branch.md R274). -/
def execSzBit (m : Byte) (i : Nat) (s : State) : Host.Outcome State Fault Refusal :=
  s.loadOp m fun v t => t.skipIf (!v.getLsbD i)

/-- SNZ [m].i (46_branch.md R275). -/
def execSnzBit (m : Byte) (i : Nat) (s : State) : Host.Outcome State Fault Refusal :=
  s.loadOp m fun v t => t.skipIf (v.getLsbD i)

/-- SIZ [m], refused on PCL (46_branch.md R276). -/
def execSiz (m : Byte) (s : State) : Host.Outcome State Fault Refusal :=
  s.modifyOp .notPcl (.siz m) m (fun v _ => v + 1#8) (fun _ t => t)
    (fun r t => t.skipIf (r == 0#8))

/-- SDZ [m], refused on PCL (46_branch.md R277). -/
def execSdz (m : Byte) (s : State) : Host.Outcome State Fault Refusal :=
  s.modifyOp .notPcl (.sdz m) m (fun v _ => v - 1#8) (fun _ t => t)
    (fun r t => t.skipIf (r == 0#8))

/-- SIZA [m] (46_branch.md R278). -/
def execSiza (m : Byte) (s : State) : Host.Outcome State Fault Refusal :=
  s.loadOp m fun v t => { t with acc := v + 1#8 }.skipIf (v + 1#8 == 0#8)

/-- SDZA [m] (46_branch.md R279). -/
def execSdza (m : Byte) (s : State) : Host.Outcome State Fault Refusal :=
  s.loadOp m fun v t => { t with acc := v - 1#8 }.skipIf (v - 1#8 == 0#8)

/-- CALL addr (46_branch.md R280). -/
def execCall (addr : PAddr) (s : State) : Host.Outcome State Fault Refusal :=
  { s.push s.pc with pc := addr }.done 2

/-- RET (46_branch.md R281). -/
def execRet (s : State) : Host.Outcome State Fault Refusal := finishReturn 2 s.returnFromStack

/-- RET A,x (46_branch.md R282). -/
def execRetAx (x : Byte) (s : State) : Host.Outcome State Fault Refusal :=
  finishReturn 2 (s.returnFromStack.map fun t => { t with acc := x })

/-- RETI (46_branch.md R283). -/
def execReti (s : State) : Host.Outcome State Fault Refusal := finishReturn 2 s.returnFromInterrupt

end Sys2Proof.Machine
end

