-- ==== Sys2Proof/Machine/Logic.lean ====
section
/-! DEFINITION. The logic instructions (41_logic.md). -/

namespace Sys2Proof.Machine

/-- Put a result in ACC and Z (41_logic.md R220, 42_incdec.md R240). -/
def State.resultToAcc (s : State) (r : Byte) : State := { s.withZ r with acc := r }

/-- The shape of the logic, increment and decrement instructions with a memory destination: the
result goes to `[m]`, Z comes from the result, STATUS is refused (41_logic.md R224, 42_incdec.md
R242). -/
def State.resultToMem (s : State) (i : Instr) (m : Byte) (f : Byte → State → Byte) :
    Host.Outcome State Fault Refusal :=
  s.modifyOp .notStatus i m f (fun v t => t.withZ (f v t)) (fun _ t => t)

/-- AND A,[m] (41_logic.md R221). -/
def execAndAm (m : Byte) (s : State) : Host.Outcome State Fault Refusal :=
  s.loadOp m fun v t => t.resultToAcc (t.acc &&& v)

/-- OR A,[m] (41_logic.md R222). -/
def execOrAm (m : Byte) (s : State) : Host.Outcome State Fault Refusal :=
  s.loadOp m fun v t => t.resultToAcc (t.acc ||| v)

/-- XOR A,[m] (41_logic.md R223). -/
def execXorAm (m : Byte) (s : State) : Host.Outcome State Fault Refusal :=
  s.loadOp m fun v t => t.resultToAcc (t.acc ^^^ v)

/-- ANDM A,[m] (41_logic.md R224). -/
def execAndmAm (m : Byte) (s : State) : Host.Outcome State Fault Refusal :=
  s.resultToMem (.andmAm m) m fun v t => t.acc &&& v

/-- ORM A,[m] (41_logic.md R225). -/
def execOrmAm (m : Byte) (s : State) : Host.Outcome State Fault Refusal :=
  s.resultToMem (.ormAm m) m fun v t => t.acc ||| v

/-- XORM A,[m] (41_logic.md R226). -/
def execXormAm (m : Byte) (s : State) : Host.Outcome State Fault Refusal :=
  s.resultToMem (.xormAm m) m fun v t => t.acc ^^^ v

/-- AND A,x (41_logic.md R227). -/
def execAndAx (x : Byte) (s : State) : Host.Outcome State Fault Refusal :=
  (s.resultToAcc (s.acc &&& x)).done 1

/-- OR A,x (41_logic.md R228). -/
def execOrAx (x : Byte) (s : State) : Host.Outcome State Fault Refusal :=
  (s.resultToAcc (s.acc ||| x)).done 1

/-- XOR A,x (41_logic.md R229). -/
def execXorAx (x : Byte) (s : State) : Host.Outcome State Fault Refusal :=
  (s.resultToAcc (s.acc ^^^ x)).done 1

/-- CPL [m] (41_logic.md R230). -/
def execCpl (m : Byte) (s : State) : Host.Outcome State Fault Refusal :=
  s.resultToMem (.cpl m) m fun v _ => ~~~v

/-- CPLA [m] (41_logic.md R231). -/
def execCpla (m : Byte) (s : State) : Host.Outcome State Fault Refusal :=
  s.loadOp m fun v t => t.resultToAcc (~~~v)

end Sys2Proof.Machine
end

