-- ==== Sys2Proof/Machine/IncDec.lean ====
section
/-! DEFINITION. The increment and decrement instructions (42_incdec.md). -/

namespace Sys2Proof.Machine

/-- INCA [m] (42_incdec.md R241). -/
def execInca (m : Byte) (s : State) : Host.Outcome State Fault Refusal :=
  s.loadOp m fun v t => t.resultToAcc (v + 1#8)

/-- INC [m] (42_incdec.md R242). -/
def execInc (m : Byte) (s : State) : Host.Outcome State Fault Refusal :=
  s.resultToMem (.inc m) m fun v _ => v + 1#8

/-- DECA [m] (42_incdec.md R243). -/
def execDeca (m : Byte) (s : State) : Host.Outcome State Fault Refusal :=
  s.loadOp m fun v t => t.resultToAcc (v - 1#8)

/-- DEC [m] (42_incdec.md R244). -/
def execDec (m : Byte) (s : State) : Host.Outcome State Fault Refusal :=
  s.resultToMem (.dec m) m fun v _ => v - 1#8

end Sys2Proof.Machine
end

