-- ==== Sys2Proof/Machine/Reset.lean ====
section
/-! DEFINITION. The five resets (70_reset_and_hazards.md R500 to R505): the chip resets and the warm
reset, with the values a chip reset leaves unknown taken from plain data (log 10). -/

namespace Sys2Proof.Machine

open Sys2Proof.Config

/-- The conditions of a chip reset (70_reset_and_hazards.md R500). -/
inductive ResetKind where
  | powerOn
  | resNormal
  | resHalt
  | wdtNormal
deriving DecidableEq, Repr

/-- The values the spec gives as unknown after a chip reset (10_state.md R60 to R62). Of `t0`, `t1` and
`t3` all but TON, of `t0` and `t1` not the pin level. -/
structure Unknowns where
  acc : Byte
  mp0 : Byte
  mp1 : Byte
  tblp : Byte
  tbhp : BitVec 5
  tblh : Byte
  fC : Bool
  fAC : Bool
  fZ : Bool
  fOV : Bool
  et3i : Bool
  t0 : Timer16
  t1 : Timer16
  t3 : Timer8
  latch0 : BitVec 18
  latch1 : BitVec 18
  dal : BitVec 4
  dah : Byte
  vol : BitVec 3
  latchd : Byte
  wdt1f : Bool
  wdt2f : Bool
  ram : Memory 8
deriving DecidableEq, Repr

/-- The unknown values of `State.reset`: every bit is 1 (log 6, 7). -/
def Unknowns.ofReset : Unknowns where
  acc := 0xFF#8
  mp0 := 0xFF#8
  mp1 := 0xFF#8
  tblp := 0xFF#8
  tbhp := 0x1F#5
  tblh := 0xFF#8
  fC := true
  fAC := true
  fZ := true
  fOV := true
  et3i := true
  t0 := Timer16.ofReset
  t1 := Timer16.ofReset
  t3 := Timer8.ofReset
  latch0 := 0x3FFFF#18
  latch1 := 0x3FFFF#18
  dal := 0xF#4
  dah := 0xFF#8
  vol := 0b111#3
  latchd := 0xFF#8
  wdt1f := true
  wdt2f := true
  ram := []

/-- The free bytes an unknown timer 0 or 1 takes from draw `n` on. -/
def Timer16.free (n : Nat) : Timer16 where
  cnt := freeByte n ++ freeByte (n + 1)
  pre := freeByte (n + 2) ++ freeByte (n + 3)
  buf := freeByte (n + 4)
  te := (freeByte (n + 5)).getLsbD 3
  ton := false
  tm := (freeByte (n + 5)).extractLsb' 6 2
  pw := (freeByte (n + 5)).getLsbD 0
  pin := false
  lose := false

/-- The free bytes an unknown timer 3 takes from draw `n` on. -/
def Timer8.free (n : Nat) : Timer8 where
  cnt := freeByte n
  pre := freeByte (n + 1)
  ps := freeByte (n + 2)
  sel := (freeByte (n + 3)).extractLsb' 0 3
  te := (freeByte (n + 3)).getLsbD 3
  ton := false
  tm := (freeByte (n + 3)).extractLsb' 6 2

/-- The number of free bytes one chip reset draws. -/
def unknownDraws : Nat := 512

/-- The unknown values of a chip reset during a run: free values from draw `n` on, the 208 RAM bytes
among them (10_state.md R45, R62; log 10). -/
def Unknowns.free (n : Nat) : Unknowns where
  acc := freeByte n
  mp0 := freeByte (n + 1)
  mp1 := freeByte (n + 2)
  tblp := freeByte (n + 3)
  tbhp := (freeByte (n + 4)).extractLsb' 0 5
  tblh := freeByte (n + 5)
  fC := (freeByte (n + 6)).getLsbD 0
  fAC := (freeByte (n + 6)).getLsbD 1
  fZ := (freeByte (n + 6)).getLsbD 2
  fOV := (freeByte (n + 6)).getLsbD 3
  et3i := (freeByte (n + 6)).getLsbD 4
  t0 := Timer16.free (n + 8)
  t1 := Timer16.free (n + 16)
  t3 := Timer8.free (n + 24)
  latch0 := (freeByte (n + 32)).extractLsb' 0 2 ++ freeByte (n + 33) ++ freeByte (n + 34)
  latch1 := (freeByte (n + 35)).extractLsb' 0 2 ++ freeByte (n + 36) ++ freeByte (n + 37)
  dal := (freeByte (n + 38)).extractLsb' 4 4
  dah := freeByte (n + 39)
  vol := (freeByte (n + 40)).extractLsb' 5 3
  latchd := freeByte (n + 41)
  wdt1f := (freeByte (n + 42)).getLsbD 0
  wdt2f := (freeByte (n + 42)).getLsbD 1
  ram := Memory.fill ramDefault (fun a => freeByte (n + 256 + a)) 0x30 208

/-- A timer 0 or 1 after a chip reset: off, otherwise unknown; the pin level is the environment's
(10_state.md R35, R36). -/
def Timer16.afterReset (t u : Timer16) : Timer16 :=
  { u with ton := false, pin := t.pin, lose := false }

/-- What every chip reset does (70_reset_and_hazards.md R503, before its case distinction), with the
unknown values from `u`. `halt_preflags`, to which R503 and 10_state.md R60 and R61 give no value, stay:
DESIGN CHOICE (log 8). -/
def State.resetCommon (s : State) (u : Unknowns) : State :=
  { s with
    pc := 0x0000#13
    stack := []
    halted := false
    emi := false
    enable := { ext := false, timer0 := false, timer1 := false, timer3 := u.et3i }
    request := { ext := false, timer0 := false, timer1 := false, timer3 := false }
    wdts := 0x07#8
    wdtcnt := 0#15
    wdt1f := u.wdt1f
    wdt2f := u.wdt2f
    t0 := s.t0.afterReset u.t0
    t1 := s.t1.afterReset u.t1
    t3 := { u.t3 with ton := false }
    pa := { s.pa with latch := 0xFF#8, ctrl := 0xFF#8 }
    pb := { s.pb with latch := 0xFF#8, ctrl := 0xFF#8 }
    ram := u.ram }

/-- `ChipReset(kind)` with the unknown values from `u` (70_reset_and_hazards.md R503). -/
def State.chipReset (s : State) (kind : ResetKind) (u : Unknowns) : State :=
  let s1 := s.resetCommon u
  match kind with
  | .powerOn =>
    { s1 with
      fTO := false
      fPDF := false
      acc := u.acc
      mp0 := u.mp0
      mp1 := u.mp1
      tblp := u.tblp
      tbhp := u.tbhp
      tblh := u.tblh
      fC := u.fC
      fAC := u.fAC
      fZ := u.fZ
      fOV := u.fOV
      latch0 := u.latch0
      latch1 := u.latch1
      dac := false
      vromc := false
      latchc := false
      voiceB7 := false
      dal := u.dal
      dah := u.dah
      vol := u.vol
      latchd := u.latchd
      vromAge := 0
      vromRestart := false }
  | .resNormal => s1
  | .resHalt => { s1 with fTO := false, fPDF := true }
  | .wdtNormal => { s1 with fTO := true }

/-- A chip reset during a run: the unknown values are free (log 10). -/
def State.runReset (s : State) (kind : ResetKind) : State :=
  { s with draws := s.draws + unknownDraws }.chipReset kind (Unknowns.free s.draws)

/-- `WarmReset()` (70_reset_and_hazards.md R505). -/
def State.warmReset (s : State) : State :=
  { s with pc := 0x0000#13, stack := [], halted := false, fTO := true, wdtcnt := 0#15 }

end Sys2Proof.Machine
end

