-- ==== Sys2Proof/Machine/Devices.lean ====
section
/-! DEFINITION. The units that change state without an instruction naming them, and the environment's
events (60_exceptions.md R420 to R476). -/

namespace Sys2Proof.Machine

open Sys2Proof.Config

/-! ### Timer/Event Counter 0 and 1 -/

/-- `Count(n)`: one count, with overflow and reload (60_exceptions.md R432). -/
def State.count16 (s : State) (n : TimerId) : State :=
  let t := s.timer n
  if t.cnt = 0xFFFF#16 then (s.setTimer n { t with cnt := t.pre }).raiseRequest n.source
  else s.setTimer n { t with cnt := t.cnt + 1#16 }

/-- The internal clock counts: timer mode, or a pulse width measurement in progress
(60_exceptions.md R433). -/
def Timer16.runs (t : Timer16) : Bool := t.ton && (t.tm == 0b10#2 || (t.tm == 0b11#2 && t.pw))

/-- The instruction cycle that a read of TMRnH may block is over. -/
def State.unblock (s : State) (n : TimerId) : State := s.setTimer n { s.timer n with lose := false }

/-- `TimerTick(n)`, once an instruction cycle; a blocked count is lost (60_exceptions.md R433, R436). The
block ends here in every mode, so that it never takes the count of an external edge (log 13). -/
def State.timerTick (s : State) (n : TimerId) : State :=
  if (s.timer n).runs && !(s.timer n).lose then (s.count16 n).unblock n else s.unblock n

/-- `PulseEdge(n, rising, falling)` (60_exceptions.md R435). -/
def Timer16.pulseEdge (t : Timer16) (rising falling : Bool) : Timer16 :=
  if t.ton && t.tm == 0b11#2 then
    let start := (t.te && rising) || (!t.te && falling)
    let stop := (t.te && falling) || (!t.te && rising)
    if !t.pw && start then { t with pw := true }
    else if t.pw && stop then { t with pw := false, ton := false }
    else t
  else t

/-- An active edge of the external clock in event count mode (60_exceptions.md R434). -/
def Timer16.eventEdge (t : Timer16) (rising falling : Bool) : Bool :=
  t.ton && t.tm == 0b01#2 && ((!t.te && rising) || (t.te && falling))

/-- The TMRn input changes to level `v` (60_exceptions.md R434). DESIGN CHOICE: a read of TMRnH never
loses the count of an edge (20_memory.md R112, R436; 70_reset_and_hazards.md R516; log 13), and the
edge detector of pulse width measurement works in HALT too (R450, log 32). -/
def State.timerEdge (s : State) (n : TimerId) (v : Bool) : State :=
  let t := s.timer n
  let rising := !t.pin && v
  let falling := t.pin && !v
  let s1 := if t.eventEdge rising falling then s.count16 n else s
  s1.setTimer n { (s1.timer n).pulseEdge rising falling with pin := v }

/-! ### Timer Counter 3 -/

/-- One count of Timer Counter 3, with overflow and reload (60_exceptions.md R437). It happens in a device
pass, so never in HALT, and cannot wake the chip (R430, R437; log 33). -/
def State.count8 (s : State) : State :=
  if s.t3.cnt = 0xFF#8 then
    { s with t3 := { s.t3 with cnt := s.t3.pre } }.raiseRequest .timer3
  else { s with t3 := { s.t3 with cnt := s.t3.cnt + 1#8 } }

/-- `Timer3Tick()`, once an instruction cycle (60_exceptions.md R437). -/
def State.timer3Tick (s : State) : State :=
  if s.t3.ton && s.t3.tm == 0b10#2 then
    let ps := s.t3.ps + 1#8
    let s1 := { s with t3 := { s.t3 with ps := ps } }
    if ps.toNat % 2 ^ (s.t3.sel.toNat + 1) = 0 then s1.count8 else s1
  else s

/-! ### Watchdog -/

/-- RES goes low at the boundary that is coming up. A RES reset at a boundary goes before a WDT
time-out at the same boundary (60_exceptions.md R414, log 20). -/
def State.resComing (s : State) : Bool :=
  match s.env with
  | [] => false
  | slot :: _ => slot.contains .resLow

/-- `WdtTimeout()` (60_exceptions.md R441). -/
def State.wdtTimeout (s : State) : State :=
  if s.resComing then s
  else if s.halted then s.warmReset
  else s.runReset .wdtNormal

/-- `WdtTick()`, one WDT source clock (60_exceptions.md R440, R441). -/
def State.wdtTick (s : State) : State :=
  if s.opt.wdtEnable then
    let c := s.wdtcnt + 1#15
    let s1 := { s with wdtcnt := c }
    if c.toNat % 2 ^ (8 + s.wdts.toNat % 8) = 0 then s1.wdtTimeout else s1
  else s

/-- The watchdog is cleared, and TO and PDF with it (48_misc.md R303). -/
def State.clearWdt (s : State) : State := { s with wdtcnt := 0#15, fTO := false, fPDF := false }

/-! ### Voice ROM -/

/-- `vaddr`: the address bits of the selected latch that the part has (60_exceptions.md R470). -/
def State.vaddr (s : State) : Nat := (s.latch s.selected).toNat % 2 ^ s.opt.part.vromAddrBits

/-- The circuit delivers its byte; beyond the voice ROM the byte is unknown (60_exceptions.md R470). -/
def State.deliverVoice (s : State) : State :=
  if s.vaddr < s.opt.part.vromBytes then { s with latchd := s.vromRead s.vaddr }
  else { s.draw.2 with latchd := s.draw.1 }

/-- `VromTick()`, once an instruction cycle (60_exceptions.md R470). -/
def State.vromTick (s : State) : State :=
  if s.vromc && s.vromAge < s.opt.vromDelayCycles then
    let s1 := { s with vromAge := s.vromAge + 1 }
    if s1.vromAge = s1.opt.vromDelayCycles then s1.deliverVoice else s1
  else s

/-! ### The device step -/

/-- One pass of `DeviceStep`'s loop (60_exceptions.md R430). -/
def State.deviceCycle (s : State) : State :=
  let s1 := ((s.timerTick .t0).timerTick .t1).timer3Tick
  let s2 := if s1.opt.wdtClock = .t1 then s1.wdtTick else s1
  s2.vromTick

/-- `DeviceStep(n)` (60_exceptions.md R430). -/
def State.deviceStep : Nat → State → State
  | 0, s => s
  | n + 1, s => State.deviceStep n s.deviceCycle

/-- `VROM_age <- 0`, put off to the end of the device step (60_exceptions.md R470). -/
def State.restartVoice (s : State) : State :=
  if s.vromRestart then { s with vromAge := 0, vromRestart := false } else s

/-- What follows an instruction or an interrupt entry of `n` cycles: the device step, unless the chip
is in HALT (60_exceptions.md R430). -/
def State.settle (s : State) (n : Nat) : State :=
  if s.halted then s else (State.deviceStep n s).restartVoice

/-! ### HALT and the pins -/

/-- The pad levels of port A as sampled now (60_exceptions.md R451, R460). -/
def State.padsANow (s : State) : Byte := s.pa.levels s.opt.paPullHigh s.draw.1

/-- HALT: PDF, TO, the watchdog and the state of the wake-up detectors (48_misc.md R308). The port A
detector's reference is what the pads show now (log 19). -/
def State.enterHalt (s : State) : State :=
  { s.draw.2 with
    fPDF := true
    fTO := false
    wdtcnt := 0#15
    haltPre := s.request
    halted := true
    paPrev := s.padsANow }

/-- The INT pin changes to level `v` (60_exceptions.md R420). -/
def State.intEdge (s : State) (v : Bool) : State :=
  let active := (s.intPrev && !v) || (!s.intPrev && v && s.opt.intEdge == .fallingAndRising)
  let s1 := if active then s.raiseRequest .ext else s
  { s1 with intPrev := v }

/-- The environment drives port A anew; in HALT a falling edge on an enabled line wakes the chip
(60_exceptions.md R451). -/
def State.padsAEvent (s : State) (driven level : Byte) : State :=
  let s1 := { s with pa := { s.pa with driven := driven, level := level } }
  let fallen := s1.paPrev &&& ~~~s1.padsANow
  { s1.draw.2 with
    paPrev := s1.padsANow
    halted := s1.halted && (fallen &&& s1.opt.paWakeup) == 0#8 }

/-- One event of the environment (60_exceptions.md R430, R476). With the external timer option
disabled the TMRn inputs never change (R434); WDT oscillator ticks count only where the option
selects that clock (R441). -/
def State.applyEvent (s : State) : EnvEvent → State
  | .powerOn => s.runReset .powerOn
  | .resLow => if s.halted then s.runReset .resHalt else s.runReset .resNormal
  | .intPin v => s.intEdge v
  | .timerPin n v => if s.opt.extTimer then s.timerEdge n v else s
  | .padsA driven level => s.padsAEvent driven level
  | .padsB driven level => { s with pb := { s.pb with driven := driven, level := level } }
  | .wdtOscTick => if s.opt.wdtClock = .wdtOsc then s.wdtTick else s

end Sys2Proof.Machine
end

