-- ==== Sys2Proof/Machine/Misc.lean ====
section
/-! DEFINITION. The miscellaneous instructions (48_misc.md). -/

namespace Sys2Proof.Machine

/-- The clear form `times` has its effect: the watchdog is enabled and the mask option selects that
form (48_misc.md R299). -/
def State.clearActive (s : State) (times : Config.ClrWdtTimes) : Bool :=
  s.opt.wdtEnable && s.opt.clrWdtTimes == times

/-- NOP (48_misc.md R300). -/
def execNop (s : State) : Host.Outcome State Fault Refusal := s.done 1

/-- CLR [m] (48_misc.md R301). -/
def execClr (m : Byte) (s : State) : Host.Outcome State Fault Refusal :=
  s.storeOp .any (.clr m) 1 m 0x00#8 fun t => t

/-- SET [m] (48_misc.md R302). -/
def execSet (m : Byte) (s : State) : Host.Outcome State Fault Refusal :=
  s.storeOp .any (.set m) 1 m 0xFF#8 fun t => t

/-- CLR WDT (48_misc.md R303). -/
def execClrWdt (s : State) : Host.Outcome State Fault Refusal :=
  (if s.clearActive .one then s.clearWdt else s).done 1

/-- CLR WDT1: sets WDT1F, and completes the pair if WDT2F is set (48_misc.md R304). -/
def execClrWdt1 (s : State) : Host.Outcome State Fault Refusal :=
  (if s.clearActive .two then
      if s.wdt2f then { s.clearWdt with wdt1f := false, wdt2f := false }
      else { s with wdt1f := true }
    else s).done 1

/-- CLR WDT2: sets WDT2F, and completes the pair if WDT1F is set (48_misc.md R305). -/
def execClrWdt2 (s : State) : Host.Outcome State Fault Refusal :=
  (if s.clearActive .two then
      if s.wdt1f then { s.clearWdt with wdt1f := false, wdt2f := false }
      else { s with wdt2f := true }
    else s).done 1

/-- SWAP [m] (48_misc.md R306). -/
def execSwap (m : Byte) (s : State) : Host.Outcome State Fault Refusal :=
  s.modifyOp .any (.swap m) m (fun v _ => swapNibbles v) (fun _ t => t) (fun _ t => t)

/-- SWAPA [m] (48_misc.md R307). -/
def execSwapa (m : Byte) (s : State) : Host.Outcome State Fault Refusal :=
  s.loadOp m fun v t => { t with acc := swapNibbles v }

/-- HALT (48_misc.md R308). -/
def execHalt (s : State) : Host.Outcome State Fault Refusal := s.enterHalt.done 1

end Sys2Proof.Machine
end

