-- ==== Sys2Proof/Machine/Move.lean ====
section
/-! DEFINITION. The data move instructions (44_datamove.md). -/

namespace Sys2Proof.Machine

/-- MOV A,[m] (44_datamove.md R260). -/
def execMovAm (m : Byte) (s : State) : Host.Outcome State Fault Refusal :=
  s.loadOp m fun v t => { t with acc := v }

/-- MOV [m],A (44_datamove.md R261). -/
def execMovMa (m : Byte) (s : State) : Host.Outcome State Fault Refusal :=
  s.storeOp .any (.movMa m) 1 m s.acc fun t => t

/-- MOV A,x (44_datamove.md R262). -/
def execMovAx (x : Byte) (s : State) : Host.Outcome State Fault Refusal :=
  { s with acc := x }.done 1

end Sys2Proof.Machine
end

