-- ==== Sys2Proof/Machine/Rotate.lean ====
section
/-! DEFINITION. The rotate instructions (43_rotate.md). -/

namespace Sys2Proof.Machine

/-- RRA [m] (43_rotate.md R251). -/
def execRra (m : Byte) (s : State) : Host.Outcome State Fault Refusal :=
  s.loadOp m fun v t => { t with acc := rotRight v }

/-- RR [m] (43_rotate.md R252). -/
def execRr (m : Byte) (s : State) : Host.Outcome State Fault Refusal :=
  s.modifyOp .any (.rr m) m (fun v _ => rotRight v) (fun _ t => t) (fun _ t => t)

/-- RRCA [m] (43_rotate.md R253). -/
def execRrca (m : Byte) (s : State) : Host.Outcome State Fault Refusal :=
  s.loadOp m fun v t => { t.withC (v.getLsbD 0) with acc := rotRightC v t.fC }

/-- RRC [m] (43_rotate.md R254). -/
def execRrc (m : Byte) (s : State) : Host.Outcome State Fault Refusal :=
  s.modifyOp .notStatus (.rrc m) m (fun v t => rotRightC v t.fC)
    (fun v t => t.withC (v.getLsbD 0)) (fun _ t => t)

/-- RLA [m] (43_rotate.md R255). -/
def execRla (m : Byte) (s : State) : Host.Outcome State Fault Refusal :=
  s.loadOp m fun v t => { t with acc := rotLeft v }

/-- RL [m] (43_rotate.md R256). -/
def execRl (m : Byte) (s : State) : Host.Outcome State Fault Refusal :=
  s.modifyOp .any (.rl m) m (fun v _ => rotLeft v) (fun _ t => t) (fun _ t => t)

/-- RLCA [m] (43_rotate.md R257). -/
def execRlca (m : Byte) (s : State) : Host.Outcome State Fault Refusal :=
  s.loadOp m fun v t => { t.withC (v.getLsbD 7) with acc := rotLeftC v t.fC }

/-- RLC [m] (43_rotate.md R258). -/
def execRlc (m : Byte) (s : State) : Host.Outcome State Fault Refusal :=
  s.modifyOp .notStatus (.rlc m) m (fun v t => rotLeftC v t.fC)
    (fun v t => t.withC (v.getLsbD 7)) (fun _ t => t)

end Sys2Proof.Machine
end

