-- ==== Sys2Proof/Machine/Table.lean ====
section
/-! DEFINITION. The table read instructions (47_tableread.md). -/

namespace Sys2Proof.Machine

/-- `TableRead(m, a)`: the high byte goes to TBLH, then the low byte to `[m]` (47_tableread.md R290). -/
def State.tableRead (s : State) (i : Instr) (m : Byte) (a : PAddr) :
    Host.Outcome State Fault Refusal :=
  s.storeOp .any i 2 m ((s.romRead a).extractLsb' 0 8)
    fun t => { t with tblh := (s.romRead a).extractLsb' 8 8 }

/-- TABRDC [m] (47_tableread.md R291). -/
def execTabrdc (m : Byte) (s : State) : Host.Outcome State Fault Refusal :=
  s.tableRead (.tabrdc m) m (s.tbhp ++ s.tblp)

/-- TABRDL [m] (47_tableread.md R292). -/
def execTabrdl (m : Byte) (s : State) : Host.Outcome State Fault Refusal :=
  s.tableRead (.tabrdl m) m (0b11111#5 ++ s.tblp)

end Sys2Proof.Machine
end

