-- ==== Sys2Proof/Machine/Dispatch.lean ====
section
/-! DEFINITION. The meaning of each instruction, one arm a constructor. The state it is given already
has `pc` one past the instruction (10_state.md R22). -/

namespace Sys2Proof.Machine

def exec (i : Instr) (s : State) : Host.Outcome State Fault Refusal :=
  match i with
  | .addAm m => Sys2Proof.Machine.execAddAm m s
  | .addmAm m => Sys2Proof.Machine.execAddmAm m s
  | .addAx x => Sys2Proof.Machine.execAddAx x s
  | .adcAm m => Sys2Proof.Machine.execAdcAm m s
  | .adcmAm m => Sys2Proof.Machine.execAdcmAm m s
  | .subAx x => Sys2Proof.Machine.execSubAx x s
  | .subAm m => Sys2Proof.Machine.execSubAm m s
  | .submAm m => Sys2Proof.Machine.execSubmAm m s
  | .sbcAm m => Sys2Proof.Machine.execSbcAm m s
  | .sbcmAm m => Sys2Proof.Machine.execSbcmAm m s
  | .daa m => Sys2Proof.Machine.execDaa m s
  | .andAm m => Sys2Proof.Machine.execAndAm m s
  | .orAm m => Sys2Proof.Machine.execOrAm m s
  | .xorAm m => Sys2Proof.Machine.execXorAm m s
  | .andmAm m => Sys2Proof.Machine.execAndmAm m s
  | .ormAm m => Sys2Proof.Machine.execOrmAm m s
  | .xormAm m => Sys2Proof.Machine.execXormAm m s
  | .andAx x => Sys2Proof.Machine.execAndAx x s
  | .orAx x => Sys2Proof.Machine.execOrAx x s
  | .xorAx x => Sys2Proof.Machine.execXorAx x s
  | .cpl m => Sys2Proof.Machine.execCpl m s
  | .cpla m => Sys2Proof.Machine.execCpla m s
  | .inca m => Sys2Proof.Machine.execInca m s
  | .inc m => Sys2Proof.Machine.execInc m s
  | .deca m => Sys2Proof.Machine.execDeca m s
  | .dec m => Sys2Proof.Machine.execDec m s
  | .rra m => Sys2Proof.Machine.execRra m s
  | .rr m => Sys2Proof.Machine.execRr m s
  | .rrca m => Sys2Proof.Machine.execRrca m s
  | .rrc m => Sys2Proof.Machine.execRrc m s
  | .rla m => Sys2Proof.Machine.execRla m s
  | .rl m => Sys2Proof.Machine.execRl m s
  | .rlca m => Sys2Proof.Machine.execRlca m s
  | .rlc m => Sys2Proof.Machine.execRlc m s
  | .movAm m => Sys2Proof.Machine.execMovAm m s
  | .movMa m => Sys2Proof.Machine.execMovMa m s
  | .movAx x => Sys2Proof.Machine.execMovAx x s
  | .clrBit m k => Sys2Proof.Machine.execClrBit m k s
  | .setBit m k => Sys2Proof.Machine.execSetBit m k s
  | .jmp addr => Sys2Proof.Machine.execJmp addr s
  | .sz m => Sys2Proof.Machine.execSz m s
  | .sza m => Sys2Proof.Machine.execSza m s
  | .szBit m k => Sys2Proof.Machine.execSzBit m k s
  | .snzBit m k => Sys2Proof.Machine.execSnzBit m k s
  | .siz m => Sys2Proof.Machine.execSiz m s
  | .sdz m => Sys2Proof.Machine.execSdz m s
  | .siza m => Sys2Proof.Machine.execSiza m s
  | .sdza m => Sys2Proof.Machine.execSdza m s
  | .call addr => Sys2Proof.Machine.execCall addr s
  | .ret => Sys2Proof.Machine.execRet s
  | .retAx x => Sys2Proof.Machine.execRetAx x s
  | .reti => Sys2Proof.Machine.execReti s
  | .tabrdc m => Sys2Proof.Machine.execTabrdc m s
  | .tabrdl m => Sys2Proof.Machine.execTabrdl m s
  | .nop => Sys2Proof.Machine.execNop s
  | .clr m => Sys2Proof.Machine.execClr m s
  | .set m => Sys2Proof.Machine.execSet m s
  | .clrWdt => Sys2Proof.Machine.execClrWdt s
  | .clrWdt1 => Sys2Proof.Machine.execClrWdt1 s
  | .clrWdt2 => Sys2Proof.Machine.execClrWdt2 s
  | .swap m => Sys2Proof.Machine.execSwap m s
  | .swapa m => Sys2Proof.Machine.execSwapa m s
  | .halt => Sys2Proof.Machine.execHalt s

end Sys2Proof.Machine
end

