-- ==== Sys2Proof/Machine/Boundary.lean ====
section
/-! DEFINITION. What happens at an instruction boundary (60_exceptions.md R411, R430): an event of the
environment, an interrupt entry, or the instruction at `pc`. The decoder is an argument, as 00_scope.md
R12 asks. -/

namespace Sys2Proof.Machine

/-- The word the next instruction is fetched from (20_memory.md R101). -/
def State.fetch (s : State) : RomWord := s.romRead s.pc

/-- `pc` is incremented by the fetch (10_state.md R22). -/
def State.fetched (s : State) : State := { s with pc := s.pc + 1#13 }

/-- Fetch, decode and execute, then the device step of the cycles taken (60_exceptions.md R430). -/
def State.runInstr (decoder : RomWord → Except DecodeError Instr) (s : State) :
    Host.Outcome State Fault Refusal :=
  match decoder s.fetch with
  | .error _ => .fault (.illegalInstruction s.pc s.fetch)
  | .ok i =>
    match exec i s.fetched with
    | .next t => .next (t.settle (t.cycles - s.cycles))
    | .fault e => .fault e
    | .refused r => .refused r

/-- Take an interrupt, and the device step of its entry (60_exceptions.md R412, R430). -/
def State.takeInterrupt (s : State) (src : IrqSource) : State :=
  (s.interruptEntry src).settle s.opt.intEntryCycles

/-- The CPU's part of a boundary: nothing in HALT, else an accepted interrupt, else the instruction at
`pc` (60_exceptions.md R411, R450). -/
def State.cpuStep (decoder : RomWord → Except DecodeError Instr) (s : State) :
    Host.Outcome State Fault Refusal :=
  if s.halted then .next s
  else
    match s.accepted with
    | some src => .next (s.takeInterrupt src)
    | none => s.runInstr decoder

/-- One step: the next event of this boundary if one is left, else the CPU's part of it
(60_exceptions.md R414, R430; log 2). -/
def State.boundaryStep (decoder : RomWord → Except DecodeError Instr) (s : State) :
    Host.Outcome State Fault Refusal :=
  match s.env with
  | [] => s.cpuStep decoder
  | [] :: later => State.cpuStep decoder { s with env := later }
  | (e :: slot) :: later => .next (State.applyEvent { s with env := slot :: later } e)

/-- Store a word where the next instruction is fetched. -/
def State.placeWord (s : State) (w : RomWord) : State :=
  { s with rom := Memory.write romDefault s.rom s.pc.toNat w }

end Sys2Proof.Machine
end

