-- ==== Sys2Proof/Machine/Step.lean ====
section
/-! DEFINITION. One step of the machine, with the spec-assigned decoder. -/

namespace Sys2Proof.Machine

/-- One step of the machine: one event of the environment, one interrupt entry or one instruction. -/
def step (s : State) : Host.Outcome State Fault Refusal := s.boundaryStep decode

/-- The state with a table row's word where the next instruction is fetched. It stands for the mask
programming of the ROM (log 4). -/
def State.withFetchWord (s : State) (nbits w : Nat) : State :=
  s.placeWord (BitVec.ofNat 16 (w % 2 ^ nbits))

end Sys2Proof.Machine
end

