-- ==== Sys2Proof/Machine/Observe.lean ====
section
/-! DEFINITION. What the environment can observe (60_exceptions.md R476): the driven port pads, the AUD
observable and the clock output. -/

namespace Sys2Proof.Machine

open Sys2Proof.Config

/-- The lines of a port the chip drives, and the levels it drives there (60_exceptions.md R460). -/
def Port.drives (p : Port) : Byte × Byte := (~~~p.ctrl, ~~~p.ctrl &&& p.latch)

/-- `DA[11:0] = DAH[7:0] : DAL[7:4]` (10_state.md R42, 60_exceptions.md R466). -/
def State.da (s : State) : BitVec 12 := s.dah ++ s.dal

/-- The AUD observable: `VOICEC.DAC`, `DA`, `VOL[7:5]` (60_exceptions.md R466). -/
def State.aud (s : State) : Bool × BitVec 12 × BitVec 3 := (s.dac, s.da, s.vol)

/-- The frequency on OSC2 in kHz: `F_SYS`/4 in RC mode, while the system oscillator runs
(60_exceptions.md R450, R475). -/
def State.osc2KHz (s : State) : Option Nat :=
  match s.opt.osc with
  | .rc => if s.halted then none else some (s.opt.fSysKHz / 4)
  | .crystal => none

end Sys2Proof.Machine
end

