-- ==== Sys2Proof/Safety.lean ====
section
/-! DEFINITION. What counts as a good state and a safe step, in the words claims are stated in. -/

namespace Sys2Proof.Machine

open Sys2Proof.Config

/-- A timer 0 or 1 is not running in the mode the source calls "Unused" (60_exceptions.md R433), and
no block of TMRnH reaches past its instruction (60_exceptions.md R436). -/
def Timer16.legal (t : Timer16) : Bool := (!t.ton || t.tm != 0b00#2) && !t.lose

/-- Timer Counter 3 runs in timer mode only (60_exceptions.md R437). -/
def Timer8.legal (t : Timer8) : Bool := !t.ton || t.tm == 0b10#2

/-- The invariant of the machine at an instruction boundary: at most eight stacked addresses
(10_state.md R26), canonical memories inside their address ranges (20_memory.md R100), VOICEC bit 7
zero (20_memory.md R118), no timer on in an unused mode, and nothing left over from an instruction.
That VROM_age (60_exceptions.md R470) is at most the delay is the model's choice (log 15, DEDUCED). -/
structure State.Inv (s : State) : Prop where
  depth : s.depth ≤ 8
  ram : Memory.wf ramDefault 0x30 0x100 s.ram = true
  rom : Memory.wf romDefault 0 0x2000 s.rom = true
  vrom : Memory.wf vromDefault 0 s.opt.part.vromBytes s.vrom = true
  voiceB7 : s.voiceB7 = false
  t0 : s.t0.legal = true
  t1 : s.t1.legal = true
  t3 : s.t3.legal = true
  vromAge : s.vromAge ≤ s.opt.vromDelayCycles
  vromRestart : s.vromRestart = false

/-- What is fixed when the chip is made is the same in both states (60_exceptions.md R476). -/
def State.sameChip (s t : State) : Prop := t.rom = s.rom ∧ t.vrom = s.vrom ∧ t.opt = s.opt

/-- The next step does not stop: no model fault is raised (60_exceptions.md R401). -/
def State.goesOn (s : State) : Prop := ∃ t, step s = .next t

/-- The data addresses at which no location exists (20_memory.md R123). -/
def unusedAddresses : List Byte :=
  [0x04#8, 0x16#8, 0x17#8, 0x20#8, 0x21#8, 0x22#8, 0x23#8, 0x2B#8, 0x2C#8, 0x2D#8, 0x2E#8, 0x2F#8]

/-- The address an operand `m` leads to: `m` itself, or what the pointer of a window holds
(20_memory.md R104). -/
def State.effective (s : State) (m : Byte) : Byte :=
  if m = 0x00#8 then s.mp0 else if m = 0x02#8 then s.mp1 else m

/-- A location may be written `v`: no timer is switched on in an unused mode and VOICEC bit 7 is not
set (20_memory.md R118, 60_exceptions.md R433, R437). That the mode is bits 7 and 6 in this order is
log 28 (PRESUMED). -/
def Loc.accepts (l : Loc) (v : Byte) : Prop :=
  (∀ n, l = .tmrC n → v.getLsbD 4 = true → v.extractLsb' 6 2 ≠ 0b00#2) ∧
  (l = .tmr3c → v.getLsbD 4 = true → v.extractLsb' 6 2 = 0b10#2) ∧
  (l = .voicec → v.getLsbD 7 = false)

/-- The fault of instruction `i` at `here` that writes a value the location does not accept: the
control bit of VOICEC by its number, a timer control register by its address (60_exceptions.md R401). -/
def Loc.refusal (l : Loc) (here : PAddr) (i : Instr) : Fault :=
  if l = .voicec then .undocumentedBit here 0x26#8 7 else .unpredictable here i l.addr

/-- No event is left at this boundary. -/
def State.quiet (s : State) : Prop := ∀ slot later, s.env = slot :: later → slot = []

/-- The state after this boundary's list of events is used up. -/
def State.pastEvents (s : State) : State := { s with env := s.env.tail }

/-! ### Words for the statements -/

/-- What reading an operand may change: the count of drawn free values, and of a 16-bit timer the low
byte buffer and the blocked count (20_memory.md R107, R112). Everything else is as before. -/
def State.afterRead (s t : State) : Prop :=
  t = { s with
    draws := t.draws
    t0 := { s.t0 with buf := t.t0.buf, lose := t.t0.lose }
    t1 := { s.t1 with buf := t.t1.buf, lose := t.t1.lose } }

/-- General RAM after a store of `v` to location `l`: the byte stored to if `l` is a RAM byte, every
other byte as before (20_memory.md R108). -/
def State.storedRam (s t : State) (l : Loc) (v : Byte) : Prop :=
  ∀ a, t.ramRead a = if l = .ram a then v else s.ramRead a

/-- C, AC, OV and Z after the addition `a + b + c`, in whole numbers (10_state.md R24). -/
def State.withSum (s : State) (a b : Byte) (c : Bool) : State :=
  { s with
    fC := decide (256 ≤ a.toNat + b.toNat + c.toNat)
    fAC := decide (16 ≤ a.toNat % 16 + b.toNat % 16 + c.toNat)
    fOV := decide (a.toInt + b.toInt + c.toNat < -128 ∨ 127 < a.toInt + b.toInt + c.toNat)
    fZ := decide ((a.toNat + b.toNat + c.toNat) % 256 = 0) }

/-- C, AC, OV and Z after the subtraction `a - b - borrow`, in whole numbers: C and AC are 1 where no
borrow takes place (10_state.md R24). -/
def State.withDifference (s : State) (a b : Byte) (borrow : Bool) : State :=
  { s with
    fC := decide (b.toNat + borrow.toNat ≤ a.toNat)
    fAC := decide (b.toNat % 16 + borrow.toNat ≤ a.toNat % 16)
    fOV := decide (a.toInt - b.toInt - borrow.toNat < -128 ∨
      127 < a.toInt - b.toInt - borrow.toNat)
    fZ := decide (((a.toNat : Int) - b.toNat - borrow.toNat) % 256 = 0) }

/-- The data memory operand of an instruction, if it has one (30_encoding.md R143). -/
def operandOf : Instr → Option Byte
  | .addAm m | .addmAm m | .adcAm m | .adcmAm m | .subAm m | .submAm m | .sbcAm m | .sbcmAm m
  | .daa m | .andAm m | .orAm m | .xorAm m | .andmAm m | .ormAm m | .xormAm m | .cpl m | .cpla m
  | .inca m | .inc m | .deca m | .dec m | .rra m | .rr m | .rrca m | .rrc m | .rla m | .rl m
  | .rlca m | .rlc m | .movAm m | .movMa m | .clrBit m _ | .setBit m _ | .sz m | .sza m
  | .szBit m _ | .snzBit m _ | .siz m | .sdz m | .siza m | .sdza m | .tabrdc m | .tabrdl m
  | .clr m | .set m | .swap m | .swapa m => some m
  | .addAx _ | .subAx _ | .andAx _ | .orAx _ | .xorAx _ | .movAx _ | .jmp _ | .call _ | .ret
  | .retAx _ | .reti | .nop | .clrWdt | .clrWdt1 | .clrWdt2 | .halt => none

/-- The instructions that write flags computed from their result and have a memory destination
(30_encoding.md R150). -/
def flagsToMemory : Instr → Option Byte
  | .addmAm m | .adcmAm m | .submAm m | .sbcmAm m | .daa m | .andmAm m | .ormAm m | .xormAm m
  | .cpl m | .inc m | .dec m | .rrc m | .rlc m => some m
  | .addAm _ | .addAx _ | .adcAm _ | .subAx _ | .subAm _ | .sbcAm _ | .andAm _ | .orAm _
  | .xorAm _ | .andAx _ | .orAx _ | .xorAx _ | .cpla _ | .inca _ | .deca _ | .rra _ | .rr _
  | .rrca _ | .rla _ | .rl _ | .rlca _ | .movAm _ | .movMa _ | .movAx _ | .clrBit _ _
  | .setBit _ _ | .jmp _ | .sz _ | .sza _ | .szBit _ _ | .snzBit _ _ | .siz _ | .sdz _ | .siza _
  | .sdza _ | .call _ | .ret | .retAx _ | .reti | .tabrdc _ | .tabrdl _ | .nop | .clr _ | .set _
  | .clrWdt | .clrWdt1 | .clrWdt2 | .swap _ | .swapa _ | .halt => none

/-- The destination operand of an instruction that writes data memory, and the byte it writes there in
state `s` if it read `v` there: sums, differences and rotations in whole numbers (40_arithmetic.md to
48_misc.md). None for the instructions that write no data memory. -/
def State.written (s : State) (v : Byte) : Instr → Option (Byte × Byte)
  | .addmAm m => some (m, BitVec.ofNat 8 (s.acc.toNat + v.toNat))
  | .adcmAm m => some (m, BitVec.ofNat 8 (s.acc.toNat + v.toNat + s.fC.toNat))
  | .submAm m => some (m, s.acc - v)
  | .sbcmAm m => some (m, s.acc - v - BitVec.ofNat 8 (!s.fC).toNat)
  | .daa m => some (m, (daaResult s.acc s.fAC s.fC).1)
  | .andmAm m => some (m, s.acc &&& v)
  | .ormAm m => some (m, s.acc ||| v)
  | .xormAm m => some (m, s.acc ^^^ v)
  | .cpl m => some (m, BitVec.ofNat 8 (255 - v.toNat))
  | .inc m | .siz m => some (m, BitVec.ofNat 8 (v.toNat + 1))
  | .dec m | .sdz m => some (m, BitVec.ofNat 8 (v.toNat + 255))
  | .rr m => some (m, BitVec.ofNat 8 (v.toNat / 2 + 128 * (v.toNat % 2)))
  | .rrc m => some (m, BitVec.ofNat 8 (v.toNat / 2 + 128 * s.fC.toNat))
  | .rl m => some (m, BitVec.ofNat 8 (2 * v.toNat + v.toNat / 128))
  | .rlc m => some (m, BitVec.ofNat 8 (2 * v.toNat + s.fC.toNat))
  | .movMa m => some (m, s.acc)
  | .clrBit m i => some (m, v &&& ~~~BitVec.ofNat 8 (2 ^ i))
  | .setBit m i => some (m, v ||| BitVec.ofNat 8 (2 ^ i))
  | .tabrdc m =>
    some (m, BitVec.ofNat 8 (s.romRead (BitVec.ofNat 13 (s.tbhp.toNat * 256 + s.tblp.toNat))).toNat)
  | .tabrdl m => some (m, BitVec.ofNat 8 (s.romRead (BitVec.ofNat 13 (0x1F00 + s.tblp.toNat))).toNat)
  | .clr m => some (m, 0x00#8)
  | .set m => some (m, 0xFF#8)
  | .swap m => some (m, BitVec.ofNat 8 (v.toNat % 16 * 16 + v.toNat / 16))
  | .addAm _ | .addAx _ | .adcAm _ | .subAx _ | .subAm _ | .sbcAm _ | .andAm _ | .orAm _
  | .xorAm _ | .andAx _ | .orAx _ | .xorAx _ | .cpla _ | .inca _ | .deca _ | .rra _ | .rrca _
  | .rla _ | .rlca _ | .movAm _ | .movAx _ | .jmp _ | .sz _ | .sza _ | .szBit _ _ | .snzBit _ _
  | .siza _ | .sdza _ | .call _ | .ret | .retAx _ | .reti | .nop | .clrWdt | .clrWdt1 | .clrWdt2
  | .swapa _ | .halt => none

/-- Run instructions one after the other, each fetched at the `pc` the one before it leaves
(10_state.md R22): the `pc` after each of them in order, and the last state; none where one stops. -/
def State.trail : List Instr → State → Option (List PAddr × State)
  | [], s => some ([], s)
  | i :: is, s =>
    match exec i s.fetched with
    | .next t => (State.trail is t).map fun r => (t.pc :: r.1, r.2)
    | .fault _ => none
    | .refused _ => none

/-- The next instruction is fetched at this boundary: the chip is not in HALT, no event is left and
no interrupt is accepted (60_exceptions.md R411, R450). -/
structure State.runsNext (s : State) : Prop where
  quiet : s.quiet
  awake : s.halted = false
  free : s.accepted = none

/-! ### The three forms of an instruction with a data memory operand

Each says: which word the instruction is, that an operand without a location is the instruction's
fault, and what the next state is. -/

/-- Instruction `i`, the word `code`, reads `[m]` and does not write it: `f v t` is the next state,
from the byte `v` read and the state `t` after the read (20_memory.md R104). -/
def readForm (code : RomWord) (i : Instr) (m : Byte) (s : State) (f : Byte → State → State) : Prop :=
  decode code = .ok i ∧
  (∀ e, s.memRead m = .error e → exec i s = .fault e) ∧
  ∀ v t, s.memRead m = .ok (v, t) → s.afterRead t ∧ exec i s = .next (f v t)

/-- Instruction `i`, the word `code`, writes `w` to `[m]` without reading it, in `n` cycles and one
more to PCL; `pre` is what it changes besides (20_memory.md R106, R109). -/
def storeForm (code : RomWord) (i : Instr) (m : Byte) (s : State) (n : Nat) (w : Byte)
    (pre : State → State) : Prop :=
  decode code = .ok i ∧
  (∀ e, s.resolve m = .error e → exec i s = .fault e) ∧
  ∀ l, s.resolve m = .ok l → l.accepts w →
    ∃ t, exec i s = .next t ∧
      t = { (pre s).writeLoc w l with cycles := s.cycles + n + if l = .pcl then 1 else 0 } ∧
      (Memory.wf ramDefault 0x30 0x100 s.ram = true → s.storedRam t l w)

/-- Instruction `i`, the word `code`, reads the byte `v` of `[m]` and writes `w v t` back to the same
location, in one cycle and one more to PCL; `g v t` is what it changes besides, before the write, and
`post` what it changes after it. Nothing is said of location `except` (20_memory.md R126, R109). -/
def modifyForm (code : RomWord) (i : Instr) (m : Byte) (s : State) (except : Option Loc)
    (w : Byte → State → Byte) (g post : Byte → State → State) : Prop :=
  decode code = .ok i ∧
  (∀ e, s.resolve m = .error e → exec i s = .fault e) ∧
  ∀ l v s1, s.resolve m = .ok l → s.readLoc l = (v, s1) → some l ≠ except →
    l.accepts (w v s1) →
    s.afterRead s1 ∧
    ∃ t, exec i s = .next t ∧
      t = post (w v s1) { (g v s1).writeLoc (w v s1) l with
        cycles := s.cycles + if l = .pcl then 2 else 1 } ∧
      (Memory.wf ramDefault 0x30 0x100 s.ram = true → s.storedRam t l (w v s1))

/-- The next instruction is passed over, for one more cycle (46_branch.md R270). -/
def State.passOver (s : State) : State := { s with pc := s.pc + 1#13, cycles := s.cycles + 1 }

end Sys2Proof.Machine
end

