-- ==== Sys2Proof/Certificates/Slice0/Obligations.lean ====
section
/-! DEFINITION. The statements for the provers, each with the rules of spec/ it formalises. The words
they use (`readForm`, `modifyForm`, `storeForm`, `withSum`, ...) are Safety.lean's. -/

open Sys2Proof Sys2Proof.Machine Sys2Proof.Config

/-! ### Encoding (30_encoding.md) -/

/-- Decoding the word of a well-formed instruction gives the instruction back (R142 to R144). -/
def Obligations.DecodeOfEncode : Prop := ∀ i : Instr, i.wf = true → decode (encode i) = .ok i

/-- Every word that decodes is the word of the instruction it decodes to, and that instruction is well
formed: each word has one meaning (R142 to R144). -/
def Obligations.EncodeOfDecode : Prop :=
  ∀ (w : RomWord) (i : Instr), decode w = .ok i → encode i = w ∧ i.wf = true

/-- The words that decode to nothing are those of R145, and fetching one for execution stops with
IllegalInstruction and the word. That it stops is the spec's decision D2. -/
def Obligations.UnassignedWordsStop : Prop :=
  (∀ w : RomWord, (∀ i, decode w ≠ .ok i) ↔
    (0x0007 ≤ w.toNat ∧ w.toNat ≤ 0x00FF) ∨ (0x2C00 ≤ w.toNat ∧ w.toNat ≤ 0x3FFF) ∨
    (0x4700 ≤ w.toNat ∧ w.toNat ≤ 0x7FFF) ∨ (0xA000 ≤ w.toNat ∧ w.toNat ≤ 0xBFFF)) ∧
  ∀ s : State, s.runsNext → (∀ i, decode (s.romRead s.pc) ≠ .ok i) →
    step s = .fault (.illegalInstruction s.pc (s.romRead s.pc))

/-- Words written out from the table of R143 decode to their instructions. -/
def Obligations.SampleWordsDecode : Prop :=
  decode 0x0000#16 = .ok .nop ∧ decode 0x0004#16 = .ok .halt ∧ decode 0x0006#16 = .ok .reti ∧
  decode 0x0140#16 = .ok (.addAm 0x40#8) ∧ decode 0x0940#16 = .ok (.daa 0x40#8) ∧
  decode 0x1F1A#16 = .ok (.movMa 0x1A#8) ∧ decode 0x2BFF#16 = .ok (.swapa 0xFF#8) ∧
  decode 0x4507#16 = .ok (.movAx 0x07#8) ∧ decode 0x465A#16 = .ok (.retAx 0x5A#8) ∧
  decode 0x8226#16 = .ok (.setBit 0x26#8 2) ∧ decode 0x8C26#16 = .ok (.clrBit 0x26#8 4) ∧
  decode 0x970A#16 = .ok (.szBit 0x0A#8 7) ∧ decode 0x980A#16 = .ok (.snzBit 0x0A#8 0) ∧
  decode 0xC020#16 = .ok (.jmp 0x0020#13) ∧ decode 0xFFFF#16 = .ok (.call 0x1FFF#13)

/-! ### One step (60_exceptions.md R411, R430) -/

/-- A step at a boundary with no event left, no HALT and no accepted interrupt runs the instruction the
fetched word decodes to: `exec` sees `pc` one past the word (10_state.md R22); after it the devices
run its cycles, unless it was HALT (R430). The device step of n cycles is n passes of: timer 0, timer
1, timer 3, the watchdog exactly when its clock is T1, the voice ROM circuit. The boundary's empty list
of events is used up; where an event is left, the step is that event's alone (R476, log 2). -/
def Obligations.StepRunsDecoded : Prop :=
  (∀ (s : State) (i : Instr), s.runsNext → decode (s.romRead s.pc) = .ok i →
    step s =
      match exec i { s.pastEvents with pc := s.pc + 1#13 } with
      | .next t => .next (if t.halted then t else
          (State.deviceStep (t.cycles - s.cycles) t).restartVoice)
      | .fault e => .fault e
      | .refused r => .refused r) ∧
  (∀ (n : Nat) (s : State), State.deviceStep n s = State.deviceCycle^[n] s) ∧
  (∀ s : State,
    let timers := ((s.timerTick .t0).timerTick .t1).timer3Tick
    (s.opt.wdtClock = .t1 → s.deviceCycle = timers.wdtTick.vromTick) ∧
    (s.opt.wdtClock = .wdtOsc → s.deviceCycle = timers.vromTick)) ∧
  ∀ (s : State) (e : EnvEvent) (slot : List EnvEvent) (later : List (List EnvEvent)),
    s.env = (e :: slot) :: later → step s = .next (State.applyEvent { s with env := slot :: later } e)

/-! ### The data memory operand (20_memory.md) -/

/-- Every instruction with a data memory operand that leads to no location faults with UnusedAddress and
that address; every other operand can be read. That the access faults is the spec's decision D6
(R104, R106, R123). -/
def Obligations.OperandLocations : Prop :=
  (∀ (i : Instr) (m : Byte) (s : State), operandOf i = some m → s.effective m ∈ unusedAddresses →
    exec i s = .fault (.unusedAddress s.here (s.effective m))) ∧
  ∀ (m : Byte) (s : State), s.effective m ∉ unusedAddresses →
    ∃ l, s.resolve m = .ok l ∧ s.memRead m = .ok (s.readLoc l)

/-- Indirection is one level deep: a window whose pointer holds 00H or 02H reads 00H and drops a
write; any other pointer value names its own location; reading leaves the pointer (R105). -/
def Obligations.Indirection : Prop :=
  ∀ (s : State) (m p : Byte), (m = 0x00#8 ∧ p = s.mp0) ∨ (m = 0x02#8 ∧ p = s.mp1) →
    ((p = 0x00#8 ∨ p = 0x02#8) →
      exec (.movAm m) s = .next { s with acc := 0x00#8, cycles := s.cycles + 1 } ∧
      exec (.movMa m) s = .next { s with cycles := s.cycles + 1 }) ∧
    (p ≠ 0x00#8 → p ≠ 0x02#8 →
      s.resolve m = s.resolve p ∧ s.memRead m = s.memRead p ∧
      exec (.movAm m) s = exec (.movAm p) s ∧
      ∀ v t, s.memRead m = .ok (v, t) → t.mp0 = s.mp0 ∧ t.mp1 = s.mp1)

/-- What MOV A,[m] puts in ACC for each location with a value of its own, bit by bit where the spec
composes a byte (R107, with R112, R116, R121 and 60_exceptions.md R470 for the rows that refer to
them). ACC and the count of cycles change and nothing else, but that a register with open bits draws one
free value, and that TMRnH latches the low byte of timer n and may block its count while it runs (log
13). Bits the spec leaves open are not mentioned (log 11, 12). At 0EH, 11H and 25H that TM1 is bit 7
and TM0 bit 6 is the model's (log 28, PRESUMED; G2); that TMR3L, 24H, reads the counter is the spec's
decision D14. -/
def Obligations.RegisterReads : Prop :=
  ∀ s : State,
    let reads (m v : Byte) := exec (.movAm m) s = .next { s with acc := v, cycles := s.cycles + 1 }
    let shows (m : Byte) (p : Byte → Prop) := ∃ v, reads m v ∧ p v
    let floats (m : Byte) (p : Byte → Prop) := ∃ v,
      exec (.movAm m) s = .next { s with acc := v, draws := s.draws + 1, cycles := s.cycles + 1 } ∧
      p v
    reads 0x01#8 s.mp0 ∧ reads 0x03#8 s.mp1 ∧ reads 0x05#8 s.acc ∧
    reads 0x06#8 (BitVec.ofNat 8 s.pc.toNat) ∧ reads 0x07#8 s.tblp ∧ reads 0x08#8 s.tblh ∧
    reads 0x09#8 s.wdts ∧
    shows 0x0A#8 (fun v => (List.range 8).map v.getLsbD =
      [s.fC, s.fAC, s.fZ, s.fOV, s.fPDF, s.fTO, false, false]) ∧
    shows 0x0B#8 (fun v => (List.range 8).map v.getLsbD =
      [s.emi, s.enable.ext, s.enable.timer0, s.enable.timer1,
        s.request.ext, s.request.timer0, s.request.timer1, false]) ∧
    (∃ lose, exec (.movAm 0x0C#8) s = .next { s with
        acc := BitVec.ofNat 8 (s.t0.cnt.toNat / 256)
        t0 := { s.t0 with buf := BitVec.ofNat 8 s.t0.cnt.toNat, lose := lose }
        draws := s.draws + 1
        cycles := s.cycles + 1 } ∧ (s.t0.ton = false → lose = false)) ∧
    reads 0x0D#8 s.t0.buf ∧
    shows 0x0E#8 (fun v => (List.range 8).map v.getLsbD =
      [false, false, false, s.t0.te, s.t0.ton, false, s.t0.tm.getLsbD 0, s.t0.tm.getLsbD 1]) ∧
    (∃ lose, exec (.movAm 0x0F#8) s = .next { s with
        acc := BitVec.ofNat 8 (s.t1.cnt.toNat / 256)
        t1 := { s.t1 with buf := BitVec.ofNat 8 s.t1.cnt.toNat, lose := lose }
        draws := s.draws + 1
        cycles := s.cycles + 1 } ∧ (s.t1.ton = false → lose = false)) ∧
    reads 0x10#8 s.t1.buf ∧
    shows 0x11#8 (fun v => (List.range 8).map v.getLsbD =
      [false, false, false, s.t1.te, s.t1.ton, false, s.t1.tm.getLsbD 0, s.t1.tm.getLsbD 1]) ∧
    reads 0x13#8 s.pa.ctrl ∧ reads 0x15#8 s.pb.ctrl ∧
    floats 0x18#8 (fun v => v.getLsbD 0 = s.latch0.getLsbD 16 ∧
      (s.opt.part = .ht86070 → v.getLsbD 1 = s.latch0.getLsbD 17)) ∧
    reads 0x19#8 (BitVec.ofNat 8 (s.latch0.toNat / 256)) ∧
    reads 0x1A#8 (BitVec.ofNat 8 s.latch0.toNat) ∧
    floats 0x1B#8 (fun v => v.getLsbD 0 = s.latch1.getLsbD 16 ∧
      (s.opt.part = .ht86070 → v.getLsbD 1 = s.latch1.getLsbD 17)) ∧
    reads 0x1C#8 (BitVec.ofNat 8 (s.latch1.toNat / 256)) ∧
    reads 0x1D#8 (BitVec.ofNat 8 s.latch1.toNat) ∧
    shows 0x1E#8 (fun v => (List.range 8).map v.getLsbD =
      [false, s.enable.timer3, false, false, false, s.request.timer3, false, false]) ∧
    floats 0x1F#8 (fun v => v.toNat % 32 = s.tbhp.toNat) ∧
    reads 0x24#8 s.t3.cnt ∧
    shows 0x25#8 (fun v => (List.range 8).map v.getLsbD =
      [s.t3.sel.getLsbD 0, s.t3.sel.getLsbD 1, s.t3.sel.getLsbD 2, s.t3.te, s.t3.ton, false,
        s.t3.tm.getLsbD 0, s.t3.tm.getLsbD 1]) ∧
    shows 0x26#8 (fun v => (List.range 8).map v.getLsbD =
      [false, s.dac, s.vromc, false, s.latchc, false, false, s.voiceB7]) ∧
    reads 0x27#8 (BitVec.ofNat 8 (s.dal.toNat * 16)) ∧ reads 0x28#8 s.dah ∧
    floats 0x29#8 (fun v => v.toNat / 32 = s.vol.toNat ∧ v.toNat % 16 = 0) ∧
    ((s.vromc = true ∧ s.opt.vromDelayCycles ≤ s.vromAge) → reads 0x2A#8 s.latchd) ∧
    (¬(s.vromc = true ∧ s.opt.vromDelayCycles ≤ s.vromAge) → floats 0x2A#8 (fun _ => True)) ∧
    ∀ a : Byte, 0x30 ≤ a.toNat → reads a (s.ramRead a)

/-- A read of a port gives, line by line, the latch of an output line and the pad of an input line; an
input line nobody drives is 1 where the pull-high option is on (R116, 60_exceptions.md R460). Nothing
is said of a floating line (log 18); the read changes nothing else but the count of free values. The
environment's event for port B puts its drive on the pads and
changes nothing else (R476, log 2). -/
def Obligations.PortReads : Prop :=
  (∀ (s : State) (driven level : Byte) (slot : List EnvEvent) (later : List (List EnvEvent)),
    s.env = (.padsB driven level :: slot) :: later →
      step s = .next { s with
        env := slot :: later, pb := { s.pb with driven := driven, level := level } }) ∧
  ∀ (s : State) (k : Nat), k < 8 →
    let reads (m v : Byte) := exec (.movAm m) s =
      .next { s with acc := v, draws := s.draws + 1, cycles := s.cycles + 1 }
    ∃ a b : Byte, reads 0x12#8 a ∧ reads 0x14#8 b ∧
      (s.pa.ctrl.getLsbD k = false → a.getLsbD k = s.pa.latch.getLsbD k) ∧
      (s.pa.ctrl.getLsbD k = true → s.pa.driven.getLsbD k = true →
        a.getLsbD k = s.pa.level.getLsbD k) ∧
      (s.pa.ctrl.getLsbD k = true → s.pa.driven.getLsbD k = false → s.opt.paPullHigh = true →
        a.getLsbD k = true) ∧
      (s.pb.ctrl.getLsbD k = false → b.getLsbD k = s.pb.latch.getLsbD k) ∧
      (s.pb.ctrl.getLsbD k = true → s.pb.driven.getLsbD k = true →
        b.getLsbD k = s.pb.level.getLsbD k) ∧
      (s.pb.ctrl.getLsbD k = true → s.pb.driven.getLsbD k = false → s.opt.pbPullHigh = true →
        b.getLsbD k = true)

/-- What MOV [m],A does at each core register, port, DAC register and RAM byte (R108). That a write to the
read-only registers TBLH (08H) and LATCHD (2AH) is dropped is the spec's decision D8. -/
def Obligations.RegisterWrites : Prop :=
  ∀ s : State,
    let writes (m : Byte) (t : State) := exec (.movMa m) s = .next { t with cycles := s.cycles + 1 }
    writes 0x01#8 { s with mp0 := s.acc } ∧ writes 0x03#8 { s with mp1 := s.acc } ∧
    writes 0x05#8 s ∧
    exec (.movMa 0x06#8) s = .next { s with
      pc := BitVec.ofNat 13 (s.pc.toNat / 256 * 256 + s.acc.toNat), cycles := s.cycles + 2 } ∧
    writes 0x07#8 { s with tblp := s.acc } ∧ writes 0x08#8 s ∧
    writes 0x09#8 { s with wdts := s.acc } ∧
    writes 0x0A#8 { s with
      fC := s.acc.getLsbD 0, fAC := s.acc.getLsbD 1, fZ := s.acc.getLsbD 2,
      fOV := s.acc.getLsbD 3 } ∧
    writes 0x0B#8 { s with
      emi := s.acc.getLsbD 0
      enable := { s.enable with
        ext := s.acc.getLsbD 1, timer0 := s.acc.getLsbD 2, timer1 := s.acc.getLsbD 3 }
      request := { s.request with
        ext := s.acc.getLsbD 4, timer0 := s.acc.getLsbD 5, timer1 := s.acc.getLsbD 6 } } ∧
    writes 0x12#8 { s with pa := { s.pa with latch := s.acc } } ∧
    writes 0x13#8 { s with pa := { s.pa with ctrl := s.acc } } ∧
    writes 0x14#8 { s with pb := { s.pb with latch := s.acc } } ∧
    writes 0x15#8 { s with pb := { s.pb with ctrl := s.acc } } ∧
    writes 0x1E#8 { s with
      enable := { s.enable with timer3 := s.acc.getLsbD 1 }
      request := { s.request with timer3 := s.acc.getLsbD 5 } } ∧
    writes 0x1F#8 { s with tbhp := BitVec.ofNat 5 s.acc.toNat } ∧
    writes 0x27#8 { s with dal := BitVec.ofNat 4 (s.acc.toNat / 16) } ∧
    writes 0x28#8 { s with dah := s.acc } ∧
    writes 0x29#8 { s with vol := BitVec.ofNat 3 (s.acc.toNat / 32) } ∧
    writes 0x2A#8 s ∧
    ∀ a : Byte, 0x30 ≤ a.toNat →
      writes a (s.ramWrite a s.acc) ∧
      (Memory.wf ramDefault 0x30 0x100 s.ram = true →
        ∀ b, (s.ramWrite a s.acc).ramRead b = if b = a then s.acc else s.ramRead b)

/-- What MOV [m],A does at the timer registers: TMRnL fills the buffer only; TMRnH commits the preload,
and the counter too while the timer is off; TMRnC and TMR3C take their fields; TMR3L is preload, and
counter too while off (R112 to R114, R121, R122). A change of TON from 0 to 1 clears TnPW, which arms a
new measurement (R114; 60_exceptions.md R435; log 16), and T3PS (60_exceptions.md R437; log 17). The
model's choices: the mode's order TM1 = bit 7, TM0 = bit 6 (log 28, PRESUMED), and logs 16 and 17. TMR3L
is the spec's decision D14. -/
def Obligations.TimerRegisterWrites : Prop :=
  ∀ s : State,
    let writes (m : Byte) (t : State) := exec (.movMa m) s = .next { t with cycles := s.cycles + 1 }
    let v := s.acc
    writes 0x0D#8 { s with t0 := { s.t0 with buf := v } } ∧
    writes 0x10#8 { s with t1 := { s.t1 with buf := v } } ∧
    (s.t0.ton = true → writes 0x0C#8 { s with t0 := { s.t0 with pre := v ++ s.t0.buf } }) ∧
    (s.t0.ton = false →
      writes 0x0C#8 { s with t0 := { s.t0 with pre := v ++ s.t0.buf, cnt := v ++ s.t0.buf } }) ∧
    (s.t1.ton = true → writes 0x0F#8 { s with t1 := { s.t1 with pre := v ++ s.t1.buf } }) ∧
    (s.t1.ton = false →
      writes 0x0F#8 { s with t1 := { s.t1 with pre := v ++ s.t1.buf, cnt := v ++ s.t1.buf } }) ∧
    (¬(v.getLsbD 4 = true ∧ v.toNat / 64 = 0) →
      writes 0x0E#8 { s with t0 := { s.t0 with
        te := v.getLsbD 3, ton := v.getLsbD 4, tm := BitVec.ofNat 2 (v.toNat / 64),
        pw := if v.getLsbD 4 = true ∧ s.t0.ton = false then false else s.t0.pw } } ∧
      writes 0x11#8 { s with t1 := { s.t1 with
        te := v.getLsbD 3, ton := v.getLsbD 4, tm := BitVec.ofNat 2 (v.toNat / 64),
        pw := if v.getLsbD 4 = true ∧ s.t1.ton = false then false else s.t1.pw } }) ∧
    (s.t3.ton = true → writes 0x24#8 { s with t3 := { s.t3 with pre := v } }) ∧
    (s.t3.ton = false → writes 0x24#8 { s with t3 := { s.t3 with pre := v, cnt := v } }) ∧
    (¬(v.getLsbD 4 = true ∧ v.toNat / 64 ≠ 2) →
      writes 0x25#8 { s with t3 := { s.t3 with
        sel := BitVec.ofNat 3 v.toNat, te := v.getLsbD 3, ton := v.getLsbD 4,
        tm := BitVec.ofNat 2 (v.toNat / 64),
        ps := if v.getLsbD 4 = true ∧ s.t3.ton = false then 0#8 else s.t3.ps } })

/-- What MOV [m],A does at the voice ROM registers: the written part of the latch changes and no other
register; a write to the selected latch, or a change of VROMC or LATCHC, makes LATCHD unknown, that is
the next free value (log 12), and restarts the delay: VROM_age is cleared when the instruction's device
step is over (log 15); any other write disturbs neither (R117, R118; 60_exceptions.md R470). That bit
17 of a latch is stored on the HT86030 too is the model's choice (log 11; R40, D19, U15). -/
def Obligations.VoiceRegisterWrites : Prop :=
  ∀ s : State,
    let v := s.acc
    let frame (t : State) := { t with
      latch0 := s.latch0, latch1 := s.latch1, dac := s.dac, vromc := s.vromc, latchc := s.latchc,
      voiceB7 := s.voiceB7, latchd := s.latchd, vromRestart := s.vromRestart, draws := s.draws,
      cycles := s.cycles } = s
    let voice (t : State) := (t.dac, t.vromc, t.latchc, t.voiceB7)
    let disturbed (t : State) := t.latchd = freeByte s.draws ∧ t.draws = s.draws + 1 ∧
      t.restartVoice = { t with vromAge := 0, vromRestart := false }
    let undisturbed (t : State) :=
      t.latchd = s.latchd ∧ t.draws = s.draws ∧ t.vromRestart = s.vromRestart
    let latchWrite (m : Byte) (sel : Bool) (a b : BitVec 18) :=
      ∃ t, exec (.movMa m) s = .next t ∧ t.latch0 = a ∧ t.latch1 = b ∧ voice t = voice s ∧
        t.cycles = s.cycles + 1 ∧ frame t ∧
        (s.latchc = sel → disturbed t) ∧ (s.latchc ≠ sel → undisturbed t)
    let high (l : BitVec 18) := BitVec.ofNat 18 (l.toNat % 65536 + v.toNat % 4 * 65536)
    let middle (l : BitVec 18) :=
      BitVec.ofNat 18 (l.toNat / 65536 * 65536 + v.toNat * 256 + l.toNat % 256)
    let low (l : BitVec 18) := BitVec.ofNat 18 (l.toNat / 256 * 256 + v.toNat)
    latchWrite 0x18#8 false (high s.latch0) s.latch1 ∧
    latchWrite 0x19#8 false (middle s.latch0) s.latch1 ∧
    latchWrite 0x1A#8 false (low s.latch0) s.latch1 ∧
    latchWrite 0x1B#8 true s.latch0 (high s.latch1) ∧
    latchWrite 0x1C#8 true s.latch0 (middle s.latch1) ∧
    latchWrite 0x1D#8 true s.latch0 (low s.latch1) ∧
    (v.getLsbD 7 = false →
      ∃ t, exec (.movMa 0x26#8) s = .next t ∧
        voice t = (v.getLsbD 1, v.getLsbD 2, v.getLsbD 4, false) ∧
        t.latch0 = s.latch0 ∧ t.latch1 = s.latch1 ∧ t.cycles = s.cycles + 1 ∧ frame t ∧
        (v.getLsbD 2 ≠ s.vromc ∨ v.getLsbD 4 ≠ s.latchc → disturbed t) ∧
        (v.getLsbD 2 = s.vromc → v.getLsbD 4 = s.latchc → undisturbed t))

/-- Refused writes: an instruction that computes flags, with STATUS as destination; SIZ and SDZ with
PCL; and every instruction that writes data memory, whatever computes its byte, where the byte would
switch a timer on in an unused mode or set VOICEC bit 7 (said of MOV [m],A in the bits of ACC too).
That these stop is the spec's decision (60_exceptions.md R401; 93_implementation_defined.md U4, U5, U8,
U9); that the mode is bits 7 and 6 in this order is the model's (log 28, PRESUMED), and DAA's byte is
that of log 14. -/
def Obligations.RefusedDestinations : Prop :=
  (∀ (i : Instr) (m : Byte) (s : State), flagsToMemory i = some m → s.resolve m = .ok .status →
    exec i s = .fault (.unpredictable s.here i 0x0A#8)) ∧
  (∀ (m : Byte) (s : State), s.resolve m = .ok .pcl →
    exec (.siz m) s = .fault (.unpredictable s.here (.siz m) 0x06#8) ∧
    exec (.sdz m) s = .fault (.unpredictable s.here (.sdz m) 0x06#8)) ∧
  (∀ (i : Instr) (m w : Byte) (l : Loc) (s : State), s.resolve m = .ok l →
    s.written (s.readLoc l).1 i = some (m, w) → ¬l.accepts w →
      exec i s = .fault (l.refusal s.here i)) ∧
  ∀ (m : Byte) (s : State),
    (s.acc.getLsbD 4 = true → s.acc.toNat / 64 = 0 →
      (s.resolve m = .ok (.tmrC .t0) →
        exec (.movMa m) s = .fault (.unpredictable s.here (.movMa m) 0x0E#8)) ∧
      (s.resolve m = .ok (.tmrC .t1) →
        exec (.movMa m) s = .fault (.unpredictable s.here (.movMa m) 0x11#8))) ∧
    (s.acc.getLsbD 4 = true → s.acc.toNat / 64 ≠ 2 → s.resolve m = .ok .tmr3c →
      exec (.movMa m) s = .fault (.unpredictable s.here (.movMa m) 0x25#8)) ∧
    (s.acc.getLsbD 7 = true → s.resolve m = .ok .voicec →
      exec (.movMa m) s = .fault (.undocumentedBit s.here 0x26#8 7))

/-! ### Arithmetic (40_arithmetic.md) -/

/-- ADD A,[m] and ADC A,[m]: ACC takes the sum, C, AC, OV and Z are the whole-number facts about it,
nothing else changes; 1 cycle (R201, R204). -/
def Obligations.AddToAccumulator : Prop :=
  ∀ (m : Byte) (s : State),
    readForm (0x01#8 ++ m) (.addAm m) m s (fun v t =>
      { t.withSum s.acc v false with
        acc := BitVec.ofNat 8 (s.acc.toNat + v.toNat), cycles := s.cycles + 1 }) ∧
    readForm (0x03#8 ++ m) (.adcAm m) m s (fun v t =>
      { t.withSum s.acc v s.fC with
        acc := BitVec.ofNat 8 (s.acc.toNat + v.toNat + s.fC.toNat), cycles := s.cycles + 1 })

/-- SUB A,[m] and SBC A,[m]: ACC takes the difference, in SBC less the complement of C; C and AC are 1
where no borrow takes place; 1 cycle (R207, R209). -/
def Obligations.SubtractFromAccumulator : Prop :=
  ∀ (m : Byte) (s : State),
    readForm (0x05#8 ++ m) (.subAm m) m s (fun v t =>
      { t.withDifference s.acc v false with acc := s.acc - v, cycles := s.cycles + 1 }) ∧
    readForm (0x07#8 ++ m) (.sbcAm m) m s (fun v t =>
      { t.withDifference s.acc v (!s.fC) with
        acc := s.acc - v - BitVec.ofNat 8 (!s.fC).toNat, cycles := s.cycles + 1 })

/-- ADDM A,[m] and ADCM A,[m]: the sum goes to memory, the flags are those of the sum (R202, R205). -/
def Obligations.AddToMemory : Prop :=
  ∀ (m : Byte) (s : State),
    modifyForm (0x02#8 ++ m) (.addmAm m) m s (some .status)
      (fun v _ => BitVec.ofNat 8 (s.acc.toNat + v.toNat))
      (fun v t => t.withSum s.acc v false) (fun _ t => t) ∧
    modifyForm (0x04#8 ++ m) (.adcmAm m) m s (some .status)
      (fun v _ => BitVec.ofNat 8 (s.acc.toNat + v.toNat + s.fC.toNat))
      (fun v t => t.withSum s.acc v s.fC) (fun _ t => t)

/-- SUBM A,[m] and SBCM A,[m]: ACC minus memory goes to memory (R208, R210). -/
def Obligations.SubtractToMemory : Prop :=
  ∀ (m : Byte) (s : State),
    modifyForm (0x06#8 ++ m) (.submAm m) m s (some .status) (fun v _ => s.acc - v)
      (fun v t => t.withDifference s.acc v false) (fun _ t => t) ∧
    modifyForm (0x08#8 ++ m) (.sbcmAm m) m s (some .status)
      (fun v _ => s.acc - v - BitVec.ofNat 8 (!s.fC).toNat)
      (fun v t => t.withDifference s.acc v (!s.fC)) (fun _ t => t)

/-- DAA [m] stores the adjusted ACC and writes C alone: `lo` and `hi` are ACC's nibbles, `ac1` the
internal carry, which is the open parameter DAA_AC1_BOTH where the low nibble is above 9 and AC is 1
(R211, log 14). -/
def Obligations.DecimalAdjust : Prop :=
  ∀ (m : Byte) (s : State),
    let lo := s.acc.toNat % 16
    let hi := s.acc.toNat / 16
    let ac1 := if 9 < lo then (if s.fAC then daaAc1Both else true) else false
    let rlo := if 9 < lo ∨ s.fAC = true then (lo + 6) % 16 else lo
    let carry := decide (9 < hi + ac1.toNat ∨ s.fC = true)
    let rhi := if carry then (hi + ac1.toNat + 6) % 16 else hi + ac1.toNat
    (s.resolve m ≠ .ok .status → storeForm (0x09#8 ++ m) (.daa m) m s 1
      (BitVec.ofNat 8 (rhi * 16 + rlo)) (fun t => { t with fC := carry }))

/-- DAA after the addition of two packed decimal bytes stores their decimal sum modulo 100, and C is 1
exactly when the sum is 100 or more (R200, R211; derived). -/
def Obligations.DecimalAdjustAddsDecimals : Prop :=
  ∀ (s t : State) (x : Byte),
    s.acc.toNat % 16 ≤ 9 → s.acc.toNat / 16 ≤ 9 → x.toNat % 16 ≤ 9 → x.toNat / 16 ≤ 9 →
    exec (.addAx x) s = .next t →
    let value (b : Byte) : Nat := b.toNat / 16 * 10 + b.toNat % 16
    ∃ u, exec (.daa 0x05#8) t = .next u ∧
      value u.acc = (value s.acc + value x) % 100 ∧ u.acc.toNat % 16 ≤ 9 ∧
      u.fC = decide (100 ≤ value s.acc + value x)

/-- The immediate forms ADD, SUB, AND, OR and XOR A,x: results and flags as in the memory forms; 1
cycle, no fault (R203, R206; 41_logic.md R227 to R229). -/
def Obligations.ImmediateForms : Prop :=
  ∀ (x : Byte) (s : State),
    let logic (r : Byte) := Host.Outcome.next (φ := Fault) (ρ := Refusal)
      { s with acc := r, fZ := decide (r.toNat = 0), cycles := s.cycles + 1 }
    decode (0x40#8 ++ x) = .ok (.addAx x) ∧ decode (0x41#8 ++ x) = .ok (.subAx x) ∧
    decode (0x42#8 ++ x) = .ok (.andAx x) ∧ decode (0x43#8 ++ x) = .ok (.orAx x) ∧
    decode (0x44#8 ++ x) = .ok (.xorAx x) ∧
    exec (.addAx x) s = .next
      { s.withSum s.acc x false with
        acc := BitVec.ofNat 8 (s.acc.toNat + x.toNat), cycles := s.cycles + 1 } ∧
    exec (.subAx x) s = .next
      { s.withDifference s.acc x false with acc := s.acc - x, cycles := s.cycles + 1 } ∧
    exec (.andAx x) s = logic (s.acc &&& x) ∧ exec (.orAx x) s = logic (s.acc ||| x) ∧
    exec (.xorAx x) s = logic (s.acc ^^^ x)

/-! ### Logic, increment and decrement (41_logic.md, 42_incdec.md) -/

/-- AND, OR and XOR A,[m] and CPLA [m]: the result goes to ACC, Z alone is written (R221 to R223,
R231). -/
def Obligations.LogicToAccumulator : Prop :=
  ∀ (m : Byte) (s : State),
    let result (r : Byte) (t : State) :=
      { t with acc := r, fZ := decide (r.toNat = 0), cycles := s.cycles + 1 }
    readForm (0x0A#8 ++ m) (.andAm m) m s (fun v t => result (s.acc &&& v) t) ∧
    readForm (0x0B#8 ++ m) (.orAm m) m s (fun v t => result (s.acc ||| v) t) ∧
    readForm (0x0C#8 ++ m) (.xorAm m) m s (fun v t => result (s.acc ^^^ v) t) ∧
    readForm (0x11#8 ++ m) (.cpla m) m s (fun v t => result (BitVec.ofNat 8 (255 - v.toNat)) t)

/-- ANDM, ORM and XORM A,[m] and CPL [m]: the result goes to memory, Z comes from the result and is the
only flag written (R224 to R226, R230). -/
def Obligations.LogicToMemory : Prop :=
  ∀ (m : Byte) (s : State),
    let z (r : Byte) (t : State) := { t with fZ := decide (r.toNat = 0) }
    modifyForm (0x0D#8 ++ m) (.andmAm m) m s (some .status) (fun v _ => s.acc &&& v)
      (fun v t => z (s.acc &&& v) t) (fun _ t => t) ∧
    modifyForm (0x0E#8 ++ m) (.ormAm m) m s (some .status) (fun v _ => s.acc ||| v)
      (fun v t => z (s.acc ||| v) t) (fun _ t => t) ∧
    modifyForm (0x0F#8 ++ m) (.xormAm m) m s (some .status) (fun v _ => s.acc ^^^ v)
      (fun v t => z (s.acc ^^^ v) t) (fun _ t => t) ∧
    modifyForm (0x10#8 ++ m) (.cpl m) m s (some .status)
      (fun v _ => BitVec.ofNat 8 (255 - v.toNat))
      (fun v t => z (BitVec.ofNat 8 (255 - v.toNat)) t) (fun _ t => t)

/-- INCA, DECA, INC and DEC [m]: the byte plus or minus 1 modulo 256 goes to ACC or back to memory, Z
alone is written (R241 to R244). -/
def Obligations.IncrementDecrement : Prop :=
  ∀ (m : Byte) (s : State),
    let result (r : Nat) (t : State) :=
      { t with acc := BitVec.ofNat 8 r, fZ := decide (r % 256 = 0), cycles := s.cycles + 1 }
    let z (r : Nat) (t : State) := { t with fZ := decide (r % 256 = 0) }
    readForm (0x12#8 ++ m) (.inca m) m s (fun v t => result (v.toNat + 1) t) ∧
    readForm (0x14#8 ++ m) (.deca m) m s (fun v t => result (v.toNat + 255) t) ∧
    modifyForm (0x13#8 ++ m) (.inc m) m s (some .status) (fun v _ => BitVec.ofNat 8 (v.toNat + 1))
      (fun v t => z (v.toNat + 1) t) (fun _ t => t) ∧
    modifyForm (0x15#8 ++ m) (.dec m) m s (some .status)
      (fun v _ => BitVec.ofNat 8 (v.toNat + 255)) (fun v t => z (v.toNat + 255) t) (fun _ t => t)

/-! ### Rotates and nibble swap (43_rotate.md, 48_misc.md) -/

/-- RRA, RRCA, RLA and RLCA [m]: the rotated byte goes to ACC; the forms through carry write C alone,
the others no flag. In whole numbers: a right rotate halves the byte and brings bit 0 or C in at the
top, a left rotate doubles it and brings bit 7 or C in at the bottom (R251, R253, R255, R257). -/
def Obligations.RotateToAccumulator : Prop :=
  ∀ (m : Byte) (s : State),
    let right (v c : Nat) := BitVec.ofNat 8 (v / 2 + 128 * c)
    let left (v c : Nat) := BitVec.ofNat 8 (2 * v + c)
    readForm (0x16#8 ++ m) (.rra m) m s (fun v t =>
      { t with acc := right v.toNat (v.toNat % 2), cycles := s.cycles + 1 }) ∧
    readForm (0x18#8 ++ m) (.rrca m) m s (fun v t =>
      { t with acc := right v.toNat s.fC.toNat, fC := decide (v.toNat % 2 = 1),
               cycles := s.cycles + 1 }) ∧
    readForm (0x1A#8 ++ m) (.rla m) m s (fun v t =>
      { t with acc := left v.toNat (v.toNat / 128), cycles := s.cycles + 1 }) ∧
    readForm (0x1C#8 ++ m) (.rlca m) m s (fun v t =>
      { t with acc := left v.toNat s.fC.toNat, fC := decide (v.toNat / 128 = 1),
               cycles := s.cycles + 1 })

/-- RR, RRC, RL and RLC [m]: the rotated byte goes back to memory; RR and RL write no flag of their own
and may have any destination, RRC and RLC write C alone (R252, R254, R256, R258). -/
def Obligations.RotateInMemory : Prop :=
  ∀ (m : Byte) (s : State),
    let right (v c : Nat) := BitVec.ofNat 8 (v / 2 + 128 * c)
    let left (v c : Nat) := BitVec.ofNat 8 (2 * v + c)
    modifyForm (0x17#8 ++ m) (.rr m) m s none (fun v _ => right v.toNat (v.toNat % 2))
      (fun _ t => t) (fun _ t => t) ∧
    modifyForm (0x19#8 ++ m) (.rrc m) m s (some .status) (fun v _ => right v.toNat s.fC.toNat)
      (fun v t => { t with fC := decide (v.toNat % 2 = 1) }) (fun _ t => t) ∧
    modifyForm (0x1B#8 ++ m) (.rl m) m s none (fun v _ => left v.toNat (v.toNat / 128))
      (fun _ t => t) (fun _ t => t) ∧
    modifyForm (0x1D#8 ++ m) (.rlc m) m s (some .status) (fun v _ => left v.toNat s.fC.toNat)
      (fun v t => { t with fC := decide (v.toNat / 128 = 1) }) (fun _ t => t)

/-- SWAP [m] and SWAPA [m] interchange the nibbles, in memory or to ACC; no flag (R306, R307). -/
def Obligations.SwapNibbles : Prop :=
  ∀ (m : Byte) (s : State),
    let swapped (v : Byte) := BitVec.ofNat 8 (v.toNat % 16 * 16 + v.toNat / 16)
    modifyForm (0x2A#8 ++ m) (.swap m) m s none (fun v _ => swapped v) (fun _ t => t)
      (fun _ t => t) ∧
    readForm (0x2B#8 ++ m) (.swapa m) m s (fun v t =>
      { t with acc := swapped v, cycles := s.cycles + 1 })

/-! ### Moves and bits (44_datamove.md, 45_bit.md, 48_misc.md) -/

/-- MOV A,[m] and MOV A,x load ACC and write no flag; MOV [m],A, CLR [m] and SET [m] store ACC, 00H and
FFH without reading the location (R260 to R262, 48_misc.md R301, R302). -/
def Obligations.LoadsAndStores : Prop :=
  ∀ (m x : Byte) (s : State),
    readForm (0x1E#8 ++ m) (.movAm m) m s (fun v t =>
      { t with acc := v, cycles := s.cycles + 1 }) ∧
    decode (0x45#8 ++ x) = .ok (.movAx x) ∧
    exec (.movAx x) s = .next { s with acc := x, cycles := s.cycles + 1 } ∧
    storeForm (0x1F#8 ++ m) (.movMa m) m s 1 s.acc (fun t => t) ∧
    storeForm (0x28#8 ++ m) (.clr m) m s 1 0x00#8 (fun t => t) ∧
    storeForm (0x29#8 ++ m) (.set m) m s 1 0xFF#8 (fun t => t)

/-- CLR [m].i and SET [m].i write the whole byte back with bit i changed and the others as read (R264
to R266). -/
def Obligations.BitOperations : Prop :=
  ∀ (m : Byte) (i : Nat) (s : State), i < 8 → ∃ clear set : Byte → Byte,
    (∀ v : Byte, (∀ k, (clear v).getLsbD k = (v.getLsbD k && k != i)) ∧
      ∀ k, k < 8 → (set v).getLsbD k = (v.getLsbD k || k == i)) ∧
    modifyForm (BitVec.ofNat 16 (0x8800 + i * 256 + m.toNat)) (.clrBit m i) m s none
      (fun v _ => clear v) (fun _ t => t) (fun _ t => t) ∧
    modifyForm (BitVec.ofNat 16 (0x8000 + i * 256 + m.toNat)) (.setBit m i) m s none
      (fun v _ => set v) (fun _ t => t) (fun _ t => t)

/-! ### Branches, calls and returns (46_branch.md) -/

/-- SZ [m], SZ [m].i and SNZ [m].i pass over the next instruction when the byte, or the bit, is zero, or
for SNZ when the bit is one; they write nothing else (R272, R274, R275). -/
def Obligations.TestAndSkip : Prop :=
  ∀ (m : Byte) (i : Nat) (s : State), i < 8 →
    let skips (b : Bool) (t : State) :=
      let u := { t with cycles := s.cycles + 1 }
      if b then u.passOver else u
    readForm (0x20#8 ++ m) (.sz m) m s (fun v t => skips (decide (v.toNat = 0)) t) ∧
    readForm (BitVec.ofNat 16 (0x9000 + i * 256 + m.toNat)) (.szBit m i) m s
      (fun v t => skips (!v.getLsbD i) t) ∧
    readForm (BitVec.ofNat 16 (0x9800 + i * 256 + m.toNat)) (.snzBit m i) m s
      (fun v t => skips (v.getLsbD i) t)

/-- SZA, SIZA and SDZA [m] put the byte, plus 1 or minus 1, in ACC and skip when it is zero; no flag is
written (R273, R278, R279). -/
def Obligations.LoadAndSkip : Prop :=
  ∀ (m : Byte) (s : State),
    let result (r : Nat) (t : State) :=
      let u := { t with acc := BitVec.ofNat 8 r, cycles := s.cycles + 1 }
      if r % 256 = 0 then u.passOver else u
    readForm (0x21#8 ++ m) (.sza m) m s (fun v t => result v.toNat t) ∧
    readForm (0x24#8 ++ m) (.siza m) m s (fun v t => result (v.toNat + 1) t) ∧
    readForm (0x25#8 ++ m) (.sdza m) m s (fun v t => result (v.toNat + 255) t)

/-- SIZ and SDZ [m] write the byte plus or minus 1 back and skip when it is zero, whatever the location
keeps of it; no flag is written (R276, R277). PCL as destination is in RefusedDestinations. -/
def Obligations.CountAndSkip : Prop :=
  ∀ (m : Byte) (s : State),
    let skips (r : Byte) (t : State) := if r.toNat = 0 then t.passOver else t
    modifyForm (0x22#8 ++ m) (.siz m) m s (some .pcl) (fun v _ => BitVec.ofNat 8 (v.toNat + 1))
      (fun _ t => t) skips ∧
    modifyForm (0x23#8 ++ m) (.sdz m) m s (some .pcl) (fun v _ => BitVec.ofNat 8 (v.toNat + 255))
      (fun _ t => t) skips

/-- JMP goes to its address and changes nothing else; CALL also stacks the address after itself; 2 cycles
(R271, R280). On a full stack the oldest entry is lost, the depth stays 8 and no other sign is left:
that is the spec's decision D5 (10_state.md R27). -/
def Obligations.JumpAndCall : Prop :=
  ∀ (a : PAddr) (s : State),
    decode (0b110#3 ++ a) = .ok (.jmp a) ∧ decode (0b111#3 ++ a) = .ok (.call a) ∧
    exec (.jmp a) s = .next { s with pc := a, cycles := s.cycles + 2 } ∧
    (s.stack.length < 8 → exec (.call a) s = .next
      { s with pc := a, stack := s.stack ++ [s.pc], cycles := s.cycles + 2 }) ∧
    (s.stack.length = 8 → exec (.call a) s = .next
      { s with pc := a, stack := s.stack.tail ++ [s.pc], cycles := s.cycles + 2 } ∧
      (s.stack.tail ++ [s.pc]).length = 8)

/-- RET, RET A,x and RETI take the newest stacked address as the program counter; RET A,x also loads
ACC and RETI also sets EMI; nothing else changes; 2 cycles (R281 to R283). On an empty stack each is
the fault StackUnderflow (the spec's decision D5). -/
def Obligations.Returns : Prop :=
  ∀ (x : Byte) (s : State),
    decode 0x0005#16 = .ok .ret ∧ decode (0x46#8 ++ x) = .ok (.retAx x) ∧
    decode 0x0006#16 = .ok .reti ∧
    (∀ older a, s.stack = older ++ [a] →
      let t := { s with pc := a, stack := older, cycles := s.cycles + 2 }
      exec .ret s = .next t ∧ exec (.retAx x) s = .next { t with acc := x } ∧
      exec .reti s = .next { t with emi := true }) ∧
    (s.stack = [] →
      exec .ret s = .fault (.stackUnderflow s.here) ∧
      exec (.retAx x) s = .fault (.stackUnderflow s.here) ∧
      exec .reti s = .fault (.stackUnderflow s.here))

/-- CALLs in a row, as many as the stack has room for, and then as many RETs, each fetched at the `pc`
the one before it leaves (10_state.md R22): the calls go to their targets and stack, oldest first, the
address after each CALL; the returns go to those addresses newest first and leave the stack as it was
(10_state.md R26 to R28; 46_branch.md R280, R281). -/
def Obligations.NestedCallsReturn : Prop :=
  ∀ (calls : List PAddr) (s : State), s.stack.length + calls.length ≤ 8 →
    let behind := ((s.pc :: calls).dropLast).map (· + 1#13)
    ∃ t u, s.trail (calls.map Instr.call) = some (calls, t) ∧
      t.stack = s.stack ++ behind ∧
      t.trail (calls.map fun _ => Instr.ret) = some (behind.reverse, u) ∧
      u = { s with pc := u.pc, cycles := s.cycles + 4 * calls.length }

/-! ### Table reads (47_tableread.md) -/

/-- TABRDC and TABRDL put the high byte of a program word in TBLH and the low byte in `[m]`: the word at
TBHP:TBLP, and the word at TBLP in the last page; 2 cycles (R290 to R292). -/
def Obligations.TableReads : Prop :=
  ∀ (m : Byte) (s : State),
    let low (a : PAddr) := BitVec.ofNat 8 (s.romRead a).toNat
    let high (a : PAddr) (t : State) := { t with tblh := BitVec.ofNat 8 ((s.romRead a).toNat / 256) }
    let here := BitVec.ofNat 13 (s.tbhp.toNat * 256 + s.tblp.toNat)
    let last := BitVec.ofNat 13 (0x1F00 + s.tblp.toNat)
    storeForm (0x26#8 ++ m) (.tabrdc m) m s 2 (low here) (high here) ∧
    storeForm (0x27#8 ++ m) (.tabrdl m) m s 2 (low last) (high last)

/-! ### Miscellaneous (48_misc.md) -/

/-- NOP takes a cycle and changes nothing else. HALT sets PDF, clears TO and the watchdog, records the
request flags and stops the machine; RAM and every other register stay (R300, R308). The port A detector
takes what the pads show at HALT as its reference, which is the model's choice (log 19): an output line
its latch, an input line the level driven or, undriven, 1 with the pull-high option (R460); nothing is
said of a floating line (log 18). -/
def Obligations.NopAndHalt : Prop :=
  ∀ s : State,
    decode 0x0000#16 = .ok .nop ∧ decode 0x0004#16 = .ok .halt ∧
    exec .nop s = .next { s with cycles := s.cycles + 1 } ∧
    ∃ sampled, exec .halt s = .next
      { s with fPDF := true, fTO := false, wdtcnt := 0#15, haltPre := s.request, halted := true,
               paPrev := sampled, draws := s.draws + 1, cycles := s.cycles + 1 } ∧
      ∀ k, k < 8 →
        (s.pa.ctrl.getLsbD k = false → sampled.getLsbD k = s.pa.latch.getLsbD k) ∧
        (s.pa.ctrl.getLsbD k = true → s.pa.driven.getLsbD k = true →
          sampled.getLsbD k = s.pa.level.getLsbD k) ∧
        (s.pa.ctrl.getLsbD k = true → s.pa.driven.getLsbD k = false → s.opt.paPullHigh = true →
          sampled.getLsbD k = true)

/-- The three watchdog clears under the mask options: the selected form clears WDTCNT, TO and PDF (CLR
WDT at once, CLR WDT1 and CLR WDT2 as a pair in either order), every other form changes nothing
(R299, R303 to R305). -/
def Obligations.WatchdogClears : Prop :=
  ∀ s : State,
    let tick (t : State) := Host.Outcome.next (φ := Fault) (ρ := Refusal)
      { t with cycles := s.cycles + 1 }
    let cleared := { s with wdtcnt := 0#15, fTO := false, fPDF := false }
    let pair := { cleared with wdt1f := false, wdt2f := false }
    decode 0x0001#16 = .ok .clrWdt ∧ decode 0x0002#16 = .ok .clrWdt1 ∧
    decode 0x0003#16 = .ok .clrWdt2 ∧
    (s.opt.wdtEnable = false →
      exec .clrWdt s = tick s ∧ exec .clrWdt1 s = tick s ∧ exec .clrWdt2 s = tick s) ∧
    (s.opt.wdtEnable = true → s.opt.clrWdtTimes = .one →
      exec .clrWdt s = tick cleared ∧ exec .clrWdt1 s = tick s ∧ exec .clrWdt2 s = tick s) ∧
    (s.opt.wdtEnable = true → s.opt.clrWdtTimes = .two →
      exec .clrWdt s = tick s ∧
      exec .clrWdt1 s = tick (if s.wdt2f then pair else { s with wdt1f := true }) ∧
      exec .clrWdt2 s = tick (if s.wdt1f then pair else { s with wdt2f := true }))

/-! ### What no instruction does -/

/-- Of all instructions only CLR WDT, CLR WDT1, CLR WDT2 and HALT can change TO or PDF, writes to
STATUS included (10_state.md R25). -/
def Obligations.PowerFlagsKept : Prop :=
  ∀ (i : Instr) (s t : State), exec i s = .next t →
    (t.fTO = s.fTO ∧ t.fPDF = s.fPDF) ∨ i = .clrWdt ∨ i = .clrWdt1 ∨ i = .clrWdt2 ∨ i = .halt

/-- Of all instructions only CALL, RET, RET A,x and RETI touch the stack, and none changes a memory
fixed when the chip is made, the options or the environment (20_memory.md R100, R101;
60_exceptions.md R476). -/
def Obligations.StackAndRomKept : Prop :=
  ∀ (i : Instr) (s t : State), exec i s = .next t →
    s.sameChip t ∧ t.env = s.env ∧
    (t.stack = s.stack ∨ (∃ a, i = .call a) ∨ i = .ret ∨ (∃ x, i = .retAx x) ∨ i = .reti)

/-- No instruction can fail but by one of the spec's model faults with the address of the instruction:
there is no refusal (60_exceptions.md R401, R402). -/
def Obligations.NoInstructionRefused : Prop :=
  ∀ (i : Instr) (s : State),
    (∃ t, exec i s = .next t) ∨ (∃ a, exec i s = .fault (.unusedAddress s.here a)) ∨
    (∃ a, exec i s = .fault (.unpredictable s.here i a)) ∨
    exec i s = .fault (.undocumentedBit s.here 0x26#8 7) ∨
    exec i s = .fault (.stackUnderflow s.here)

/-! ### Interrupts (60_exceptions.md) -/

/-- At a boundary with EMI = 1 and room on the stack, the step takes the pending source of highest
priority: it pushes `pc`, clears that request flag and EMI, goes to the vector, and the devices run
the entry's cycles (R410 to R412). The vectors are 004H, 008H, 00CH and 014H in the order of priority. The number of
cycles is the parameter of log 3. -/
def Obligations.InterruptTaken : Prop :=
  [IrqSource.ext, .timer0, .timer1, .timer3].map IrqSource.vector =
    [0x004#13, 0x008#13, 0x00C#13, 0x014#13] ∧
  ∀ (s : State) (src : IrqSource), s.quiet → s.halted = false → s.emi = true →
    s.stack.length < 8 → s.request.get src = true → s.enable.get src = true →
    (∀ other : IrqSource, other.vector.toNat < src.vector.toNat →
      ¬(s.request.get other = true ∧ s.enable.get other = true)) →
    step s = .next ((State.deviceStep s.opt.intEntryCycles
      { s.pastEvents with
        stack := s.stack ++ [s.pc], request := s.request.set src false, emi := false,
        pc := src.vector, cycles := s.cycles + s.opt.intEntryCycles }).restartVoice)

/-- Where EMI is 0, the stack is full, or no source is requested and enabled, no interrupt is taken: the
step is the instruction's, and a step that stops is the instruction's stop (R411, R412). -/
def Obligations.InterruptHeld : Prop :=
  ∀ s : State, s.quiet → s.halted = false →
    (s.emi = false ∨ 8 ≤ s.stack.length ∨
      ∀ src : IrqSource, s.request.get src = false ∨ s.enable.get src = false) →
    s.runsNext ∧
    ∀ i, decode (s.romRead s.pc) = .ok i → ∀ e,
      exec i { s.pastEvents with pc := s.pc + 1#13 } = .fault e → step s = .fault e

/-- An interrupt entry and a RETI right after it come back to the interrupted `pc` with the stack as it
was and EMI = 1; only the request flag is gone (R412, R415; 46_branch.md R283). -/
def Obligations.EntryThenReti : Prop :=
  ∀ (s : State) (src : IrqSource), s.emi = true → s.stack.length < 8 →
    exec .reti (s.interruptEntry src) =
      .next { s with request := s.request.set src false,
                     cycles := s.cycles + s.opt.intEntryCycles + 2 }

/-- A change of the INT level sets EIF on a falling edge, and on a rising edge with the option for both
edges; the enable bits do not matter. In HALT the chip wakes if EIF was 0 now and when HALT executed
(R413, R420, R451, R452). -/
def Obligations.ExternalInterruptEdge : Prop :=
  ∀ (s : State) (v : Bool) (slot : List EnvEvent) (later : List (List EnvEvent)),
    s.env = (.intPin v :: slot) :: later →
    let active := (s.intPrev = true ∧ v = false) ∨
      (s.intPrev = false ∧ v = true ∧ s.opt.intEdge = .fallingAndRising)
    (active → step s = .next { s with
      env := slot :: later, intPrev := v, request := { s.request with ext := true },
      halted := s.halted && (s.request.ext || s.haltPre.ext) }) ∧
    (¬active → step s = .next { s with env := slot :: later, intPrev := v })

/-! ### Timers (60_exceptions.md) -/

/-- From a start value P, timer n counts up without a request for fewer than 65536 - P counts, and the
count number 65536 - P reloads the preload and sets the request flag, whatever the enable bits hold
(R432). -/
def Obligations.TimerOverflow : Prop :=
  ∀ (n : TimerId) (s : State) (k : Nat),
    let after := (fun t => State.count16 t n)^[k] s
    (k < 65536 - (s.timer n).cnt.toNat →
      (after.timer n).cnt.toNat = (s.timer n).cnt.toNat + k ∧ after.request = s.request) ∧
    (k = 65536 - (s.timer n).cnt.toNat →
      (after.timer n).cnt = (s.timer n).pre ∧
      after.request = s.request.set n.source true ∧ after.enable = s.enable)

/-- When an instruction cycle counts: timer n counts in timer mode, and in pulse width mode while the
pulse lasts, if TON is 1 and the count is not blocked by a read of TMRnH; in every other case its
counter and the request flags stay (R432, R433, R436). In each case nothing else of the machine changes
but the block, which is over (log 13). Instruction cycles run only outside HALT (R430), where `halted`
stays false; what an overflow gives `halted` in a halted state, which no device pass sees, is the
model's own request operation and no rule of the spec (log 33). -/
def Obligations.TimerCountsInternalClock : Prop :=
  ∀ (n : TimerId) (s : State),
    let t := s.timer n
    (t.ton = true → (t.tm = 0b10#2 ∨ (t.tm = 0b11#2 ∧ t.pw = true)) → t.lose = false →
      (t.cnt.toNat ≠ 65535 →
        s.timerTick n = s.setTimer n { t with cnt := BitVec.ofNat 16 (t.cnt.toNat + 1) }) ∧
      (t.cnt.toNat = 65535 →
        s.timerTick n = { s.setTimer n { t with cnt := t.pre } with
          request := s.request.set n.source true
          halted := s.halted && (s.request.get n.source || s.haltPre.get n.source) })) ∧
    ((t.ton = false ∨ t.lose = true ∨ t.tm = 0b00#2 ∨ t.tm = 0b01#2 ∨
        (t.tm = 0b11#2 ∧ t.pw = false)) →
      s.timerTick n = s.setTimer n { t with lose := false })

/-- Timer Counter 3 with prescaler selection S counts in the instruction cycle that makes the prescaler a
multiple of 2^(S+1), from any phase; a count from FFH reloads and sets T3F (R437). So from a multiple,
the first start and every count after it alike, 2^(S+1) - 1 cycles count nothing and the next one counts
1: the prescaler is not cleared by a count. That it starts cleared is log 17 (decision D14). Nothing else changes; with TON = 0,
or in a mode other than timer mode, nothing at all. TMR3 stops in HALT and cannot wake the chip (R437),
since instruction cycles run only outside HALT (R430), where `halted` stays false; what an overflow
gives `halted` in a halted state, which no device pass sees, is the model's own request operation and
no rule of the spec (log 33). -/
def Obligations.TimerThreePrescaler : Prop :=
  (∀ s : State, s.t3.ton = false ∨ s.t3.tm ≠ 0b10#2 → s.timer3Tick = s) ∧
  ∀ s : State, s.t3.ton = true → s.t3.tm = 0b10#2 →
    let n := 2 ^ (s.t3.sel.toNat + 1)
    let counted (phase : Byte) (after : State) :=
      (s.t3.cnt.toNat ≠ 255 → after = { s with
        t3 := { s.t3 with cnt := BitVec.ofNat 8 (s.t3.cnt.toNat + 1), ps := phase } }) ∧
      (s.t3.cnt.toNat = 255 → after = { s with
        t3 := { s.t3 with cnt := s.t3.pre, ps := phase }
        request := { s.request with timer3 := true }
        halted := s.halted && (s.request.timer3 || s.haltPre.timer3) })
    ((s.t3.ps.toNat + 1) % n ≠ 0 →
      s.timer3Tick = { s with t3 := { s.t3 with ps := s.t3.ps + 1#8 } }) ∧
    ((s.t3.ps.toNat + 1) % n = 0 → counted (s.t3.ps + 1#8) s.timer3Tick) ∧
    (s.t3.ps.toNat % n = 0 → ∀ k : Nat,
      let after := State.timer3Tick^[k] s
      let phase := s.t3.ps + BitVec.ofNat 8 k
      (k < n → after = { s with t3 := { s.t3 with ps := phase } }) ∧ (k = n → counted phase after))

/-- A change of the TMRn level in event count mode with TON = 1 counts once on the active edge, which is
the rising edge for TE = 0 and the falling edge for TE = 1, and counts nothing on the other edge
(R434). The count at FFFFH reloads and sets TnF (R432), and in HALT it wakes the chip if TnF was 0 now
and when HALT executed (R451, R452). Nothing else changes but the level last seen. That a read of TMRnH
never loses such a count is the model's choice (log 13). With TON = 0, in timer mode and in mode 00 an
edge changes only the level last seen, and an event that brings the level last seen changes nothing
(R434, R435). With the option for external timer clocks disabled the event changes nothing, in every
mode: the spec's decision D20 (R434, log 29). -/
def Obligations.EventCounting : Prop :=
  (∀ (s : State) (n : TimerId) (v : Bool), s.opt.extTimer = false ∨ (s.timer n).pin = v →
    s.applyEvent (.timerPin n v) = s) ∧
  (∀ (s : State) (n : TimerId) (v : Bool), s.opt.extTimer = true →
    ((s.timer n).ton = false ∨ (s.timer n).tm = 0b00#2 ∨ (s.timer n).tm = 0b10#2) →
    s.applyEvent (.timerPin n v) = s.setTimer n { s.timer n with pin := v }) ∧
  ∀ (s : State) (n : TimerId) (v : Bool), s.opt.extTimer = true →
    (s.timer n).ton = true → (s.timer n).tm = 0b01#2 → (s.timer n).pin = !v →
    let t := s.timer n
    let u := s.applyEvent (.timerPin n v)
    (t.te = !v → t.cnt.toNat ≠ 65535 →
      u = s.setTimer n { t with cnt := BitVec.ofNat 16 (t.cnt.toNat + 1), pin := v }) ∧
    (t.te = !v → t.cnt.toNat = 65535 →
      u = { s.setTimer n { t with cnt := t.pre, pin := v } with
        request := s.request.set n.source true
        halted := s.halted && (s.request.get n.source || s.haltPre.get n.source) }) ∧
    (t.te = v → u = s.setTimer n { t with pin := v })

/-- Pulse width measurement with TON = 1: the edge that TE selects starts it, the opposite edge ends it
and clears TON, and the counter keeps the result; while no measurement runs the opposite edge does
nothing (R435). TE = 1 measures a high pulse. Nothing else of the machine changes. That all this happens
in HALT too is the model's choice: R450 names event count mode only (log 32). -/
def Obligations.PulseMeasurement : Prop :=
  ∀ (s : State) (n : TimerId) (v : Bool), s.opt.extTimer = true →
    (s.timer n).ton = true → (s.timer n).tm = 0b11#2 → (s.timer n).pin = !v →
    let t := s.timer n
    let becomes (u : Timer16) := s.applyEvent (.timerPin n v) = s.setTimer n u
    (t.pw = false → t.te = v → becomes { t with pin := v, pw := true }) ∧
    (t.pw = true → t.te = !v → becomes { t with pin := v, pw := false, ton := false }) ∧
    (t.pw = false → t.te = !v → becomes { t with pin := v }) ∧
    (t.pw = true → t.te = v → becomes { t with pin := v })

/-! ### Watchdog, HALT and resets (60_exceptions.md, 70_reset_and_hazards.md) -/

/-- With the watchdog enabled and the ratio WS, a clock is the time-out exactly when it brings the
counter, wherever it stands, to a multiple of 256 x 2^WS, and only counts otherwise: outside HALT the
chip reset of its kind with the unknown values free (log 10), so with TO = 1 and PDF kept; in HALT the
warm reset (R440, R441). A time-out at a boundary where RES goes low leaves the reset to RES (R414, log
20). So from a cleared counter fewer than 256 x 2^WS clocks only count, and clock number 256 x 2^WS is
the time-out. With the watchdog disabled a clock does nothing (R442). A tick of the WDT oscillator,
which comes as an event, is such a clock where the option selects that oscillator, and nothing where it
selects T1 (R441, log 2). -/
def Obligations.WatchdogPeriod : Prop :=
  (∀ s : State, s.opt.wdtEnable = false → s.wdtTick = s) ∧
  (∀ (s : State) (slot : List EnvEvent) (later : List (List EnvEvent)),
    s.env = (.wdtOscTick :: slot) :: later →
    (s.opt.wdtClock = .wdtOsc → step s = .next (State.wdtTick { s with env := slot :: later })) ∧
    (s.opt.wdtClock = .t1 → step s = .next { s with env := slot :: later })) ∧
  (∀ s : State, s.opt.wdtEnable = true →
    let counts := s.wdtTick = { s with wdtcnt := s.wdtcnt + 1#15 }
    ((s.wdtcnt.toNat + 1) % 2 ^ (8 + s.wdts.toNat % 8) ≠ 0 → counts) ∧
    ((s.wdtcnt.toNat + 1) % 2 ^ (8 + s.wdts.toNat % 8) = 0 →
      (s.resComing = true → counts) ∧
      (s.resComing = false → s.halted = false →
        s.wdtTick = State.chipReset { s with draws := s.draws + unknownDraws } .wdtNormal
          (Unknowns.free s.draws)) ∧
      (s.resComing = false → s.halted = true →
        s.wdtTick =
          { s with pc := 0#13, stack := [], halted := false, fTO := true, wdtcnt := 0#15 }))) ∧
  ∀ (s : State) (k : Nat), s.opt.wdtEnable = true → s.wdtcnt = 0#15 → s.resComing = false →
    let period := 256 * 2 ^ (s.wdts.toNat % 8)
    let after := State.wdtTick^[k] s
    (k < period → after = { s with wdtcnt := BitVec.ofNat 15 k }) ∧
    (k = period → s.halted = false →
      after = State.chipReset { s with draws := s.draws + unknownDraws } .wdtNormal
        (Unknowns.free s.draws) ∧
      after.pc = 0#13 ∧ after.stack = [] ∧ after.fTO = true ∧ after.fPDF = s.fPDF ∧
      after.wdtcnt = 0#15 ∧ after.wdts = 0x07#8 ∧ after.emi = false ∧ after.acc = s.acc) ∧
    (k = period → s.halted = true →
      after = { s with pc := 0#13, stack := [], halted := false, fTO := true, wdtcnt := 0#15 })

/-- In HALT no instruction is fetched and no device runs: a step with no event left leaves the machine
as it is, the boundary's empty list of events apart (R430, R450; log 2, 23). -/
def Obligations.HaltHolds : Prop :=
  ∀ s : State, s.halted = true → s.quiet → step s = .next { s with env := s.env.tail }

/-- The environment drives port A anew: the event puts its drive on the pads, and the detector takes what
they show now, an output line its latch, an input line the level driven or, undriven, 1 with the
pull-high option (R460). In HALT the chip wakes exactly when a line whose wake-up option is on was high
at the last look and is low now; a chip that is awake stays so. Nothing else changes, PDF, TO and the
program counter among it, but the count of free values (R451, R453, R476). When the detector looks is
log 19; nothing is said of the level of a floating line (log 18). -/
def Obligations.PortAWakes : Prop :=
  ∀ (s : State) (driven level : Byte) (slot : List EnvEvent) (later : List (List EnvEvent)),
    s.env = (.padsA driven level :: slot) :: later →
    ∃ now halted, step s = .next { s with
        env := slot :: later, pa := { s.pa with driven := driven, level := level }
        paPrev := now, halted := halted, draws := s.draws + 1 } ∧
      (∀ k, k < 8 →
        (s.pa.ctrl.getLsbD k = false → now.getLsbD k = s.pa.latch.getLsbD k) ∧
        (s.pa.ctrl.getLsbD k = true → driven.getLsbD k = true →
          now.getLsbD k = level.getLsbD k) ∧
        (s.pa.ctrl.getLsbD k = true → driven.getLsbD k = false → s.opt.paPullHigh = true →
          now.getLsbD k = true)) ∧
      (halted = false ↔ s.halted = false ∨ ∃ k, k < 8 ∧ s.opt.paWakeup.getLsbD k = true ∧
        s.paPrev.getLsbD k = true ∧ now.getLsbD k = false)

/-- What every chip reset leaves, whatever the unknown values are: `pc` and the stack, the interrupt
and watchdog registers, timers off, ports as inputs with latches FFH; TO and PDF as the table gives
for its kind; the voice control bits and bit 7 of VOICEC 0 after power-on; and after every other kind
each register the table marks u (70_reset_and_hazards.md R501, R503; 10_state.md R60, R61). -/
def Obligations.ChipResetValues : Prop :=
  ∀ (s : State) (kind : ResetKind) (u : Unknowns),
    let t := s.chipReset kind u
    t.pc = 0#13 ∧ t.stack = [] ∧ t.halted = false ∧ t.emi = false ∧
    t.enable.ext = false ∧ t.enable.timer0 = false ∧ t.enable.timer1 = false ∧
    t.request = { ext := false, timer0 := false, timer1 := false, timer3 := false } ∧
    t.wdts = 0x07#8 ∧ t.wdtcnt = 0#15 ∧
    t.t0.ton = false ∧ t.t1.ton = false ∧ t.t3.ton = false ∧
    t.pa.latch = 0xFF#8 ∧ t.pa.ctrl = 0xFF#8 ∧ t.pb.latch = 0xFF#8 ∧ t.pb.ctrl = 0xFF#8 ∧
    (t.fTO, t.fPDF) =
      (match kind with
      | .powerOn => (false, false)
      | .resNormal => (s.fTO, s.fPDF)
      | .resHalt => (false, true)
      | .wdtNormal => (true, s.fPDF)) ∧
    (kind = .powerOn → t.dac = false ∧ t.vromc = false ∧ t.latchc = false ∧ t.voiceB7 = false) ∧
    (kind ≠ .powerOn →
      t.acc = s.acc ∧ t.mp0 = s.mp0 ∧ t.mp1 = s.mp1 ∧ t.tblp = s.tblp ∧ t.tbhp = s.tbhp ∧
      t.tblh = s.tblh ∧ t.fC = s.fC ∧ t.fAC = s.fAC ∧ t.fZ = s.fZ ∧ t.fOV = s.fOV ∧
      t.latch0 = s.latch0 ∧ t.latch1 = s.latch1 ∧ t.dac = s.dac ∧ t.vromc = s.vromc ∧
      t.latchc = s.latchc ∧ t.voiceB7 = s.voiceB7 ∧ t.dal = s.dal ∧ t.dah = s.dah ∧ t.vol = s.vol ∧
      t.latchd = s.latchd) ∧
    s.sameChip t

/-- A step with power-on or RES low as its event is the chip reset of that kind, RES in HALT of its own
kind, with the unknown values free (70_reset_and_hazards.md R500, R503; log 10). -/
def Obligations.ResetEvents : Prop :=
  ∀ (s : State) (slot : List EnvEvent) (later : List (List EnvEvent)),
    let s1 := { s with env := slot :: later, draws := s.draws + unknownDraws }
    (s.env = (.powerOn :: slot) :: later →
      step s = .next (s1.chipReset .powerOn (Unknowns.free s.draws))) ∧
    (s.env = (.resLow :: slot) :: later → s.halted = false →
      step s = .next (s1.chipReset .resNormal (Unknowns.free s.draws))) ∧
    (s.env = (.resLow :: slot) :: later → s.halted = true →
      step s = .next (s1.chipReset .resHalt (Unknowns.free s.draws)))

/-- The state after reset: the values the spec gives for power-on (10_state.md R60, R61, R36, R38, R41). -/
def Obligations.PowerOnState : Prop :=
  let t := State.reset
  t.pc = 0#13 ∧ t.stack = [] ∧ t.halted = false ∧ t.fTO = false ∧ t.fPDF = false ∧
  t.wdts = 0x07#8 ∧ t.wdtcnt = 0#15 ∧ t.emi = false ∧
  t.enable.ext = false ∧ t.enable.timer0 = false ∧ t.enable.timer1 = false ∧
  t.request = { ext := false, timer0 := false, timer1 := false, timer3 := false } ∧
  t.t0.ton = false ∧ t.t1.ton = false ∧ t.t3.ton = false ∧
  t.pa.latch = 0xFF#8 ∧ t.pa.ctrl = 0xFF#8 ∧ t.pb.latch = 0xFF#8 ∧ t.pb.ctrl = 0xFF#8 ∧
  t.dac = false ∧ t.vromc = false ∧ t.latchc = false ∧ t.voiceB7 = false

/-! ### Voice ROM and audio (60_exceptions.md R466, R470) -/

/-- With the voice ROM circuit on and an address inside the voice ROM, LATCHD holds the byte there after
VROM_DELAY_CYCLES instruction cycles of a restarted delay, and is not readable before (R470). A cycle
changes nothing of the machine but VROM_age, LATCHD and the count of free values; with the circuit off,
or the delay over (log 15), it changes nothing at all. -/
def Obligations.VoiceByteDelivered : Prop :=
  (∀ s : State, ∃ age byte drawn,
    s.vromTick = { s with vromAge := age, latchd := byte, draws := drawn }) ∧
  (∀ s : State, s.vromc = false ∨ s.opt.vromDelayCycles ≤ s.vromAge → s.vromTick = s) ∧
  ∀ (s : State) (k : Nat), s.vromc = true → s.vromAge = 0 →
    (if s.latchc then s.latch1 else s.latch0).toNat % 2 ^ s.opt.part.vromAddrBits <
      s.opt.part.vromBytes →
    let after := State.vromTick^[k] s
    (k < s.opt.vromDelayCycles → after.voiceReady = false) ∧
    (s.opt.vromDelayCycles ≤ k → 0 < s.opt.vromDelayCycles → after.voiceReady = true ∧
      after.latchd = s.vromRead
        ((if s.latchc then s.latch1 else s.latch0).toNat % 2 ^ s.opt.part.vromAddrBits))

/-- The audio observable is VOICEC.DAC, DAH : DAL[7:4] and VOL[7:5], and a write of DAH or DAL shows in
it at once (10_state.md R42, R43; 60_exceptions.md R466; 20_memory.md R119). -/
def Obligations.AudioOutput : Prop :=
  ∀ s : State, ∃ th tl,
    exec (.movMa 0x28#8) s = .next th ∧ exec (.movMa 0x27#8) s = .next tl ∧
    th.aud.1 = s.dac ∧ th.aud.2.1.toNat = s.acc.toNat * 16 + s.dal.toNat ∧ th.aud.2.2 = s.vol ∧
    tl.aud.1 = s.dac ∧ tl.aud.2.1.toNat = s.dah.toNat * 16 + s.acc.toNat / 16 ∧
    tl.aud.2.2 = s.vol

/-! ### Invariants of every step -/

/-- The invariant holds after reset (10_state.md R60, R61). -/
def Obligations.InvAtReset : Prop := State.reset.Inv

/-- Every step keeps the invariant: at most eight stacked addresses, the three memories in canonical
form inside their address ranges, VOICEC bit 7 zero, no timer on in an unused mode, and no unfinished
business of an instruction left (10_state.md R26, R41; 20_memory.md R100, R118; 60_exceptions.md R433,
R437). Its clause that VROM_age is at most its delay is the model's choice, no rule's: R470 states no
value the age stops at (log 15, DEDUCED). -/
def Obligations.StepKeepsInv : Prop :=
  ∀ s t : State, s.Inv → step s = .next t → t.Inv

/-- No step of the machine, events, interrupts and resets included, changes the program ROM, the voice
ROM or the options (20_memory.md R101; 60_exceptions.md R476). -/
def Obligations.StepKeepsChip : Prop :=
  ∀ s t : State, step s = .next t → s.sameChip t
end

