-- ==== Sys2Proof/Laws/Decode.lean ====
section
/-! SUPPORT. The fields of the words the encoder builds (30_encoding.md R142), and the decoder on them. -/

namespace Sys2Proof

@[simp] theorem byteWord_op (op m : Byte) : (byteWord op m).extractLsb' 8 8 = op :=
  BitVec.extractLsb'_append_eq_left

@[simp] theorem byteWord_operand (op m : Byte) : (byteWord op m).extractLsb' 0 8 = m :=
  BitVec.extractLsb'_append_eq_right

@[simp] theorem byteWord_top2 (op m : Byte) :
    (byteWord op m).extractLsb' 14 2 = op.extractLsb' 6 2 :=
  BitVec.extractLsb'_append_eq_of_le (by decide)

@[simp] theorem byteWord_top3 (op m : Byte) :
    (byteWord op m).extractLsb' 13 3 = op.extractLsb' 5 3 :=
  BitVec.extractLsb'_append_eq_of_le (by decide)

/-- A field of format B above the operand byte, as a field of the upper byte. -/
theorem bitWord_upper (op2 : BitVec 2) (i : Nat) (m : Byte) (start len : Nat) (h : 8 ≤ start) :
    (bitWord op2 i m).extractLsb' start len =
      (0b100#3 ++ op2 ++ BitVec.ofNat 3 i).extractLsb' (start - 8) len :=
  BitVec.extractLsb'_append_eq_of_le h

@[simp] theorem bitWord_top2 (op2 : BitVec 2) (i : Nat) (m : Byte) :
    (bitWord op2 i m).extractLsb' 14 2 = 0b10#2 := by
  rw [bitWord_upper _ _ _ _ _ (by decide), BitVec.extractLsb'_append_eq_of_le (by decide),
    BitVec.extractLsb'_append_eq_of_le (by decide)]
  decide

@[simp] theorem bitWord_top3 (op2 : BitVec 2) (i : Nat) (m : Byte) :
    (bitWord op2 i m).extractLsb' 13 3 = 0b100#3 := by
  rw [bitWord_upper _ _ _ _ _ (by decide), BitVec.extractLsb'_append_eq_of_le (by decide),
    BitVec.extractLsb'_append_eq_of_le (by decide)]
  decide

@[simp] theorem bitWord_op2 (op2 : BitVec 2) (i : Nat) (m : Byte) :
    (bitWord op2 i m).extractLsb' 11 2 = op2 := by
  rw [bitWord_upper _ _ _ _ _ (by decide), BitVec.extractLsb'_append_eq_of_le (by decide)]
  exact BitVec.extractLsb'_append_eq_right

@[simp] theorem bitWord_index (op2 : BitVec 2) (i : Nat) (m : Byte) :
    (bitWord op2 i m).extractLsb' 8 3 = BitVec.ofNat 3 i := by
  rw [bitWord_upper _ _ _ _ _ (by decide)]
  exact BitVec.extractLsb'_append_eq_right

@[simp] theorem bitWord_operand (op2 : BitVec 2) (i : Nat) (m : Byte) :
    (bitWord op2 i m).extractLsb' 0 8 = m :=
  BitVec.extractLsb'_append_eq_right

@[simp] theorem addrWord_top2 (op1 : BitVec 1) (addr : PAddr) :
    (addrWord op1 addr).extractLsb' 14 2 = 0b11#2 := by
  have h : (addrWord op1 addr).extractLsb' 14 2 = (0b11#2 ++ op1).extractLsb' 1 2 :=
    BitVec.extractLsb'_append_eq_of_le (by decide)
  rw [h]
  exact BitVec.extractLsb'_append_eq_left

@[simp] theorem addrWord_op1 (op1 : BitVec 1) (addr : PAddr) :
    (addrWord op1 addr).getLsbD 13 = op1.getLsbD 0 := by
  have h : (addrWord op1 addr).getLsbD 13 = (0b11#2 ++ op1).getLsbD 0 :=
    BitVec.getLsbD_append (x := 0b11#2 ++ op1) (y := addr)
  rw [h, BitVec.getLsbD_append]
  rfl

@[simp] theorem addrWord_operand (op1 : BitVec 1) (addr : PAddr) :
    (addrWord op1 addr).extractLsb' 0 13 = addr :=
  BitVec.extractLsb'_append_eq_right

/-- An opcode byte below 80H is not of format A. -/
theorem byteWord_top2_ne (op : Byte) (h : op.toNat < 0x80) : op.extractLsb' 6 2 ≠ 0b11#2 := by
  intro he
  have := congrArg BitVec.toNat he
  simp [BitVec.extractLsb'_toNat, Nat.shiftRight_eq_div_pow] at this
  omega

/-- An opcode byte below 80H is not of format B. -/
theorem byteWord_top3_ne (op : Byte) (h : op.toNat < 0x80) : op.extractLsb' 5 3 ≠ 0b100#3 := by
  intro he
  have := congrArg BitVec.toNat he
  simp [BitVec.extractLsb'_toNat, Nat.shiftRight_eq_div_pow] at this
  omega

/-- The decoder on a word of formats N, M and I: its opcode byte is below 80H. -/
theorem decode_byteWord (op m : Byte) (h : op.toNat < 0x80) :
    decode (byteWord op m) = decodeByteOp op m (byteWord op m) := by
  simp [decode, byteWord_top2_ne op h, byteWord_top3_ne op h]

/-- The decoder on a word of format B. -/
theorem decode_bitWord (op2 : BitVec 2) (i : Nat) (m : Byte) :
    decode (bitWord op2 i m) = .ok (decodeBitOp op2 (BitVec.ofNat 3 i) m) := by
  simp [decode]

/-- The decoder on a word of format A. -/
theorem decode_addrWord (op1 : BitVec 1) (addr : PAddr) :
    decode (addrWord op1 addr) = .ok (decodeAddrOp (op1.getLsbD 0) addr) := by
  unfold decode
  rw [if_pos (addrWord_top2 op1 addr), addrWord_op1, addrWord_operand]

end Sys2Proof
end

