-- ==== Sys2Proof/Laws/Exec.lean ====
section
/-! SUPPORT. The dispatch of `exec`, one lemma a constructor, so that no proof unfolds `exec`. -/

namespace Sys2Proof.Machine

@[simp] theorem exec_addAm (m : Byte) (s : State) : exec (.addAm m) s = execAddAm m s := rfl
@[simp] theorem exec_addmAm (m : Byte) (s : State) : exec (.addmAm m) s = execAddmAm m s := rfl
@[simp] theorem exec_addAx (x : Byte) (s : State) : exec (.addAx x) s = execAddAx x s := rfl
@[simp] theorem exec_adcAm (m : Byte) (s : State) : exec (.adcAm m) s = execAdcAm m s := rfl
@[simp] theorem exec_adcmAm (m : Byte) (s : State) : exec (.adcmAm m) s = execAdcmAm m s := rfl
@[simp] theorem exec_subAx (x : Byte) (s : State) : exec (.subAx x) s = execSubAx x s := rfl
@[simp] theorem exec_subAm (m : Byte) (s : State) : exec (.subAm m) s = execSubAm m s := rfl
@[simp] theorem exec_submAm (m : Byte) (s : State) : exec (.submAm m) s = execSubmAm m s := rfl
@[simp] theorem exec_sbcAm (m : Byte) (s : State) : exec (.sbcAm m) s = execSbcAm m s := rfl
@[simp] theorem exec_sbcmAm (m : Byte) (s : State) : exec (.sbcmAm m) s = execSbcmAm m s := rfl
@[simp] theorem exec_daa (m : Byte) (s : State) : exec (.daa m) s = execDaa m s := rfl
@[simp] theorem exec_andAm (m : Byte) (s : State) : exec (.andAm m) s = execAndAm m s := rfl
@[simp] theorem exec_orAm (m : Byte) (s : State) : exec (.orAm m) s = execOrAm m s := rfl
@[simp] theorem exec_xorAm (m : Byte) (s : State) : exec (.xorAm m) s = execXorAm m s := rfl
@[simp] theorem exec_andmAm (m : Byte) (s : State) : exec (.andmAm m) s = execAndmAm m s := rfl
@[simp] theorem exec_ormAm (m : Byte) (s : State) : exec (.ormAm m) s = execOrmAm m s := rfl
@[simp] theorem exec_xormAm (m : Byte) (s : State) : exec (.xormAm m) s = execXormAm m s := rfl
@[simp] theorem exec_andAx (x : Byte) (s : State) : exec (.andAx x) s = execAndAx x s := rfl
@[simp] theorem exec_orAx (x : Byte) (s : State) : exec (.orAx x) s = execOrAx x s := rfl
@[simp] theorem exec_xorAx (x : Byte) (s : State) : exec (.xorAx x) s = execXorAx x s := rfl
@[simp] theorem exec_cpl (m : Byte) (s : State) : exec (.cpl m) s = execCpl m s := rfl
@[simp] theorem exec_cpla (m : Byte) (s : State) : exec (.cpla m) s = execCpla m s := rfl
@[simp] theorem exec_inca (m : Byte) (s : State) : exec (.inca m) s = execInca m s := rfl
@[simp] theorem exec_inc (m : Byte) (s : State) : exec (.inc m) s = execInc m s := rfl
@[simp] theorem exec_deca (m : Byte) (s : State) : exec (.deca m) s = execDeca m s := rfl
@[simp] theorem exec_dec (m : Byte) (s : State) : exec (.dec m) s = execDec m s := rfl
@[simp] theorem exec_rra (m : Byte) (s : State) : exec (.rra m) s = execRra m s := rfl
@[simp] theorem exec_rr (m : Byte) (s : State) : exec (.rr m) s = execRr m s := rfl
@[simp] theorem exec_rrca (m : Byte) (s : State) : exec (.rrca m) s = execRrca m s := rfl
@[simp] theorem exec_rrc (m : Byte) (s : State) : exec (.rrc m) s = execRrc m s := rfl
@[simp] theorem exec_rla (m : Byte) (s : State) : exec (.rla m) s = execRla m s := rfl
@[simp] theorem exec_rl (m : Byte) (s : State) : exec (.rl m) s = execRl m s := rfl
@[simp] theorem exec_rlca (m : Byte) (s : State) : exec (.rlca m) s = execRlca m s := rfl
@[simp] theorem exec_rlc (m : Byte) (s : State) : exec (.rlc m) s = execRlc m s := rfl
@[simp] theorem exec_movAm (m : Byte) (s : State) : exec (.movAm m) s = execMovAm m s := rfl
@[simp] theorem exec_movMa (m : Byte) (s : State) : exec (.movMa m) s = execMovMa m s := rfl
@[simp] theorem exec_movAx (x : Byte) (s : State) : exec (.movAx x) s = execMovAx x s := rfl
@[simp] theorem exec_clrBit (m : Byte) (i : Nat) (s : State) :
    exec (.clrBit m i) s = execClrBit m i s := rfl
@[simp] theorem exec_setBit (m : Byte) (i : Nat) (s : State) :
    exec (.setBit m i) s = execSetBit m i s := rfl
@[simp] theorem exec_jmp (addr : PAddr) (s : State) : exec (.jmp addr) s = execJmp addr s := rfl
@[simp] theorem exec_sz (m : Byte) (s : State) : exec (.sz m) s = execSz m s := rfl
@[simp] theorem exec_sza (m : Byte) (s : State) : exec (.sza m) s = execSza m s := rfl
@[simp] theorem exec_szBit (m : Byte) (i : Nat) (s : State) :
    exec (.szBit m i) s = execSzBit m i s := rfl
@[simp] theorem exec_snzBit (m : Byte) (i : Nat) (s : State) :
    exec (.snzBit m i) s = execSnzBit m i s := rfl
@[simp] theorem exec_siz (m : Byte) (s : State) : exec (.siz m) s = execSiz m s := rfl
@[simp] theorem exec_sdz (m : Byte) (s : State) : exec (.sdz m) s = execSdz m s := rfl
@[simp] theorem exec_siza (m : Byte) (s : State) : exec (.siza m) s = execSiza m s := rfl
@[simp] theorem exec_sdza (m : Byte) (s : State) : exec (.sdza m) s = execSdza m s := rfl
@[simp] theorem exec_call (addr : PAddr) (s : State) : exec (.call addr) s = execCall addr s := rfl
@[simp] theorem exec_ret (s : State) : exec .ret s = execRet s := rfl
@[simp] theorem exec_retAx (x : Byte) (s : State) : exec (.retAx x) s = execRetAx x s := rfl
@[simp] theorem exec_reti (s : State) : exec .reti s = execReti s := rfl
@[simp] theorem exec_tabrdc (m : Byte) (s : State) : exec (.tabrdc m) s = execTabrdc m s := rfl
@[simp] theorem exec_tabrdl (m : Byte) (s : State) : exec (.tabrdl m) s = execTabrdl m s := rfl
@[simp] theorem exec_nop (s : State) : exec .nop s = execNop s := rfl
@[simp] theorem exec_clr (m : Byte) (s : State) : exec (.clr m) s = execClr m s := rfl
@[simp] theorem exec_set (m : Byte) (s : State) : exec (.set m) s = execSet m s := rfl
@[simp] theorem exec_clrWdt (s : State) : exec .clrWdt s = execClrWdt s := rfl
@[simp] theorem exec_clrWdt1 (s : State) : exec .clrWdt1 s = execClrWdt1 s := rfl
@[simp] theorem exec_clrWdt2 (s : State) : exec .clrWdt2 s = execClrWdt2 s := rfl
@[simp] theorem exec_swap (m : Byte) (s : State) : exec (.swap m) s = execSwap m s := rfl
@[simp] theorem exec_swapa (m : Byte) (s : State) : exec (.swapa m) s = execSwapa m s := rfl
@[simp] theorem exec_halt (s : State) : exec .halt s = execHalt s := rfl

end Sys2Proof.Machine
end

