-- ==== Sys2Proof/Laws/Flags.lean ====
section
/-! SUPPORT. What the adder, the rotates and the byte views of the registers deliver, in whole numbers
and bit by bit, so that no proof unfolds them. -/

namespace Sys2Proof.Machine

/-! ### The adder -/

/-- The highest bit of a number of `k + 1` bits. -/
theorem testBit_top {x k : Nat} (h : x < 2 * 2 ^ k) : x.testBit k = decide (2 ^ k ≤ x) := by
  rw [Nat.testBit_eq_decide_div_mod_eq]
  by_cases hx : 2 ^ k ≤ x
  · have : x / 2 ^ k = 1 := Nat.div_eq_of_lt_le (by omega) (by omega)
    simp [this, hx]
  · have : x / 2 ^ k = 0 := Nat.div_eq_of_lt (by omega)
    simp [this, hx]

theorem add8_toNat (a b : Byte) (c : Bool) :
    (a.setWidth 9 + b.setWidth 9 + (BitVec.ofBool c).setWidth 9).toNat =
      a.toNat + b.toNat + c.toNat := by
  have ha := a.isLt
  have hb := b.isLt
  cases c <;> simp [BitVec.toNat_add] <;> omega

theorem add8_r (a b : Byte) (c : Bool) :
    (add8 a b c).r = BitVec.ofNat 8 (a.toNat + b.toNat + c.toNat) := by
  apply BitVec.eq_of_toNat_eq
  have h := add8_toNat a b c
  simp only [add8, BitVec.extractLsb'_toNat, h, Nat.shiftRight_zero, BitVec.toNat_ofNat]

theorem add8_cout (a b : Byte) (c : Bool) :
    (add8 a b c).cout = decide (256 ≤ a.toNat + b.toNat + c.toNat) := by
  have h := add8_toNat a b c
  have ha := a.isLt
  have hb := b.isLt
  have hc : c.toNat ≤ 1 := by cases c <;> simp
  simp only [add8, BitVec.getLsbD, h]
  exact testBit_top (by omega)

theorem add8_zo (a b : Byte) (c : Bool) :
    (add8 a b c).zo = decide ((a.toNat + b.toNat + c.toNat) % 256 = 0) := by
  have h : (add8 a b c).zo = ((add8 a b c).r == 0#8) := rfl
  rw [h, add8_r, Bool.eq_iff_iff]
  simp [BitVec.toNat_eq]

theorem add8_nibble (a b : Byte) (c : Bool) :
    ((a.extractLsb' 0 4).setWidth 5 + (b.extractLsb' 0 4).setWidth 5
      + (BitVec.ofBool c).setWidth 5).toNat = a.toNat % 16 + b.toNat % 16 + c.toNat := by
  have hc : c.toNat ≤ 1 := by cases c <;> simp
  simp [BitVec.toNat_add, BitVec.extractLsb'_toNat]
  omega

theorem add8_aco (a b : Byte) (c : Bool) :
    (add8 a b c).aco = decide (16 ≤ a.toNat % 16 + b.toNat % 16 + c.toNat) := by
  have h := add8_nibble a b c
  have hc : c.toNat ≤ 1 := by cases c <;> simp
  simp only [add8, BitVec.getLsbD, h]
  exact testBit_top (by omega)

theorem add8_low7 (a b : Byte) (c : Bool) :
    ((a.extractLsb' 0 7).setWidth 8 + (b.extractLsb' 0 7).setWidth 8
      + (BitVec.ofBool c).setWidth 8).toNat = a.toNat % 128 + b.toNat % 128 + c.toNat := by
  have hc : c.toNat ≤ 1 := by cases c <;> simp
  simp [BitVec.toNat_add, BitVec.extractLsb'_toNat]
  omega

/-- OV is the overflow of the signed sum (40_arithmetic.md R200). -/
theorem add8_ovo (a b : Byte) (c : Bool) :
    (add8 a b c).ovo =
      decide (a.toInt + b.toInt + c.toNat < -128 ∨ 127 < a.toInt + b.toInt + c.toNat) := by
  have h7 := add8_low7 a b c
  have hc : c.toNat ≤ 1 := by cases c <;> simp
  have ha := a.isLt
  have hb := b.isLt
  have hcout := add8_cout a b c
  have hov : (add8 a b c).ovo =
      (((a.extractLsb' 0 7).setWidth 8 + (b.extractLsb' 0 7).setWidth 8
        + (BitVec.ofBool c).setWidth 8).getLsbD 7 != (add8 a b c).cout) := rfl
  have h7' : ((a.extractLsb' 0 7).setWidth 8 + (b.extractLsb' 0 7).setWidth 8
        + (BitVec.ofBool c).setWidth 8).getLsbD 7 =
      decide (128 ≤ a.toNat % 128 + b.toNat % 128 + c.toNat) := by
    simp only [BitVec.getLsbD, h7]
    exact testBit_top (by omega)
  rw [hov, h7', hcout, Bool.eq_iff_iff]
  simp only [bne_iff_ne, ne_eq, decide_eq_decide, decide_eq_true_eq, BitVec.toInt_eq_toNat_cond]
  split <;> split <;> omega

theorem Byte.toNat_not (b : Byte) : (~~~b).toNat = 255 - b.toNat := by
  simp [BitVec.toNat_not]

theorem Byte.toInt_not (b : Byte) : (~~~b).toInt = -1 - b.toInt := by
  have h := Byte.toNat_not b
  have hb := b.isLt
  simp only [BitVec.toInt_eq_toNat_cond, h]
  split <;> split <;> omega

/-! ### Rotates and swap, bit by bit -/

theorem rotRight_bit (v : Byte) (k : Nat) (h : k < 7) :
    (rotRight v).getLsbD k = v.getLsbD (k + 1) := by
  have h1 : (rotRight v).getLsbD k = (BitVec.ofBool (v.getLsbD 0) ++ v.extractLsb' 1 7).getLsbD k :=
    rfl
  rw [h1, BitVec.getLsbD_append]
  simp [h, Nat.add_comm]

theorem rotRight_top (v : Byte) : (rotRight v).getLsbD 7 = v.getLsbD 0 := by
  have h1 : (rotRight v).getLsbD 7 = (BitVec.ofBool (v.getLsbD 0) ++ v.extractLsb' 1 7).getLsbD 7 :=
    rfl
  rw [h1, BitVec.getLsbD_append]
  simp

theorem rotRightC_bit (v : Byte) (c : Bool) (k : Nat) (h : k < 7) :
    (rotRightC v c).getLsbD k = v.getLsbD (k + 1) := by
  have h1 : (rotRightC v c).getLsbD k = (BitVec.ofBool c ++ v.extractLsb' 1 7).getLsbD k := rfl
  rw [h1, BitVec.getLsbD_append]
  simp [h, Nat.add_comm]

theorem rotRightC_top (v : Byte) (c : Bool) : (rotRightC v c).getLsbD 7 = c := by
  have h1 : (rotRightC v c).getLsbD 7 = (BitVec.ofBool c ++ v.extractLsb' 1 7).getLsbD 7 := rfl
  rw [h1, BitVec.getLsbD_append]
  simp

theorem rotLeft_bit (v : Byte) (k : Nat) (h : k < 7) :
    (rotLeft v).getLsbD (k + 1) = v.getLsbD k := by
  have h1 : (rotLeft v).getLsbD (k + 1) =
      (v.extractLsb' 0 7 ++ BitVec.ofBool (v.getLsbD 7)).getLsbD (k + 1) := rfl
  rw [h1, BitVec.getLsbD_append]
  simp [h]

theorem rotLeft_low (v : Byte) : (rotLeft v).getLsbD 0 = v.getLsbD 7 := by
  have h1 : (rotLeft v).getLsbD 0 =
      (v.extractLsb' 0 7 ++ BitVec.ofBool (v.getLsbD 7)).getLsbD 0 := rfl
  rw [h1, BitVec.getLsbD_append]
  simp

theorem rotLeftC_bit (v : Byte) (c : Bool) (k : Nat) (h : k < 7) :
    (rotLeftC v c).getLsbD (k + 1) = v.getLsbD k := by
  have h1 : (rotLeftC v c).getLsbD (k + 1) =
      (v.extractLsb' 0 7 ++ BitVec.ofBool c).getLsbD (k + 1) := rfl
  rw [h1, BitVec.getLsbD_append]
  simp [h]

theorem rotLeftC_low (v : Byte) (c : Bool) : (rotLeftC v c).getLsbD 0 = c := by
  have h1 : (rotLeftC v c).getLsbD 0 = (v.extractLsb' 0 7 ++ BitVec.ofBool c).getLsbD 0 := rfl
  rw [h1, BitVec.getLsbD_append]
  simp

theorem swapNibbles_low (v : Byte) (k : Nat) (h : k < 4) :
    (swapNibbles v).getLsbD k = v.getLsbD (k + 4) := by
  have h1 : (swapNibbles v).getLsbD k = (v.extractLsb' 0 4 ++ v.extractLsb' 4 4).getLsbD k := rfl
  rw [h1, BitVec.getLsbD_append]
  simp [h, Nat.add_comm]

theorem swapNibbles_high (v : Byte) (k : Nat) (h : k < 4) :
    (swapNibbles v).getLsbD (k + 4) = v.getLsbD k := by
  have h1 : (swapNibbles v).getLsbD (k + 4) =
      (v.extractLsb' 0 4 ++ v.extractLsb' 4 4).getLsbD (k + 4) := rfl
  rw [h1, BitVec.getLsbD_append]
  simp [h]

/-! ### Ports -/

/-- A line of a port: its latch as an output; as an input what drives it, else the pull-high option or
the floating level (20_memory.md R116). -/
theorem Port.levels_bit (p : Port) (pullHigh : Bool) (float : Byte) {k : Nat} (h : k < 8) :
    (p.levels pullHigh float).getLsbD k =
      if p.ctrl.getLsbD k then
        if p.driven.getLsbD k then p.level.getLsbD k else pullHigh || float.getLsbD k
      else p.latch.getLsbD k := by
  have ones : (0xFF#8).getLsbD k = true := by
    have : k ∈ List.range 8 := List.mem_range.mpr h
    revert this
    revert k
    decide
  unfold Port.levels
  cases pullHigh <;>
    simp only [BitVec.getLsbD_or, BitVec.getLsbD_and, BitVec.getLsbD_not, h] <;>
    cases p.ctrl.getLsbD k <;> cases p.driven.getLsbD k <;> simp [ones]

/-! ### LATCHnH -/

theorem latchHighByte_bit0 (part : Config.Part) (l : BitVec 18) (float : Byte) :
    (latchHighByte part l float).getLsbD 0 = l.getLsbD 16 := by
  cases part
  · have h : (latchHighByte .ht86030 l float).getLsbD 0 =
        (float.extractLsb' 1 7 ++ bit (l.getLsbD 16)).getLsbD 0 := rfl
    rw [h, BitVec.getLsbD_append]
    simp [bit]
  · have h : (latchHighByte .ht86070 l float).getLsbD 0 =
        (float.extractLsb' 2 6 ++ l.extractLsb' 16 2).getLsbD 0 := rfl
    rw [h, BitVec.getLsbD_append]
    simp

theorem latchHighByte_bit1 (l : BitVec 18) (float : Byte) :
    (latchHighByte .ht86070 l float).getLsbD 1 = l.getLsbD 17 := by
  have h : (latchHighByte .ht86070 l float).getLsbD 1 =
      (float.extractLsb' 2 6 ++ l.extractLsb' 16 2).getLsbD 1 := rfl
  rw [h, BitVec.getLsbD_append]
  simp

end Sys2Proof.Machine
end

