-- ==== Sys2Proof/Laws/Memory.lean ====
section
/-! SUPPORT. The laws of memories: a read after a write, and the canonical form. -/

namespace Sys2Proof

variable {w : Nat} {d : BitVec w}

theorem Memory.wfFrom_cons {lo hi a : Nat} {v : BitVec w} {rest : Memory w} :
    Memory.wfFrom d lo hi ((a, v) :: rest) = true ↔
      lo ≤ a ∧ a < hi ∧ v ≠ d ∧ Memory.wfFrom d (a + 1) hi rest = true := by
  simp [Memory.wfFrom, and_assoc]

theorem Memory.wfFrom_mono {lo lo' hi : Nat} {m : Memory w} (h : lo' ≤ lo)
    (hm : Memory.wfFrom d lo hi m = true) : Memory.wfFrom d lo' hi m = true := by
  cases m with
  | nil => rfl
  | cons c rest =>
    obtain ⟨a, v⟩ := c
    rw [Memory.wfFrom_cons] at hm ⊢
    exact ⟨by omega, hm.2⟩

/-- Below the lowest address of a canonical memory nothing is listed. -/
theorem Memory.read_below {lo hi : Nat} {m : Memory w} (hm : Memory.wfFrom d lo hi m = true)
    {a : Nat} (ha : a < lo) : Memory.read d m a = d := by
  induction m generalizing lo with
  | nil => rfl
  | cons c rest ih =>
    obtain ⟨b, v⟩ := c
    rw [Memory.wfFrom_cons] at hm
    have hab : a ≠ b := by omega
    simp [Memory.read, hab, ih hm.2.2.2 (by omega)]

theorem Memory.read_put_same (m : Memory w) (a : Nat) (v : BitVec w) :
    Memory.read d (Memory.put a v m) a = v := by
  induction m with
  | nil => simp [Memory.put, Memory.read]
  | cons c rest ih =>
    obtain ⟨b, u⟩ := c
    simp only [Memory.put]
    split
    · simp [Memory.read]
    · split
      · simp [Memory.read]
      · simp [Memory.read, *]

theorem Memory.read_put_other (m : Memory w) {a b : Nat} (v : BitVec w) (h : b ≠ a) :
    Memory.read d (Memory.put a v m) b = Memory.read d m b := by
  induction m with
  | nil => simp [Memory.put, Memory.read, h]
  | cons c rest ih =>
    obtain ⟨e, u⟩ := c
    simp only [Memory.put]
    split
    · simp [Memory.read, h]
    · split
      · rename_i he
        subst he
        simp [Memory.read, h]
      · simp [Memory.read, ih]

theorem Memory.read_erase_same {lo hi : Nat} {m : Memory w}
    (hm : Memory.wfFrom d lo hi m = true) (a : Nat) :
    Memory.read d (Memory.erase a m) a = d := by
  induction m generalizing lo with
  | nil => rfl
  | cons c rest ih =>
    obtain ⟨b, u⟩ := c
    rw [Memory.wfFrom_cons] at hm
    simp only [Memory.erase]
    split
    · rename_i hab
      subst hab
      exact Memory.read_below hm.2.2.2 (by omega)
    · rename_i hab
      simp [Memory.read, hab, ih hm.2.2.2]

theorem Memory.read_erase_other (m : Memory w) {a b : Nat} (h : b ≠ a) :
    Memory.read d (Memory.erase a m) b = Memory.read d m b := by
  induction m with
  | nil => rfl
  | cons c rest ih =>
    obtain ⟨e, u⟩ := c
    simp only [Memory.erase]
    split
    · rename_i he
      subst he
      simp [Memory.read, h]
    · simp [Memory.read, ih]

/-- A read of the byte just written gives the value written. -/
theorem Memory.read_write_same {lo hi : Nat} {m : Memory w} (hm : Memory.wf d lo hi m = true)
    (a : Nat) (v : BitVec w) : Memory.read d (Memory.write d m a v) a = v := by
  unfold Memory.write
  split
  · rename_i h
    rw [h]
    exact Memory.read_erase_same hm a
  · exact Memory.read_put_same m a v

/-- A write leaves every other address alone. -/
theorem Memory.read_write_other (m : Memory w) {a b : Nat} (v : BitVec w) (h : b ≠ a) :
    Memory.read d (Memory.write d m a v) b = Memory.read d m b := by
  unfold Memory.write
  split
  · exact Memory.read_erase_other m h
  · exact Memory.read_put_other m v h

theorem Memory.put_wf {lo hi a : Nat} {v : BitVec w} {m : Memory w}
    (hm : Memory.wfFrom d lo hi m = true) (h1 : lo ≤ a) (h2 : a < hi) (hv : v ≠ d) :
    Memory.wfFrom d lo hi (Memory.put a v m) = true := by
  induction m generalizing lo with
  | nil => simp [Memory.put, Memory.wfFrom, h1, h2, hv]
  | cons c rest ih =>
    obtain ⟨b, u⟩ := c
    rw [Memory.wfFrom_cons] at hm
    simp only [Memory.put]
    split
    · rw [Memory.wfFrom_cons, Memory.wfFrom_cons]
      exact ⟨h1, h2, hv, by omega, hm.2⟩
    · split
      · rename_i hab
        subst hab
        rw [Memory.wfFrom_cons]
        exact ⟨h1, h2, hv, hm.2.2.2⟩
      · rw [Memory.wfFrom_cons]
        exact ⟨hm.1, hm.2.1, hm.2.2.1, ih hm.2.2.2 (by omega)⟩

theorem Memory.erase_wf {lo hi a : Nat} {m : Memory w} (hm : Memory.wfFrom d lo hi m = true) :
    Memory.wfFrom d lo hi (Memory.erase a m) = true := by
  induction m generalizing lo with
  | nil => rfl
  | cons c rest ih =>
    obtain ⟨b, u⟩ := c
    rw [Memory.wfFrom_cons] at hm
    simp only [Memory.erase]
    split
    · exact Memory.wfFrom_mono (by omega) hm.2.2.2
    · rw [Memory.wfFrom_cons]
      exact ⟨hm.1, hm.2.1, hm.2.2.1, ih hm.2.2.2⟩

/-- A write inside the range keeps the canonical form. -/
theorem Memory.write_wf {lo hi a : Nat} {v : BitVec w} {m : Memory w}
    (hm : Memory.wf d lo hi m = true) (h1 : lo ≤ a) (h2 : a < hi) :
    Memory.wf d lo hi (Memory.write d m a v) = true := by
  unfold Memory.write
  split
  · exact Memory.erase_wf hm
  · exact Memory.put_wf hm h1 h2 ‹_›

/-- A filled memory is canonical. -/
theorem Memory.fill_wf (f : Nat → BitVec w) (lo n : Nat) :
    Memory.wf d lo (lo + n) (Memory.fill d f lo n) = true := by
  unfold Memory.wf
  induction n generalizing lo with
  | zero => rfl
  | succ n ih =>
    have h := ih (lo + 1)
    rw [show lo + 1 + n = lo + (n + 1) by omega] at h
    simp only [Memory.fill]
    split
    · exact Memory.wfFrom_mono (by omega) h
    · rw [Memory.wfFrom_cons]
      exact ⟨by omega, by omega, ‹_›, h⟩

/-- A filled memory holds `f` at its addresses. -/
theorem Memory.read_fill (f : Nat → BitVec w) {lo n a : Nat} (h1 : lo ≤ a) (h2 : a < lo + n) :
    Memory.read d (Memory.fill d f lo n) a = f a := by
  induction n generalizing lo with
  | zero => omega
  | succ n ih =>
    simp only [Memory.fill]
    by_cases hal : a = lo
    · subst hal
      split
      · rename_i hf
        rw [hf]
        exact Memory.read_below (Memory.fill_wf f (a + 1) n) (by omega)
      · simp [Memory.read]
    · split
      · exact ih (by omega) (by omega)
      · simp [Memory.read, hal, ih (lo := lo + 1) (by omega) (by omega)]

theorem Memory.nil_wf (lo hi : Nat) : Memory.wf d lo hi [] = true := rfl

end Sys2Proof
end

