-- ==== Sys2Proof/Laws/State.lean ====
section
/-! SUPPORT. The fields of the named updates of State, one lemma a field and update, so that no proof
unfolds a record update. -/

namespace Sys2Proof.Machine

/-! ### `retire` -/

@[simp] theorem State.retire_acc (s : State) (n : Nat) : (s.retire n).acc = s.acc := rfl
@[simp] theorem State.retire_pc (s : State) (n : Nat) : (s.retire n).pc = s.pc := rfl
@[simp] theorem State.retire_fC (s : State) (n : Nat) : (s.retire n).fC = s.fC := rfl
@[simp] theorem State.retire_fAC (s : State) (n : Nat) : (s.retire n).fAC = s.fAC := rfl
@[simp] theorem State.retire_fZ (s : State) (n : Nat) : (s.retire n).fZ = s.fZ := rfl
@[simp] theorem State.retire_fOV (s : State) (n : Nat) : (s.retire n).fOV = s.fOV := rfl
@[simp] theorem State.retire_fPDF (s : State) (n : Nat) : (s.retire n).fPDF = s.fPDF := rfl
@[simp] theorem State.retire_fTO (s : State) (n : Nat) : (s.retire n).fTO = s.fTO := rfl
@[simp] theorem State.retire_stack (s : State) (n : Nat) : (s.retire n).stack = s.stack := rfl
@[simp] theorem State.retire_mp0 (s : State) (n : Nat) : (s.retire n).mp0 = s.mp0 := rfl
@[simp] theorem State.retire_mp1 (s : State) (n : Nat) : (s.retire n).mp1 = s.mp1 := rfl
@[simp] theorem State.retire_tblp (s : State) (n : Nat) : (s.retire n).tblp = s.tblp := rfl
@[simp] theorem State.retire_tbhp (s : State) (n : Nat) : (s.retire n).tbhp = s.tbhp := rfl
@[simp] theorem State.retire_tblh (s : State) (n : Nat) : (s.retire n).tblh = s.tblh := rfl
@[simp] theorem State.retire_wdts (s : State) (n : Nat) : (s.retire n).wdts = s.wdts := rfl
@[simp] theorem State.retire_emi (s : State) (n : Nat) : (s.retire n).emi = s.emi := rfl
@[simp] theorem State.retire_enable (s : State) (n : Nat) : (s.retire n).enable = s.enable := rfl
@[simp] theorem State.retire_request (s : State) (n : Nat) : (s.retire n).request = s.request := rfl
@[simp] theorem State.retire_t0 (s : State) (n : Nat) : (s.retire n).t0 = s.t0 := rfl
@[simp] theorem State.retire_t1 (s : State) (n : Nat) : (s.retire n).t1 = s.t1 := rfl
@[simp] theorem State.retire_t3 (s : State) (n : Nat) : (s.retire n).t3 = s.t3 := rfl
@[simp] theorem State.retire_pa (s : State) (n : Nat) : (s.retire n).pa = s.pa := rfl
@[simp] theorem State.retire_pb (s : State) (n : Nat) : (s.retire n).pb = s.pb := rfl
@[simp] theorem State.retire_latch0 (s : State) (n : Nat) : (s.retire n).latch0 = s.latch0 := rfl
@[simp] theorem State.retire_latch1 (s : State) (n : Nat) : (s.retire n).latch1 = s.latch1 := rfl
@[simp] theorem State.retire_dac (s : State) (n : Nat) : (s.retire n).dac = s.dac := rfl
@[simp] theorem State.retire_vromc (s : State) (n : Nat) : (s.retire n).vromc = s.vromc := rfl
@[simp] theorem State.retire_latchc (s : State) (n : Nat) : (s.retire n).latchc = s.latchc := rfl
@[simp] theorem State.retire_voiceB7 (s : State) (n : Nat) : (s.retire n).voiceB7 = s.voiceB7 := rfl
@[simp] theorem State.retire_dal (s : State) (n : Nat) : (s.retire n).dal = s.dal := rfl
@[simp] theorem State.retire_dah (s : State) (n : Nat) : (s.retire n).dah = s.dah := rfl
@[simp] theorem State.retire_vol (s : State) (n : Nat) : (s.retire n).vol = s.vol := rfl
@[simp] theorem State.retire_latchd (s : State) (n : Nat) : (s.retire n).latchd = s.latchd := rfl
@[simp] theorem State.retire_ram (s : State) (n : Nat) : (s.retire n).ram = s.ram := rfl
@[simp] theorem State.retire_wdtcnt (s : State) (n : Nat) : (s.retire n).wdtcnt = s.wdtcnt := rfl
@[simp] theorem State.retire_wdt1f (s : State) (n : Nat) : (s.retire n).wdt1f = s.wdt1f := rfl
@[simp] theorem State.retire_wdt2f (s : State) (n : Nat) : (s.retire n).wdt2f = s.wdt2f := rfl
@[simp] theorem State.retire_halted (s : State) (n : Nat) : (s.retire n).halted = s.halted := rfl
@[simp] theorem State.retire_haltPre (s : State) (n : Nat) : (s.retire n).haltPre = s.haltPre := rfl
@[simp] theorem State.retire_intPrev (s : State) (n : Nat) : (s.retire n).intPrev = s.intPrev := rfl
@[simp] theorem State.retire_paPrev (s : State) (n : Nat) : (s.retire n).paPrev = s.paPrev := rfl
@[simp] theorem State.retire_vromAge (s : State) (n : Nat) : (s.retire n).vromAge = s.vromAge := rfl
@[simp] theorem State.retire_rom (s : State) (n : Nat) : (s.retire n).rom = s.rom := rfl
@[simp] theorem State.retire_vrom (s : State) (n : Nat) : (s.retire n).vrom = s.vrom := rfl
@[simp] theorem State.retire_opt (s : State) (n : Nat) : (s.retire n).opt = s.opt := rfl
@[simp] theorem State.retire_env (s : State) (n : Nat) : (s.retire n).env = s.env := rfl
@[simp] theorem State.retire_draws (s : State) (n : Nat) : (s.retire n).draws = s.draws := rfl
@[simp] theorem State.retire_cycles (s : State) (n : Nat) :
    (s.retire n).cycles = s.cycles + n := rfl
@[simp] theorem State.retire_vromRestart (s : State) (n : Nat) :
    (s.retire n).vromRestart = s.vromRestart := rfl

/-! ### `draw` -/

@[simp] theorem State.draw_acc (s : State) : (s.draw.2).acc = s.acc := rfl
@[simp] theorem State.draw_pc (s : State) : (s.draw.2).pc = s.pc := rfl
@[simp] theorem State.draw_fC (s : State) : (s.draw.2).fC = s.fC := rfl
@[simp] theorem State.draw_fAC (s : State) : (s.draw.2).fAC = s.fAC := rfl
@[simp] theorem State.draw_fZ (s : State) : (s.draw.2).fZ = s.fZ := rfl
@[simp] theorem State.draw_fOV (s : State) : (s.draw.2).fOV = s.fOV := rfl
@[simp] theorem State.draw_fPDF (s : State) : (s.draw.2).fPDF = s.fPDF := rfl
@[simp] theorem State.draw_fTO (s : State) : (s.draw.2).fTO = s.fTO := rfl
@[simp] theorem State.draw_stack (s : State) : (s.draw.2).stack = s.stack := rfl
@[simp] theorem State.draw_mp0 (s : State) : (s.draw.2).mp0 = s.mp0 := rfl
@[simp] theorem State.draw_mp1 (s : State) : (s.draw.2).mp1 = s.mp1 := rfl
@[simp] theorem State.draw_tblp (s : State) : (s.draw.2).tblp = s.tblp := rfl
@[simp] theorem State.draw_tbhp (s : State) : (s.draw.2).tbhp = s.tbhp := rfl
@[simp] theorem State.draw_tblh (s : State) : (s.draw.2).tblh = s.tblh := rfl
@[simp] theorem State.draw_wdts (s : State) : (s.draw.2).wdts = s.wdts := rfl
@[simp] theorem State.draw_emi (s : State) : (s.draw.2).emi = s.emi := rfl
@[simp] theorem State.draw_enable (s : State) : (s.draw.2).enable = s.enable := rfl
@[simp] theorem State.draw_request (s : State) : (s.draw.2).request = s.request := rfl
@[simp] theorem State.draw_t0 (s : State) : (s.draw.2).t0 = s.t0 := rfl
@[simp] theorem State.draw_t1 (s : State) : (s.draw.2).t1 = s.t1 := rfl
@[simp] theorem State.draw_t3 (s : State) : (s.draw.2).t3 = s.t3 := rfl
@[simp] theorem State.draw_pa (s : State) : (s.draw.2).pa = s.pa := rfl
@[simp] theorem State.draw_pb (s : State) : (s.draw.2).pb = s.pb := rfl
@[simp] theorem State.draw_latch0 (s : State) : (s.draw.2).latch0 = s.latch0 := rfl
@[simp] theorem State.draw_latch1 (s : State) : (s.draw.2).latch1 = s.latch1 := rfl
@[simp] theorem State.draw_dac (s : State) : (s.draw.2).dac = s.dac := rfl
@[simp] theorem State.draw_vromc (s : State) : (s.draw.2).vromc = s.vromc := rfl
@[simp] theorem State.draw_latchc (s : State) : (s.draw.2).latchc = s.latchc := rfl
@[simp] theorem State.draw_voiceB7 (s : State) : (s.draw.2).voiceB7 = s.voiceB7 := rfl
@[simp] theorem State.draw_dal (s : State) : (s.draw.2).dal = s.dal := rfl
@[simp] theorem State.draw_dah (s : State) : (s.draw.2).dah = s.dah := rfl
@[simp] theorem State.draw_vol (s : State) : (s.draw.2).vol = s.vol := rfl
@[simp] theorem State.draw_latchd (s : State) : (s.draw.2).latchd = s.latchd := rfl
@[simp] theorem State.draw_ram (s : State) : (s.draw.2).ram = s.ram := rfl
@[simp] theorem State.draw_wdtcnt (s : State) : (s.draw.2).wdtcnt = s.wdtcnt := rfl
@[simp] theorem State.draw_wdt1f (s : State) : (s.draw.2).wdt1f = s.wdt1f := rfl
@[simp] theorem State.draw_wdt2f (s : State) : (s.draw.2).wdt2f = s.wdt2f := rfl
@[simp] theorem State.draw_halted (s : State) : (s.draw.2).halted = s.halted := rfl
@[simp] theorem State.draw_haltPre (s : State) : (s.draw.2).haltPre = s.haltPre := rfl
@[simp] theorem State.draw_intPrev (s : State) : (s.draw.2).intPrev = s.intPrev := rfl
@[simp] theorem State.draw_paPrev (s : State) : (s.draw.2).paPrev = s.paPrev := rfl
@[simp] theorem State.draw_vromAge (s : State) : (s.draw.2).vromAge = s.vromAge := rfl
@[simp] theorem State.draw_rom (s : State) : (s.draw.2).rom = s.rom := rfl
@[simp] theorem State.draw_vrom (s : State) : (s.draw.2).vrom = s.vrom := rfl
@[simp] theorem State.draw_opt (s : State) : (s.draw.2).opt = s.opt := rfl
@[simp] theorem State.draw_env (s : State) : (s.draw.2).env = s.env := rfl
@[simp] theorem State.draw_draws (s : State) : (s.draw.2).draws = s.draws + 1 := rfl
@[simp] theorem State.draw_cycles (s : State) : (s.draw.2).cycles = s.cycles := rfl
@[simp] theorem State.draw_vromRestart (s : State) : (s.draw.2).vromRestart = s.vromRestart := rfl

/-! ### `skip` -/

@[simp] theorem State.skip_acc (s : State) : (s.skip).acc = s.acc := rfl
@[simp] theorem State.skip_pc (s : State) : (s.skip).pc = s.pc + 1#13 := rfl
@[simp] theorem State.skip_fC (s : State) : (s.skip).fC = s.fC := rfl
@[simp] theorem State.skip_fAC (s : State) : (s.skip).fAC = s.fAC := rfl
@[simp] theorem State.skip_fZ (s : State) : (s.skip).fZ = s.fZ := rfl
@[simp] theorem State.skip_fOV (s : State) : (s.skip).fOV = s.fOV := rfl
@[simp] theorem State.skip_fPDF (s : State) : (s.skip).fPDF = s.fPDF := rfl
@[simp] theorem State.skip_fTO (s : State) : (s.skip).fTO = s.fTO := rfl
@[simp] theorem State.skip_stack (s : State) : (s.skip).stack = s.stack := rfl
@[simp] theorem State.skip_mp0 (s : State) : (s.skip).mp0 = s.mp0 := rfl
@[simp] theorem State.skip_mp1 (s : State) : (s.skip).mp1 = s.mp1 := rfl
@[simp] theorem State.skip_tblp (s : State) : (s.skip).tblp = s.tblp := rfl
@[simp] theorem State.skip_tbhp (s : State) : (s.skip).tbhp = s.tbhp := rfl
@[simp] theorem State.skip_tblh (s : State) : (s.skip).tblh = s.tblh := rfl
@[simp] theorem State.skip_wdts (s : State) : (s.skip).wdts = s.wdts := rfl
@[simp] theorem State.skip_emi (s : State) : (s.skip).emi = s.emi := rfl
@[simp] theorem State.skip_enable (s : State) : (s.skip).enable = s.enable := rfl
@[simp] theorem State.skip_request (s : State) : (s.skip).request = s.request := rfl
@[simp] theorem State.skip_t0 (s : State) : (s.skip).t0 = s.t0 := rfl
@[simp] theorem State.skip_t1 (s : State) : (s.skip).t1 = s.t1 := rfl
@[simp] theorem State.skip_t3 (s : State) : (s.skip).t3 = s.t3 := rfl
@[simp] theorem State.skip_pa (s : State) : (s.skip).pa = s.pa := rfl
@[simp] theorem State.skip_pb (s : State) : (s.skip).pb = s.pb := rfl
@[simp] theorem State.skip_latch0 (s : State) : (s.skip).latch0 = s.latch0 := rfl
@[simp] theorem State.skip_latch1 (s : State) : (s.skip).latch1 = s.latch1 := rfl
@[simp] theorem State.skip_dac (s : State) : (s.skip).dac = s.dac := rfl
@[simp] theorem State.skip_vromc (s : State) : (s.skip).vromc = s.vromc := rfl
@[simp] theorem State.skip_latchc (s : State) : (s.skip).latchc = s.latchc := rfl
@[simp] theorem State.skip_voiceB7 (s : State) : (s.skip).voiceB7 = s.voiceB7 := rfl
@[simp] theorem State.skip_dal (s : State) : (s.skip).dal = s.dal := rfl
@[simp] theorem State.skip_dah (s : State) : (s.skip).dah = s.dah := rfl
@[simp] theorem State.skip_vol (s : State) : (s.skip).vol = s.vol := rfl
@[simp] theorem State.skip_latchd (s : State) : (s.skip).latchd = s.latchd := rfl
@[simp] theorem State.skip_ram (s : State) : (s.skip).ram = s.ram := rfl
@[simp] theorem State.skip_wdtcnt (s : State) : (s.skip).wdtcnt = s.wdtcnt := rfl
@[simp] theorem State.skip_wdt1f (s : State) : (s.skip).wdt1f = s.wdt1f := rfl
@[simp] theorem State.skip_wdt2f (s : State) : (s.skip).wdt2f = s.wdt2f := rfl
@[simp] theorem State.skip_halted (s : State) : (s.skip).halted = s.halted := rfl
@[simp] theorem State.skip_haltPre (s : State) : (s.skip).haltPre = s.haltPre := rfl
@[simp] theorem State.skip_intPrev (s : State) : (s.skip).intPrev = s.intPrev := rfl
@[simp] theorem State.skip_paPrev (s : State) : (s.skip).paPrev = s.paPrev := rfl
@[simp] theorem State.skip_vromAge (s : State) : (s.skip).vromAge = s.vromAge := rfl
@[simp] theorem State.skip_rom (s : State) : (s.skip).rom = s.rom := rfl
@[simp] theorem State.skip_vrom (s : State) : (s.skip).vrom = s.vrom := rfl
@[simp] theorem State.skip_opt (s : State) : (s.skip).opt = s.opt := rfl
@[simp] theorem State.skip_env (s : State) : (s.skip).env = s.env := rfl
@[simp] theorem State.skip_draws (s : State) : (s.skip).draws = s.draws := rfl
@[simp] theorem State.skip_cycles (s : State) : (s.skip).cycles = s.cycles + 1 := rfl
@[simp] theorem State.skip_vromRestart (s : State) : (s.skip).vromRestart = s.vromRestart := rfl

/-! ### `withAddFlags` -/

@[simp] theorem State.withAddFlags_acc (s : State) (o : AddOut) :
    (s.withAddFlags o).acc = s.acc := rfl
@[simp] theorem State.withAddFlags_pc (s : State) (o : AddOut) : (s.withAddFlags o).pc = s.pc := rfl
@[simp] theorem State.withAddFlags_fC (s : State) (o : AddOut) :
    (s.withAddFlags o).fC = o.cout := rfl
@[simp] theorem State.withAddFlags_fAC (s : State) (o : AddOut) :
    (s.withAddFlags o).fAC = o.aco := rfl
@[simp] theorem State.withAddFlags_fZ (s : State) (o : AddOut) : (s.withAddFlags o).fZ = o.zo := rfl
@[simp] theorem State.withAddFlags_fOV (s : State) (o : AddOut) :
    (s.withAddFlags o).fOV = o.ovo := rfl
@[simp] theorem State.withAddFlags_fPDF (s : State) (o : AddOut) :
    (s.withAddFlags o).fPDF = s.fPDF := rfl
@[simp] theorem State.withAddFlags_fTO (s : State) (o : AddOut) :
    (s.withAddFlags o).fTO = s.fTO := rfl
@[simp] theorem State.withAddFlags_stack (s : State) (o : AddOut) :
    (s.withAddFlags o).stack = s.stack := rfl
@[simp] theorem State.withAddFlags_mp0 (s : State) (o : AddOut) :
    (s.withAddFlags o).mp0 = s.mp0 := rfl
@[simp] theorem State.withAddFlags_mp1 (s : State) (o : AddOut) :
    (s.withAddFlags o).mp1 = s.mp1 := rfl
@[simp] theorem State.withAddFlags_tblp (s : State) (o : AddOut) :
    (s.withAddFlags o).tblp = s.tblp := rfl
@[simp] theorem State.withAddFlags_tbhp (s : State) (o : AddOut) :
    (s.withAddFlags o).tbhp = s.tbhp := rfl
@[simp] theorem State.withAddFlags_tblh (s : State) (o : AddOut) :
    (s.withAddFlags o).tblh = s.tblh := rfl
@[simp] theorem State.withAddFlags_wdts (s : State) (o : AddOut) :
    (s.withAddFlags o).wdts = s.wdts := rfl
@[simp] theorem State.withAddFlags_emi (s : State) (o : AddOut) :
    (s.withAddFlags o).emi = s.emi := rfl
@[simp] theorem State.withAddFlags_enable (s : State) (o : AddOut) :
    (s.withAddFlags o).enable = s.enable := rfl
@[simp] theorem State.withAddFlags_request (s : State) (o : AddOut) :
    (s.withAddFlags o).request = s.request := rfl
@[simp] theorem State.withAddFlags_t0 (s : State) (o : AddOut) : (s.withAddFlags o).t0 = s.t0 := rfl
@[simp] theorem State.withAddFlags_t1 (s : State) (o : AddOut) : (s.withAddFlags o).t1 = s.t1 := rfl
@[simp] theorem State.withAddFlags_t3 (s : State) (o : AddOut) : (s.withAddFlags o).t3 = s.t3 := rfl
@[simp] theorem State.withAddFlags_pa (s : State) (o : AddOut) : (s.withAddFlags o).pa = s.pa := rfl
@[simp] theorem State.withAddFlags_pb (s : State) (o : AddOut) : (s.withAddFlags o).pb = s.pb := rfl
@[simp] theorem State.withAddFlags_latch0 (s : State) (o : AddOut) :
    (s.withAddFlags o).latch0 = s.latch0 := rfl
@[simp] theorem State.withAddFlags_latch1 (s : State) (o : AddOut) :
    (s.withAddFlags o).latch1 = s.latch1 := rfl
@[simp] theorem State.withAddFlags_dac (s : State) (o : AddOut) :
    (s.withAddFlags o).dac = s.dac := rfl
@[simp] theorem State.withAddFlags_vromc (s : State) (o : AddOut) :
    (s.withAddFlags o).vromc = s.vromc := rfl
@[simp] theorem State.withAddFlags_latchc (s : State) (o : AddOut) :
    (s.withAddFlags o).latchc = s.latchc := rfl
@[simp] theorem State.withAddFlags_voiceB7 (s : State) (o : AddOut) :
    (s.withAddFlags o).voiceB7 = s.voiceB7 := rfl
@[simp] theorem State.withAddFlags_dal (s : State) (o : AddOut) :
    (s.withAddFlags o).dal = s.dal := rfl
@[simp] theorem State.withAddFlags_dah (s : State) (o : AddOut) :
    (s.withAddFlags o).dah = s.dah := rfl
@[simp] theorem State.withAddFlags_vol (s : State) (o : AddOut) :
    (s.withAddFlags o).vol = s.vol := rfl
@[simp] theorem State.withAddFlags_latchd (s : State) (o : AddOut) :
    (s.withAddFlags o).latchd = s.latchd := rfl
@[simp] theorem State.withAddFlags_ram (s : State) (o : AddOut) :
    (s.withAddFlags o).ram = s.ram := rfl
@[simp] theorem State.withAddFlags_wdtcnt (s : State) (o : AddOut) :
    (s.withAddFlags o).wdtcnt = s.wdtcnt := rfl
@[simp] theorem State.withAddFlags_wdt1f (s : State) (o : AddOut) :
    (s.withAddFlags o).wdt1f = s.wdt1f := rfl
@[simp] theorem State.withAddFlags_wdt2f (s : State) (o : AddOut) :
    (s.withAddFlags o).wdt2f = s.wdt2f := rfl
@[simp] theorem State.withAddFlags_halted (s : State) (o : AddOut) :
    (s.withAddFlags o).halted = s.halted := rfl
@[simp] theorem State.withAddFlags_haltPre (s : State) (o : AddOut) :
    (s.withAddFlags o).haltPre = s.haltPre := rfl
@[simp] theorem State.withAddFlags_intPrev (s : State) (o : AddOut) :
    (s.withAddFlags o).intPrev = s.intPrev := rfl
@[simp] theorem State.withAddFlags_paPrev (s : State) (o : AddOut) :
    (s.withAddFlags o).paPrev = s.paPrev := rfl
@[simp] theorem State.withAddFlags_vromAge (s : State) (o : AddOut) :
    (s.withAddFlags o).vromAge = s.vromAge := rfl
@[simp] theorem State.withAddFlags_rom (s : State) (o : AddOut) :
    (s.withAddFlags o).rom = s.rom := rfl
@[simp] theorem State.withAddFlags_vrom (s : State) (o : AddOut) :
    (s.withAddFlags o).vrom = s.vrom := rfl
@[simp] theorem State.withAddFlags_opt (s : State) (o : AddOut) :
    (s.withAddFlags o).opt = s.opt := rfl
@[simp] theorem State.withAddFlags_env (s : State) (o : AddOut) :
    (s.withAddFlags o).env = s.env := rfl
@[simp] theorem State.withAddFlags_draws (s : State) (o : AddOut) :
    (s.withAddFlags o).draws = s.draws := rfl
@[simp] theorem State.withAddFlags_cycles (s : State) (o : AddOut) :
    (s.withAddFlags o).cycles = s.cycles := rfl
@[simp] theorem State.withAddFlags_vromRestart (s : State) (o : AddOut) :
    (s.withAddFlags o).vromRestart = s.vromRestart := rfl

/-! ### `withZ` -/

@[simp] theorem State.withZ_acc (s : State) (r : Byte) : (s.withZ r).acc = s.acc := rfl
@[simp] theorem State.withZ_pc (s : State) (r : Byte) : (s.withZ r).pc = s.pc := rfl
@[simp] theorem State.withZ_fC (s : State) (r : Byte) : (s.withZ r).fC = s.fC := rfl
@[simp] theorem State.withZ_fAC (s : State) (r : Byte) : (s.withZ r).fAC = s.fAC := rfl
@[simp] theorem State.withZ_fZ (s : State) (r : Byte) : (s.withZ r).fZ = (r == 0#8) := rfl
@[simp] theorem State.withZ_fOV (s : State) (r : Byte) : (s.withZ r).fOV = s.fOV := rfl
@[simp] theorem State.withZ_fPDF (s : State) (r : Byte) : (s.withZ r).fPDF = s.fPDF := rfl
@[simp] theorem State.withZ_fTO (s : State) (r : Byte) : (s.withZ r).fTO = s.fTO := rfl
@[simp] theorem State.withZ_stack (s : State) (r : Byte) : (s.withZ r).stack = s.stack := rfl
@[simp] theorem State.withZ_mp0 (s : State) (r : Byte) : (s.withZ r).mp0 = s.mp0 := rfl
@[simp] theorem State.withZ_mp1 (s : State) (r : Byte) : (s.withZ r).mp1 = s.mp1 := rfl
@[simp] theorem State.withZ_tblp (s : State) (r : Byte) : (s.withZ r).tblp = s.tblp := rfl
@[simp] theorem State.withZ_tbhp (s : State) (r : Byte) : (s.withZ r).tbhp = s.tbhp := rfl
@[simp] theorem State.withZ_tblh (s : State) (r : Byte) : (s.withZ r).tblh = s.tblh := rfl
@[simp] theorem State.withZ_wdts (s : State) (r : Byte) : (s.withZ r).wdts = s.wdts := rfl
@[simp] theorem State.withZ_emi (s : State) (r : Byte) : (s.withZ r).emi = s.emi := rfl
@[simp] theorem State.withZ_enable (s : State) (r : Byte) : (s.withZ r).enable = s.enable := rfl
@[simp] theorem State.withZ_request (s : State) (r : Byte) : (s.withZ r).request = s.request := rfl
@[simp] theorem State.withZ_t0 (s : State) (r : Byte) : (s.withZ r).t0 = s.t0 := rfl
@[simp] theorem State.withZ_t1 (s : State) (r : Byte) : (s.withZ r).t1 = s.t1 := rfl
@[simp] theorem State.withZ_t3 (s : State) (r : Byte) : (s.withZ r).t3 = s.t3 := rfl
@[simp] theorem State.withZ_pa (s : State) (r : Byte) : (s.withZ r).pa = s.pa := rfl
@[simp] theorem State.withZ_pb (s : State) (r : Byte) : (s.withZ r).pb = s.pb := rfl
@[simp] theorem State.withZ_latch0 (s : State) (r : Byte) : (s.withZ r).latch0 = s.latch0 := rfl
@[simp] theorem State.withZ_latch1 (s : State) (r : Byte) : (s.withZ r).latch1 = s.latch1 := rfl
@[simp] theorem State.withZ_dac (s : State) (r : Byte) : (s.withZ r).dac = s.dac := rfl
@[simp] theorem State.withZ_vromc (s : State) (r : Byte) : (s.withZ r).vromc = s.vromc := rfl
@[simp] theorem State.withZ_latchc (s : State) (r : Byte) : (s.withZ r).latchc = s.latchc := rfl
@[simp] theorem State.withZ_voiceB7 (s : State) (r : Byte) : (s.withZ r).voiceB7 = s.voiceB7 := rfl
@[simp] theorem State.withZ_dal (s : State) (r : Byte) : (s.withZ r).dal = s.dal := rfl
@[simp] theorem State.withZ_dah (s : State) (r : Byte) : (s.withZ r).dah = s.dah := rfl
@[simp] theorem State.withZ_vol (s : State) (r : Byte) : (s.withZ r).vol = s.vol := rfl
@[simp] theorem State.withZ_latchd (s : State) (r : Byte) : (s.withZ r).latchd = s.latchd := rfl
@[simp] theorem State.withZ_ram (s : State) (r : Byte) : (s.withZ r).ram = s.ram := rfl
@[simp] theorem State.withZ_wdtcnt (s : State) (r : Byte) : (s.withZ r).wdtcnt = s.wdtcnt := rfl
@[simp] theorem State.withZ_wdt1f (s : State) (r : Byte) : (s.withZ r).wdt1f = s.wdt1f := rfl
@[simp] theorem State.withZ_wdt2f (s : State) (r : Byte) : (s.withZ r).wdt2f = s.wdt2f := rfl
@[simp] theorem State.withZ_halted (s : State) (r : Byte) : (s.withZ r).halted = s.halted := rfl
@[simp] theorem State.withZ_haltPre (s : State) (r : Byte) : (s.withZ r).haltPre = s.haltPre := rfl
@[simp] theorem State.withZ_intPrev (s : State) (r : Byte) : (s.withZ r).intPrev = s.intPrev := rfl
@[simp] theorem State.withZ_paPrev (s : State) (r : Byte) : (s.withZ r).paPrev = s.paPrev := rfl
@[simp] theorem State.withZ_vromAge (s : State) (r : Byte) : (s.withZ r).vromAge = s.vromAge := rfl
@[simp] theorem State.withZ_rom (s : State) (r : Byte) : (s.withZ r).rom = s.rom := rfl
@[simp] theorem State.withZ_vrom (s : State) (r : Byte) : (s.withZ r).vrom = s.vrom := rfl
@[simp] theorem State.withZ_opt (s : State) (r : Byte) : (s.withZ r).opt = s.opt := rfl
@[simp] theorem State.withZ_env (s : State) (r : Byte) : (s.withZ r).env = s.env := rfl
@[simp] theorem State.withZ_draws (s : State) (r : Byte) : (s.withZ r).draws = s.draws := rfl
@[simp] theorem State.withZ_cycles (s : State) (r : Byte) : (s.withZ r).cycles = s.cycles := rfl
@[simp] theorem State.withZ_vromRestart (s : State) (r : Byte) :
    (s.withZ r).vromRestart = s.vromRestart := rfl

/-! ### `withC` -/

@[simp] theorem State.withC_acc (s : State) (c : Bool) : (s.withC c).acc = s.acc := rfl
@[simp] theorem State.withC_pc (s : State) (c : Bool) : (s.withC c).pc = s.pc := rfl
@[simp] theorem State.withC_fC (s : State) (c : Bool) : (s.withC c).fC = c := rfl
@[simp] theorem State.withC_fAC (s : State) (c : Bool) : (s.withC c).fAC = s.fAC := rfl
@[simp] theorem State.withC_fZ (s : State) (c : Bool) : (s.withC c).fZ = s.fZ := rfl
@[simp] theorem State.withC_fOV (s : State) (c : Bool) : (s.withC c).fOV = s.fOV := rfl
@[simp] theorem State.withC_fPDF (s : State) (c : Bool) : (s.withC c).fPDF = s.fPDF := rfl
@[simp] theorem State.withC_fTO (s : State) (c : Bool) : (s.withC c).fTO = s.fTO := rfl
@[simp] theorem State.withC_stack (s : State) (c : Bool) : (s.withC c).stack = s.stack := rfl
@[simp] theorem State.withC_mp0 (s : State) (c : Bool) : (s.withC c).mp0 = s.mp0 := rfl
@[simp] theorem State.withC_mp1 (s : State) (c : Bool) : (s.withC c).mp1 = s.mp1 := rfl
@[simp] theorem State.withC_tblp (s : State) (c : Bool) : (s.withC c).tblp = s.tblp := rfl
@[simp] theorem State.withC_tbhp (s : State) (c : Bool) : (s.withC c).tbhp = s.tbhp := rfl
@[simp] theorem State.withC_tblh (s : State) (c : Bool) : (s.withC c).tblh = s.tblh := rfl
@[simp] theorem State.withC_wdts (s : State) (c : Bool) : (s.withC c).wdts = s.wdts := rfl
@[simp] theorem State.withC_emi (s : State) (c : Bool) : (s.withC c).emi = s.emi := rfl
@[simp] theorem State.withC_enable (s : State) (c : Bool) : (s.withC c).enable = s.enable := rfl
@[simp] theorem State.withC_request (s : State) (c : Bool) : (s.withC c).request = s.request := rfl
@[simp] theorem State.withC_t0 (s : State) (c : Bool) : (s.withC c).t0 = s.t0 := rfl
@[simp] theorem State.withC_t1 (s : State) (c : Bool) : (s.withC c).t1 = s.t1 := rfl
@[simp] theorem State.withC_t3 (s : State) (c : Bool) : (s.withC c).t3 = s.t3 := rfl
@[simp] theorem State.withC_pa (s : State) (c : Bool) : (s.withC c).pa = s.pa := rfl
@[simp] theorem State.withC_pb (s : State) (c : Bool) : (s.withC c).pb = s.pb := rfl
@[simp] theorem State.withC_latch0 (s : State) (c : Bool) : (s.withC c).latch0 = s.latch0 := rfl
@[simp] theorem State.withC_latch1 (s : State) (c : Bool) : (s.withC c).latch1 = s.latch1 := rfl
@[simp] theorem State.withC_dac (s : State) (c : Bool) : (s.withC c).dac = s.dac := rfl
@[simp] theorem State.withC_vromc (s : State) (c : Bool) : (s.withC c).vromc = s.vromc := rfl
@[simp] theorem State.withC_latchc (s : State) (c : Bool) : (s.withC c).latchc = s.latchc := rfl
@[simp] theorem State.withC_voiceB7 (s : State) (c : Bool) : (s.withC c).voiceB7 = s.voiceB7 := rfl
@[simp] theorem State.withC_dal (s : State) (c : Bool) : (s.withC c).dal = s.dal := rfl
@[simp] theorem State.withC_dah (s : State) (c : Bool) : (s.withC c).dah = s.dah := rfl
@[simp] theorem State.withC_vol (s : State) (c : Bool) : (s.withC c).vol = s.vol := rfl
@[simp] theorem State.withC_latchd (s : State) (c : Bool) : (s.withC c).latchd = s.latchd := rfl
@[simp] theorem State.withC_ram (s : State) (c : Bool) : (s.withC c).ram = s.ram := rfl
@[simp] theorem State.withC_wdtcnt (s : State) (c : Bool) : (s.withC c).wdtcnt = s.wdtcnt := rfl
@[simp] theorem State.withC_wdt1f (s : State) (c : Bool) : (s.withC c).wdt1f = s.wdt1f := rfl
@[simp] theorem State.withC_wdt2f (s : State) (c : Bool) : (s.withC c).wdt2f = s.wdt2f := rfl
@[simp] theorem State.withC_halted (s : State) (c : Bool) : (s.withC c).halted = s.halted := rfl
@[simp] theorem State.withC_haltPre (s : State) (c : Bool) : (s.withC c).haltPre = s.haltPre := rfl
@[simp] theorem State.withC_intPrev (s : State) (c : Bool) : (s.withC c).intPrev = s.intPrev := rfl
@[simp] theorem State.withC_paPrev (s : State) (c : Bool) : (s.withC c).paPrev = s.paPrev := rfl
@[simp] theorem State.withC_vromAge (s : State) (c : Bool) : (s.withC c).vromAge = s.vromAge := rfl
@[simp] theorem State.withC_rom (s : State) (c : Bool) : (s.withC c).rom = s.rom := rfl
@[simp] theorem State.withC_vrom (s : State) (c : Bool) : (s.withC c).vrom = s.vrom := rfl
@[simp] theorem State.withC_opt (s : State) (c : Bool) : (s.withC c).opt = s.opt := rfl
@[simp] theorem State.withC_env (s : State) (c : Bool) : (s.withC c).env = s.env := rfl
@[simp] theorem State.withC_draws (s : State) (c : Bool) : (s.withC c).draws = s.draws := rfl
@[simp] theorem State.withC_cycles (s : State) (c : Bool) : (s.withC c).cycles = s.cycles := rfl
@[simp] theorem State.withC_vromRestart (s : State) (c : Bool) :
    (s.withC c).vromRestart = s.vromRestart := rfl

/-! ### `ramWrite` -/

@[simp] theorem State.ramWrite_acc (s : State) (a v : Byte) : (s.ramWrite a v).acc = s.acc := rfl
@[simp] theorem State.ramWrite_pc (s : State) (a v : Byte) : (s.ramWrite a v).pc = s.pc := rfl
@[simp] theorem State.ramWrite_fC (s : State) (a v : Byte) : (s.ramWrite a v).fC = s.fC := rfl
@[simp] theorem State.ramWrite_fAC (s : State) (a v : Byte) : (s.ramWrite a v).fAC = s.fAC := rfl
@[simp] theorem State.ramWrite_fZ (s : State) (a v : Byte) : (s.ramWrite a v).fZ = s.fZ := rfl
@[simp] theorem State.ramWrite_fOV (s : State) (a v : Byte) : (s.ramWrite a v).fOV = s.fOV := rfl
@[simp] theorem State.ramWrite_fPDF (s : State) (a v : Byte) : (s.ramWrite a v).fPDF = s.fPDF := rfl
@[simp] theorem State.ramWrite_fTO (s : State) (a v : Byte) : (s.ramWrite a v).fTO = s.fTO := rfl
@[simp] theorem State.ramWrite_stack (s : State) (a v : Byte) :
    (s.ramWrite a v).stack = s.stack := rfl
@[simp] theorem State.ramWrite_mp0 (s : State) (a v : Byte) : (s.ramWrite a v).mp0 = s.mp0 := rfl
@[simp] theorem State.ramWrite_mp1 (s : State) (a v : Byte) : (s.ramWrite a v).mp1 = s.mp1 := rfl
@[simp] theorem State.ramWrite_tblp (s : State) (a v : Byte) : (s.ramWrite a v).tblp = s.tblp := rfl
@[simp] theorem State.ramWrite_tbhp (s : State) (a v : Byte) : (s.ramWrite a v).tbhp = s.tbhp := rfl
@[simp] theorem State.ramWrite_tblh (s : State) (a v : Byte) : (s.ramWrite a v).tblh = s.tblh := rfl
@[simp] theorem State.ramWrite_wdts (s : State) (a v : Byte) : (s.ramWrite a v).wdts = s.wdts := rfl
@[simp] theorem State.ramWrite_emi (s : State) (a v : Byte) : (s.ramWrite a v).emi = s.emi := rfl
@[simp] theorem State.ramWrite_enable (s : State) (a v : Byte) :
    (s.ramWrite a v).enable = s.enable := rfl
@[simp] theorem State.ramWrite_request (s : State) (a v : Byte) :
    (s.ramWrite a v).request = s.request := rfl
@[simp] theorem State.ramWrite_t0 (s : State) (a v : Byte) : (s.ramWrite a v).t0 = s.t0 := rfl
@[simp] theorem State.ramWrite_t1 (s : State) (a v : Byte) : (s.ramWrite a v).t1 = s.t1 := rfl
@[simp] theorem State.ramWrite_t3 (s : State) (a v : Byte) : (s.ramWrite a v).t3 = s.t3 := rfl
@[simp] theorem State.ramWrite_pa (s : State) (a v : Byte) : (s.ramWrite a v).pa = s.pa := rfl
@[simp] theorem State.ramWrite_pb (s : State) (a v : Byte) : (s.ramWrite a v).pb = s.pb := rfl
@[simp] theorem State.ramWrite_latch0 (s : State) (a v : Byte) :
    (s.ramWrite a v).latch0 = s.latch0 := rfl
@[simp] theorem State.ramWrite_latch1 (s : State) (a v : Byte) :
    (s.ramWrite a v).latch1 = s.latch1 := rfl
@[simp] theorem State.ramWrite_dac (s : State) (a v : Byte) : (s.ramWrite a v).dac = s.dac := rfl
@[simp] theorem State.ramWrite_vromc (s : State) (a v : Byte) :
    (s.ramWrite a v).vromc = s.vromc := rfl
@[simp] theorem State.ramWrite_latchc (s : State) (a v : Byte) :
    (s.ramWrite a v).latchc = s.latchc := rfl
@[simp] theorem State.ramWrite_voiceB7 (s : State) (a v : Byte) :
    (s.ramWrite a v).voiceB7 = s.voiceB7 := rfl
@[simp] theorem State.ramWrite_dal (s : State) (a v : Byte) : (s.ramWrite a v).dal = s.dal := rfl
@[simp] theorem State.ramWrite_dah (s : State) (a v : Byte) : (s.ramWrite a v).dah = s.dah := rfl
@[simp] theorem State.ramWrite_vol (s : State) (a v : Byte) : (s.ramWrite a v).vol = s.vol := rfl
@[simp] theorem State.ramWrite_latchd (s : State) (a v : Byte) :
    (s.ramWrite a v).latchd = s.latchd := rfl
@[simp] theorem State.ramWrite_ram (s : State) (a v : Byte) :
    (s.ramWrite a v).ram = Memory.write ramDefault s.ram a.toNat v := rfl
@[simp] theorem State.ramWrite_wdtcnt (s : State) (a v : Byte) :
    (s.ramWrite a v).wdtcnt = s.wdtcnt := rfl
@[simp] theorem State.ramWrite_wdt1f (s : State) (a v : Byte) :
    (s.ramWrite a v).wdt1f = s.wdt1f := rfl
@[simp] theorem State.ramWrite_wdt2f (s : State) (a v : Byte) :
    (s.ramWrite a v).wdt2f = s.wdt2f := rfl
@[simp] theorem State.ramWrite_halted (s : State) (a v : Byte) :
    (s.ramWrite a v).halted = s.halted := rfl
@[simp] theorem State.ramWrite_haltPre (s : State) (a v : Byte) :
    (s.ramWrite a v).haltPre = s.haltPre := rfl
@[simp] theorem State.ramWrite_intPrev (s : State) (a v : Byte) :
    (s.ramWrite a v).intPrev = s.intPrev := rfl
@[simp] theorem State.ramWrite_paPrev (s : State) (a v : Byte) :
    (s.ramWrite a v).paPrev = s.paPrev := rfl
@[simp] theorem State.ramWrite_vromAge (s : State) (a v : Byte) :
    (s.ramWrite a v).vromAge = s.vromAge := rfl
@[simp] theorem State.ramWrite_rom (s : State) (a v : Byte) : (s.ramWrite a v).rom = s.rom := rfl
@[simp] theorem State.ramWrite_vrom (s : State) (a v : Byte) : (s.ramWrite a v).vrom = s.vrom := rfl
@[simp] theorem State.ramWrite_opt (s : State) (a v : Byte) : (s.ramWrite a v).opt = s.opt := rfl
@[simp] theorem State.ramWrite_env (s : State) (a v : Byte) : (s.ramWrite a v).env = s.env := rfl
@[simp] theorem State.ramWrite_draws (s : State) (a v : Byte) :
    (s.ramWrite a v).draws = s.draws := rfl
@[simp] theorem State.ramWrite_cycles (s : State) (a v : Byte) :
    (s.ramWrite a v).cycles = s.cycles := rfl
@[simp] theorem State.ramWrite_vromRestart (s : State) (a v : Byte) :
    (s.ramWrite a v).vromRestart = s.vromRestart := rfl

/-! ### `writeStatus` -/

@[simp] theorem State.writeStatus_acc (s : State) (v : Byte) : (s.writeStatus v).acc = s.acc := rfl
@[simp] theorem State.writeStatus_pc (s : State) (v : Byte) : (s.writeStatus v).pc = s.pc := rfl
@[simp] theorem State.writeStatus_fC (s : State) (v : Byte) :
    (s.writeStatus v).fC = v.getLsbD 0 := rfl
@[simp] theorem State.writeStatus_fAC (s : State) (v : Byte) :
    (s.writeStatus v).fAC = v.getLsbD 1 := rfl
@[simp] theorem State.writeStatus_fZ (s : State) (v : Byte) :
    (s.writeStatus v).fZ = v.getLsbD 2 := rfl
@[simp] theorem State.writeStatus_fOV (s : State) (v : Byte) :
    (s.writeStatus v).fOV = v.getLsbD 3 := rfl
@[simp] theorem State.writeStatus_fPDF (s : State) (v : Byte) :
    (s.writeStatus v).fPDF = s.fPDF := rfl
@[simp] theorem State.writeStatus_fTO (s : State) (v : Byte) : (s.writeStatus v).fTO = s.fTO := rfl
@[simp] theorem State.writeStatus_stack (s : State) (v : Byte) :
    (s.writeStatus v).stack = s.stack := rfl
@[simp] theorem State.writeStatus_mp0 (s : State) (v : Byte) : (s.writeStatus v).mp0 = s.mp0 := rfl
@[simp] theorem State.writeStatus_mp1 (s : State) (v : Byte) : (s.writeStatus v).mp1 = s.mp1 := rfl
@[simp] theorem State.writeStatus_tblp (s : State) (v : Byte) :
    (s.writeStatus v).tblp = s.tblp := rfl
@[simp] theorem State.writeStatus_tbhp (s : State) (v : Byte) :
    (s.writeStatus v).tbhp = s.tbhp := rfl
@[simp] theorem State.writeStatus_tblh (s : State) (v : Byte) :
    (s.writeStatus v).tblh = s.tblh := rfl
@[simp] theorem State.writeStatus_wdts (s : State) (v : Byte) :
    (s.writeStatus v).wdts = s.wdts := rfl
@[simp] theorem State.writeStatus_emi (s : State) (v : Byte) : (s.writeStatus v).emi = s.emi := rfl
@[simp] theorem State.writeStatus_enable (s : State) (v : Byte) :
    (s.writeStatus v).enable = s.enable := rfl
@[simp] theorem State.writeStatus_request (s : State) (v : Byte) :
    (s.writeStatus v).request = s.request := rfl
@[simp] theorem State.writeStatus_t0 (s : State) (v : Byte) : (s.writeStatus v).t0 = s.t0 := rfl
@[simp] theorem State.writeStatus_t1 (s : State) (v : Byte) : (s.writeStatus v).t1 = s.t1 := rfl
@[simp] theorem State.writeStatus_t3 (s : State) (v : Byte) : (s.writeStatus v).t3 = s.t3 := rfl
@[simp] theorem State.writeStatus_pa (s : State) (v : Byte) : (s.writeStatus v).pa = s.pa := rfl
@[simp] theorem State.writeStatus_pb (s : State) (v : Byte) : (s.writeStatus v).pb = s.pb := rfl
@[simp] theorem State.writeStatus_latch0 (s : State) (v : Byte) :
    (s.writeStatus v).latch0 = s.latch0 := rfl
@[simp] theorem State.writeStatus_latch1 (s : State) (v : Byte) :
    (s.writeStatus v).latch1 = s.latch1 := rfl
@[simp] theorem State.writeStatus_dac (s : State) (v : Byte) : (s.writeStatus v).dac = s.dac := rfl
@[simp] theorem State.writeStatus_vromc (s : State) (v : Byte) :
    (s.writeStatus v).vromc = s.vromc := rfl
@[simp] theorem State.writeStatus_latchc (s : State) (v : Byte) :
    (s.writeStatus v).latchc = s.latchc := rfl
@[simp] theorem State.writeStatus_voiceB7 (s : State) (v : Byte) :
    (s.writeStatus v).voiceB7 = s.voiceB7 := rfl
@[simp] theorem State.writeStatus_dal (s : State) (v : Byte) : (s.writeStatus v).dal = s.dal := rfl
@[simp] theorem State.writeStatus_dah (s : State) (v : Byte) : (s.writeStatus v).dah = s.dah := rfl
@[simp] theorem State.writeStatus_vol (s : State) (v : Byte) : (s.writeStatus v).vol = s.vol := rfl
@[simp] theorem State.writeStatus_latchd (s : State) (v : Byte) :
    (s.writeStatus v).latchd = s.latchd := rfl
@[simp] theorem State.writeStatus_ram (s : State) (v : Byte) : (s.writeStatus v).ram = s.ram := rfl
@[simp] theorem State.writeStatus_wdtcnt (s : State) (v : Byte) :
    (s.writeStatus v).wdtcnt = s.wdtcnt := rfl
@[simp] theorem State.writeStatus_wdt1f (s : State) (v : Byte) :
    (s.writeStatus v).wdt1f = s.wdt1f := rfl
@[simp] theorem State.writeStatus_wdt2f (s : State) (v : Byte) :
    (s.writeStatus v).wdt2f = s.wdt2f := rfl
@[simp] theorem State.writeStatus_halted (s : State) (v : Byte) :
    (s.writeStatus v).halted = s.halted := rfl
@[simp] theorem State.writeStatus_haltPre (s : State) (v : Byte) :
    (s.writeStatus v).haltPre = s.haltPre := rfl
@[simp] theorem State.writeStatus_intPrev (s : State) (v : Byte) :
    (s.writeStatus v).intPrev = s.intPrev := rfl
@[simp] theorem State.writeStatus_paPrev (s : State) (v : Byte) :
    (s.writeStatus v).paPrev = s.paPrev := rfl
@[simp] theorem State.writeStatus_vromAge (s : State) (v : Byte) :
    (s.writeStatus v).vromAge = s.vromAge := rfl
@[simp] theorem State.writeStatus_rom (s : State) (v : Byte) : (s.writeStatus v).rom = s.rom := rfl
@[simp] theorem State.writeStatus_vrom (s : State) (v : Byte) :
    (s.writeStatus v).vrom = s.vrom := rfl
@[simp] theorem State.writeStatus_opt (s : State) (v : Byte) : (s.writeStatus v).opt = s.opt := rfl
@[simp] theorem State.writeStatus_env (s : State) (v : Byte) : (s.writeStatus v).env = s.env := rfl
@[simp] theorem State.writeStatus_draws (s : State) (v : Byte) :
    (s.writeStatus v).draws = s.draws := rfl
@[simp] theorem State.writeStatus_cycles (s : State) (v : Byte) :
    (s.writeStatus v).cycles = s.cycles := rfl
@[simp] theorem State.writeStatus_vromRestart (s : State) (v : Byte) :
    (s.writeStatus v).vromRestart = s.vromRestart := rfl

/-! ### `fetched` -/

@[simp] theorem State.fetched_acc (s : State) : (s.fetched).acc = s.acc := rfl
@[simp] theorem State.fetched_pc (s : State) : (s.fetched).pc = s.pc + 1#13 := rfl
@[simp] theorem State.fetched_fC (s : State) : (s.fetched).fC = s.fC := rfl
@[simp] theorem State.fetched_fAC (s : State) : (s.fetched).fAC = s.fAC := rfl
@[simp] theorem State.fetched_fZ (s : State) : (s.fetched).fZ = s.fZ := rfl
@[simp] theorem State.fetched_fOV (s : State) : (s.fetched).fOV = s.fOV := rfl
@[simp] theorem State.fetched_fPDF (s : State) : (s.fetched).fPDF = s.fPDF := rfl
@[simp] theorem State.fetched_fTO (s : State) : (s.fetched).fTO = s.fTO := rfl
@[simp] theorem State.fetched_stack (s : State) : (s.fetched).stack = s.stack := rfl
@[simp] theorem State.fetched_mp0 (s : State) : (s.fetched).mp0 = s.mp0 := rfl
@[simp] theorem State.fetched_mp1 (s : State) : (s.fetched).mp1 = s.mp1 := rfl
@[simp] theorem State.fetched_tblp (s : State) : (s.fetched).tblp = s.tblp := rfl
@[simp] theorem State.fetched_tbhp (s : State) : (s.fetched).tbhp = s.tbhp := rfl
@[simp] theorem State.fetched_tblh (s : State) : (s.fetched).tblh = s.tblh := rfl
@[simp] theorem State.fetched_wdts (s : State) : (s.fetched).wdts = s.wdts := rfl
@[simp] theorem State.fetched_emi (s : State) : (s.fetched).emi = s.emi := rfl
@[simp] theorem State.fetched_enable (s : State) : (s.fetched).enable = s.enable := rfl
@[simp] theorem State.fetched_request (s : State) : (s.fetched).request = s.request := rfl
@[simp] theorem State.fetched_t0 (s : State) : (s.fetched).t0 = s.t0 := rfl
@[simp] theorem State.fetched_t1 (s : State) : (s.fetched).t1 = s.t1 := rfl
@[simp] theorem State.fetched_t3 (s : State) : (s.fetched).t3 = s.t3 := rfl
@[simp] theorem State.fetched_pa (s : State) : (s.fetched).pa = s.pa := rfl
@[simp] theorem State.fetched_pb (s : State) : (s.fetched).pb = s.pb := rfl
@[simp] theorem State.fetched_latch0 (s : State) : (s.fetched).latch0 = s.latch0 := rfl
@[simp] theorem State.fetched_latch1 (s : State) : (s.fetched).latch1 = s.latch1 := rfl
@[simp] theorem State.fetched_dac (s : State) : (s.fetched).dac = s.dac := rfl
@[simp] theorem State.fetched_vromc (s : State) : (s.fetched).vromc = s.vromc := rfl
@[simp] theorem State.fetched_latchc (s : State) : (s.fetched).latchc = s.latchc := rfl
@[simp] theorem State.fetched_voiceB7 (s : State) : (s.fetched).voiceB7 = s.voiceB7 := rfl
@[simp] theorem State.fetched_dal (s : State) : (s.fetched).dal = s.dal := rfl
@[simp] theorem State.fetched_dah (s : State) : (s.fetched).dah = s.dah := rfl
@[simp] theorem State.fetched_vol (s : State) : (s.fetched).vol = s.vol := rfl
@[simp] theorem State.fetched_latchd (s : State) : (s.fetched).latchd = s.latchd := rfl
@[simp] theorem State.fetched_ram (s : State) : (s.fetched).ram = s.ram := rfl
@[simp] theorem State.fetched_wdtcnt (s : State) : (s.fetched).wdtcnt = s.wdtcnt := rfl
@[simp] theorem State.fetched_wdt1f (s : State) : (s.fetched).wdt1f = s.wdt1f := rfl
@[simp] theorem State.fetched_wdt2f (s : State) : (s.fetched).wdt2f = s.wdt2f := rfl
@[simp] theorem State.fetched_halted (s : State) : (s.fetched).halted = s.halted := rfl
@[simp] theorem State.fetched_haltPre (s : State) : (s.fetched).haltPre = s.haltPre := rfl
@[simp] theorem State.fetched_intPrev (s : State) : (s.fetched).intPrev = s.intPrev := rfl
@[simp] theorem State.fetched_paPrev (s : State) : (s.fetched).paPrev = s.paPrev := rfl
@[simp] theorem State.fetched_vromAge (s : State) : (s.fetched).vromAge = s.vromAge := rfl
@[simp] theorem State.fetched_rom (s : State) : (s.fetched).rom = s.rom := rfl
@[simp] theorem State.fetched_vrom (s : State) : (s.fetched).vrom = s.vrom := rfl
@[simp] theorem State.fetched_opt (s : State) : (s.fetched).opt = s.opt := rfl
@[simp] theorem State.fetched_env (s : State) : (s.fetched).env = s.env := rfl
@[simp] theorem State.fetched_draws (s : State) : (s.fetched).draws = s.draws := rfl
@[simp] theorem State.fetched_cycles (s : State) : (s.fetched).cycles = s.cycles := rfl
@[simp] theorem State.fetched_vromRestart (s : State) :
    (s.fetched).vromRestart = s.vromRestart := rfl

/-! ### `raiseRequest` -/

@[simp] theorem State.raiseRequest_acc (s : State) (src : IrqSource) :
    (s.raiseRequest src).acc = s.acc := rfl
@[simp] theorem State.raiseRequest_pc (s : State) (src : IrqSource) :
    (s.raiseRequest src).pc = s.pc := rfl
@[simp] theorem State.raiseRequest_fC (s : State) (src : IrqSource) :
    (s.raiseRequest src).fC = s.fC := rfl
@[simp] theorem State.raiseRequest_fAC (s : State) (src : IrqSource) :
    (s.raiseRequest src).fAC = s.fAC := rfl
@[simp] theorem State.raiseRequest_fZ (s : State) (src : IrqSource) :
    (s.raiseRequest src).fZ = s.fZ := rfl
@[simp] theorem State.raiseRequest_fOV (s : State) (src : IrqSource) :
    (s.raiseRequest src).fOV = s.fOV := rfl
@[simp] theorem State.raiseRequest_fPDF (s : State) (src : IrqSource) :
    (s.raiseRequest src).fPDF = s.fPDF := rfl
@[simp] theorem State.raiseRequest_fTO (s : State) (src : IrqSource) :
    (s.raiseRequest src).fTO = s.fTO := rfl
@[simp] theorem State.raiseRequest_stack (s : State) (src : IrqSource) :
    (s.raiseRequest src).stack = s.stack := rfl
@[simp] theorem State.raiseRequest_mp0 (s : State) (src : IrqSource) :
    (s.raiseRequest src).mp0 = s.mp0 := rfl
@[simp] theorem State.raiseRequest_mp1 (s : State) (src : IrqSource) :
    (s.raiseRequest src).mp1 = s.mp1 := rfl
@[simp] theorem State.raiseRequest_tblp (s : State) (src : IrqSource) :
    (s.raiseRequest src).tblp = s.tblp := rfl
@[simp] theorem State.raiseRequest_tbhp (s : State) (src : IrqSource) :
    (s.raiseRequest src).tbhp = s.tbhp := rfl
@[simp] theorem State.raiseRequest_tblh (s : State) (src : IrqSource) :
    (s.raiseRequest src).tblh = s.tblh := rfl
@[simp] theorem State.raiseRequest_wdts (s : State) (src : IrqSource) :
    (s.raiseRequest src).wdts = s.wdts := rfl
@[simp] theorem State.raiseRequest_emi (s : State) (src : IrqSource) :
    (s.raiseRequest src).emi = s.emi := rfl
@[simp] theorem State.raiseRequest_enable (s : State) (src : IrqSource) :
    (s.raiseRequest src).enable = s.enable := rfl
@[simp] theorem State.raiseRequest_request (s : State) (src : IrqSource) :
    (s.raiseRequest src).request = s.request.set src true := rfl
@[simp] theorem State.raiseRequest_t0 (s : State) (src : IrqSource) :
    (s.raiseRequest src).t0 = s.t0 := rfl
@[simp] theorem State.raiseRequest_t1 (s : State) (src : IrqSource) :
    (s.raiseRequest src).t1 = s.t1 := rfl
@[simp] theorem State.raiseRequest_t3 (s : State) (src : IrqSource) :
    (s.raiseRequest src).t3 = s.t3 := rfl
@[simp] theorem State.raiseRequest_pa (s : State) (src : IrqSource) :
    (s.raiseRequest src).pa = s.pa := rfl
@[simp] theorem State.raiseRequest_pb (s : State) (src : IrqSource) :
    (s.raiseRequest src).pb = s.pb := rfl
@[simp] theorem State.raiseRequest_latch0 (s : State) (src : IrqSource) :
    (s.raiseRequest src).latch0 = s.latch0 := rfl
@[simp] theorem State.raiseRequest_latch1 (s : State) (src : IrqSource) :
    (s.raiseRequest src).latch1 = s.latch1 := rfl
@[simp] theorem State.raiseRequest_dac (s : State) (src : IrqSource) :
    (s.raiseRequest src).dac = s.dac := rfl
@[simp] theorem State.raiseRequest_vromc (s : State) (src : IrqSource) :
    (s.raiseRequest src).vromc = s.vromc := rfl
@[simp] theorem State.raiseRequest_latchc (s : State) (src : IrqSource) :
    (s.raiseRequest src).latchc = s.latchc := rfl
@[simp] theorem State.raiseRequest_voiceB7 (s : State) (src : IrqSource) :
    (s.raiseRequest src).voiceB7 = s.voiceB7 := rfl
@[simp] theorem State.raiseRequest_dal (s : State) (src : IrqSource) :
    (s.raiseRequest src).dal = s.dal := rfl
@[simp] theorem State.raiseRequest_dah (s : State) (src : IrqSource) :
    (s.raiseRequest src).dah = s.dah := rfl
@[simp] theorem State.raiseRequest_vol (s : State) (src : IrqSource) :
    (s.raiseRequest src).vol = s.vol := rfl
@[simp] theorem State.raiseRequest_latchd (s : State) (src : IrqSource) :
    (s.raiseRequest src).latchd = s.latchd := rfl
@[simp] theorem State.raiseRequest_ram (s : State) (src : IrqSource) :
    (s.raiseRequest src).ram = s.ram := rfl
@[simp] theorem State.raiseRequest_wdtcnt (s : State) (src : IrqSource) :
    (s.raiseRequest src).wdtcnt = s.wdtcnt := rfl
@[simp] theorem State.raiseRequest_wdt1f (s : State) (src : IrqSource) :
    (s.raiseRequest src).wdt1f = s.wdt1f := rfl
@[simp] theorem State.raiseRequest_wdt2f (s : State) (src : IrqSource) :
    (s.raiseRequest src).wdt2f = s.wdt2f := rfl
@[simp] theorem State.raiseRequest_halted (s : State) (src : IrqSource) :
    (s.raiseRequest src).halted = (s.halted && (s.request.get src || s.haltPre.get src)) := rfl
@[simp] theorem State.raiseRequest_haltPre (s : State) (src : IrqSource) :
    (s.raiseRequest src).haltPre = s.haltPre := rfl
@[simp] theorem State.raiseRequest_intPrev (s : State) (src : IrqSource) :
    (s.raiseRequest src).intPrev = s.intPrev := rfl
@[simp] theorem State.raiseRequest_paPrev (s : State) (src : IrqSource) :
    (s.raiseRequest src).paPrev = s.paPrev := rfl
@[simp] theorem State.raiseRequest_vromAge (s : State) (src : IrqSource) :
    (s.raiseRequest src).vromAge = s.vromAge := rfl
@[simp] theorem State.raiseRequest_rom (s : State) (src : IrqSource) :
    (s.raiseRequest src).rom = s.rom := rfl
@[simp] theorem State.raiseRequest_vrom (s : State) (src : IrqSource) :
    (s.raiseRequest src).vrom = s.vrom := rfl
@[simp] theorem State.raiseRequest_opt (s : State) (src : IrqSource) :
    (s.raiseRequest src).opt = s.opt := rfl
@[simp] theorem State.raiseRequest_env (s : State) (src : IrqSource) :
    (s.raiseRequest src).env = s.env := rfl
@[simp] theorem State.raiseRequest_draws (s : State) (src : IrqSource) :
    (s.raiseRequest src).draws = s.draws := rfl
@[simp] theorem State.raiseRequest_cycles (s : State) (src : IrqSource) :
    (s.raiseRequest src).cycles = s.cycles := rfl
@[simp] theorem State.raiseRequest_vromRestart (s : State) (src : IrqSource) :
    (s.raiseRequest src).vromRestart = s.vromRestart := rfl

/-! ### `setTimer` -/

@[simp] theorem State.setTimer_acc (s : State) (n : TimerId) (t : Timer16) :
    (s.setTimer n t).acc = s.acc := by cases n <;> rfl
@[simp] theorem State.setTimer_pc (s : State) (n : TimerId) (t : Timer16) :
    (s.setTimer n t).pc = s.pc := by cases n <;> rfl
@[simp] theorem State.setTimer_fC (s : State) (n : TimerId) (t : Timer16) :
    (s.setTimer n t).fC = s.fC := by cases n <;> rfl
@[simp] theorem State.setTimer_fAC (s : State) (n : TimerId) (t : Timer16) :
    (s.setTimer n t).fAC = s.fAC := by cases n <;> rfl
@[simp] theorem State.setTimer_fZ (s : State) (n : TimerId) (t : Timer16) :
    (s.setTimer n t).fZ = s.fZ := by cases n <;> rfl
@[simp] theorem State.setTimer_fOV (s : State) (n : TimerId) (t : Timer16) :
    (s.setTimer n t).fOV = s.fOV := by cases n <;> rfl
@[simp] theorem State.setTimer_fPDF (s : State) (n : TimerId) (t : Timer16) :
    (s.setTimer n t).fPDF = s.fPDF := by cases n <;> rfl
@[simp] theorem State.setTimer_fTO (s : State) (n : TimerId) (t : Timer16) :
    (s.setTimer n t).fTO = s.fTO := by cases n <;> rfl
@[simp] theorem State.setTimer_stack (s : State) (n : TimerId) (t : Timer16) :
    (s.setTimer n t).stack = s.stack := by cases n <;> rfl
@[simp] theorem State.setTimer_mp0 (s : State) (n : TimerId) (t : Timer16) :
    (s.setTimer n t).mp0 = s.mp0 := by cases n <;> rfl
@[simp] theorem State.setTimer_mp1 (s : State) (n : TimerId) (t : Timer16) :
    (s.setTimer n t).mp1 = s.mp1 := by cases n <;> rfl
@[simp] theorem State.setTimer_tblp (s : State) (n : TimerId) (t : Timer16) :
    (s.setTimer n t).tblp = s.tblp := by cases n <;> rfl
@[simp] theorem State.setTimer_tbhp (s : State) (n : TimerId) (t : Timer16) :
    (s.setTimer n t).tbhp = s.tbhp := by cases n <;> rfl
@[simp] theorem State.setTimer_tblh (s : State) (n : TimerId) (t : Timer16) :
    (s.setTimer n t).tblh = s.tblh := by cases n <;> rfl
@[simp] theorem State.setTimer_wdts (s : State) (n : TimerId) (t : Timer16) :
    (s.setTimer n t).wdts = s.wdts := by cases n <;> rfl
@[simp] theorem State.setTimer_emi (s : State) (n : TimerId) (t : Timer16) :
    (s.setTimer n t).emi = s.emi := by cases n <;> rfl
@[simp] theorem State.setTimer_enable (s : State) (n : TimerId) (t : Timer16) :
    (s.setTimer n t).enable = s.enable := by cases n <;> rfl
@[simp] theorem State.setTimer_request (s : State) (n : TimerId) (t : Timer16) :
    (s.setTimer n t).request = s.request := by cases n <;> rfl
@[simp] theorem State.setTimer_t3 (s : State) (n : TimerId) (t : Timer16) :
    (s.setTimer n t).t3 = s.t3 := by cases n <;> rfl
@[simp] theorem State.setTimer_pa (s : State) (n : TimerId) (t : Timer16) :
    (s.setTimer n t).pa = s.pa := by cases n <;> rfl
@[simp] theorem State.setTimer_pb (s : State) (n : TimerId) (t : Timer16) :
    (s.setTimer n t).pb = s.pb := by cases n <;> rfl
@[simp] theorem State.setTimer_latch0 (s : State) (n : TimerId) (t : Timer16) :
    (s.setTimer n t).latch0 = s.latch0 := by cases n <;> rfl
@[simp] theorem State.setTimer_latch1 (s : State) (n : TimerId) (t : Timer16) :
    (s.setTimer n t).latch1 = s.latch1 := by cases n <;> rfl
@[simp] theorem State.setTimer_dac (s : State) (n : TimerId) (t : Timer16) :
    (s.setTimer n t).dac = s.dac := by cases n <;> rfl
@[simp] theorem State.setTimer_vromc (s : State) (n : TimerId) (t : Timer16) :
    (s.setTimer n t).vromc = s.vromc := by cases n <;> rfl
@[simp] theorem State.setTimer_latchc (s : State) (n : TimerId) (t : Timer16) :
    (s.setTimer n t).latchc = s.latchc := by cases n <;> rfl
@[simp] theorem State.setTimer_voiceB7 (s : State) (n : TimerId) (t : Timer16) :
    (s.setTimer n t).voiceB7 = s.voiceB7 := by cases n <;> rfl
@[simp] theorem State.setTimer_dal (s : State) (n : TimerId) (t : Timer16) :
    (s.setTimer n t).dal = s.dal := by cases n <;> rfl
@[simp] theorem State.setTimer_dah (s : State) (n : TimerId) (t : Timer16) :
    (s.setTimer n t).dah = s.dah := by cases n <;> rfl
@[simp] theorem State.setTimer_vol (s : State) (n : TimerId) (t : Timer16) :
    (s.setTimer n t).vol = s.vol := by cases n <;> rfl
@[simp] theorem State.setTimer_latchd (s : State) (n : TimerId) (t : Timer16) :
    (s.setTimer n t).latchd = s.latchd := by cases n <;> rfl
@[simp] theorem State.setTimer_ram (s : State) (n : TimerId) (t : Timer16) :
    (s.setTimer n t).ram = s.ram := by cases n <;> rfl
@[simp] theorem State.setTimer_wdtcnt (s : State) (n : TimerId) (t : Timer16) :
    (s.setTimer n t).wdtcnt = s.wdtcnt := by cases n <;> rfl
@[simp] theorem State.setTimer_wdt1f (s : State) (n : TimerId) (t : Timer16) :
    (s.setTimer n t).wdt1f = s.wdt1f := by cases n <;> rfl
@[simp] theorem State.setTimer_wdt2f (s : State) (n : TimerId) (t : Timer16) :
    (s.setTimer n t).wdt2f = s.wdt2f := by cases n <;> rfl
@[simp] theorem State.setTimer_halted (s : State) (n : TimerId) (t : Timer16) :
    (s.setTimer n t).halted = s.halted := by cases n <;> rfl
@[simp] theorem State.setTimer_haltPre (s : State) (n : TimerId) (t : Timer16) :
    (s.setTimer n t).haltPre = s.haltPre := by cases n <;> rfl
@[simp] theorem State.setTimer_intPrev (s : State) (n : TimerId) (t : Timer16) :
    (s.setTimer n t).intPrev = s.intPrev := by cases n <;> rfl
@[simp] theorem State.setTimer_paPrev (s : State) (n : TimerId) (t : Timer16) :
    (s.setTimer n t).paPrev = s.paPrev := by cases n <;> rfl
@[simp] theorem State.setTimer_vromAge (s : State) (n : TimerId) (t : Timer16) :
    (s.setTimer n t).vromAge = s.vromAge := by cases n <;> rfl
@[simp] theorem State.setTimer_rom (s : State) (n : TimerId) (t : Timer16) :
    (s.setTimer n t).rom = s.rom := by cases n <;> rfl
@[simp] theorem State.setTimer_vrom (s : State) (n : TimerId) (t : Timer16) :
    (s.setTimer n t).vrom = s.vrom := by cases n <;> rfl
@[simp] theorem State.setTimer_opt (s : State) (n : TimerId) (t : Timer16) :
    (s.setTimer n t).opt = s.opt := by cases n <;> rfl
@[simp] theorem State.setTimer_env (s : State) (n : TimerId) (t : Timer16) :
    (s.setTimer n t).env = s.env := by cases n <;> rfl
@[simp] theorem State.setTimer_draws (s : State) (n : TimerId) (t : Timer16) :
    (s.setTimer n t).draws = s.draws := by cases n <;> rfl
@[simp] theorem State.setTimer_cycles (s : State) (n : TimerId) (t : Timer16) :
    (s.setTimer n t).cycles = s.cycles := by cases n <;> rfl
@[simp] theorem State.setTimer_vromRestart (s : State) (n : TimerId) (t : Timer16) :
    (s.setTimer n t).vromRestart = s.vromRestart := by cases n <;> rfl

/-! ### `setLatch` -/

@[simp] theorem State.setLatch_acc (s : State) (n : LatchId) (v : BitVec 18) :
    (s.setLatch n v).acc = s.acc := by cases n <;> rfl
@[simp] theorem State.setLatch_pc (s : State) (n : LatchId) (v : BitVec 18) :
    (s.setLatch n v).pc = s.pc := by cases n <;> rfl
@[simp] theorem State.setLatch_fC (s : State) (n : LatchId) (v : BitVec 18) :
    (s.setLatch n v).fC = s.fC := by cases n <;> rfl
@[simp] theorem State.setLatch_fAC (s : State) (n : LatchId) (v : BitVec 18) :
    (s.setLatch n v).fAC = s.fAC := by cases n <;> rfl
@[simp] theorem State.setLatch_fZ (s : State) (n : LatchId) (v : BitVec 18) :
    (s.setLatch n v).fZ = s.fZ := by cases n <;> rfl
@[simp] theorem State.setLatch_fOV (s : State) (n : LatchId) (v : BitVec 18) :
    (s.setLatch n v).fOV = s.fOV := by cases n <;> rfl
@[simp] theorem State.setLatch_fPDF (s : State) (n : LatchId) (v : BitVec 18) :
    (s.setLatch n v).fPDF = s.fPDF := by cases n <;> rfl
@[simp] theorem State.setLatch_fTO (s : State) (n : LatchId) (v : BitVec 18) :
    (s.setLatch n v).fTO = s.fTO := by cases n <;> rfl
@[simp] theorem State.setLatch_stack (s : State) (n : LatchId) (v : BitVec 18) :
    (s.setLatch n v).stack = s.stack := by cases n <;> rfl
@[simp] theorem State.setLatch_mp0 (s : State) (n : LatchId) (v : BitVec 18) :
    (s.setLatch n v).mp0 = s.mp0 := by cases n <;> rfl
@[simp] theorem State.setLatch_mp1 (s : State) (n : LatchId) (v : BitVec 18) :
    (s.setLatch n v).mp1 = s.mp1 := by cases n <;> rfl
@[simp] theorem State.setLatch_tblp (s : State) (n : LatchId) (v : BitVec 18) :
    (s.setLatch n v).tblp = s.tblp := by cases n <;> rfl
@[simp] theorem State.setLatch_tbhp (s : State) (n : LatchId) (v : BitVec 18) :
    (s.setLatch n v).tbhp = s.tbhp := by cases n <;> rfl
@[simp] theorem State.setLatch_tblh (s : State) (n : LatchId) (v : BitVec 18) :
    (s.setLatch n v).tblh = s.tblh := by cases n <;> rfl
@[simp] theorem State.setLatch_wdts (s : State) (n : LatchId) (v : BitVec 18) :
    (s.setLatch n v).wdts = s.wdts := by cases n <;> rfl
@[simp] theorem State.setLatch_emi (s : State) (n : LatchId) (v : BitVec 18) :
    (s.setLatch n v).emi = s.emi := by cases n <;> rfl
@[simp] theorem State.setLatch_enable (s : State) (n : LatchId) (v : BitVec 18) :
    (s.setLatch n v).enable = s.enable := by cases n <;> rfl
@[simp] theorem State.setLatch_request (s : State) (n : LatchId) (v : BitVec 18) :
    (s.setLatch n v).request = s.request := by cases n <;> rfl
@[simp] theorem State.setLatch_t0 (s : State) (n : LatchId) (v : BitVec 18) :
    (s.setLatch n v).t0 = s.t0 := by cases n <;> rfl
@[simp] theorem State.setLatch_t1 (s : State) (n : LatchId) (v : BitVec 18) :
    (s.setLatch n v).t1 = s.t1 := by cases n <;> rfl
@[simp] theorem State.setLatch_t3 (s : State) (n : LatchId) (v : BitVec 18) :
    (s.setLatch n v).t3 = s.t3 := by cases n <;> rfl
@[simp] theorem State.setLatch_pa (s : State) (n : LatchId) (v : BitVec 18) :
    (s.setLatch n v).pa = s.pa := by cases n <;> rfl
@[simp] theorem State.setLatch_pb (s : State) (n : LatchId) (v : BitVec 18) :
    (s.setLatch n v).pb = s.pb := by cases n <;> rfl
@[simp] theorem State.setLatch_dac (s : State) (n : LatchId) (v : BitVec 18) :
    (s.setLatch n v).dac = s.dac := by cases n <;> rfl
@[simp] theorem State.setLatch_vromc (s : State) (n : LatchId) (v : BitVec 18) :
    (s.setLatch n v).vromc = s.vromc := by cases n <;> rfl
@[simp] theorem State.setLatch_latchc (s : State) (n : LatchId) (v : BitVec 18) :
    (s.setLatch n v).latchc = s.latchc := by cases n <;> rfl
@[simp] theorem State.setLatch_voiceB7 (s : State) (n : LatchId) (v : BitVec 18) :
    (s.setLatch n v).voiceB7 = s.voiceB7 := by cases n <;> rfl
@[simp] theorem State.setLatch_dal (s : State) (n : LatchId) (v : BitVec 18) :
    (s.setLatch n v).dal = s.dal := by cases n <;> rfl
@[simp] theorem State.setLatch_dah (s : State) (n : LatchId) (v : BitVec 18) :
    (s.setLatch n v).dah = s.dah := by cases n <;> rfl
@[simp] theorem State.setLatch_vol (s : State) (n : LatchId) (v : BitVec 18) :
    (s.setLatch n v).vol = s.vol := by cases n <;> rfl
@[simp] theorem State.setLatch_latchd (s : State) (n : LatchId) (v : BitVec 18) :
    (s.setLatch n v).latchd = s.latchd := by cases n <;> rfl
@[simp] theorem State.setLatch_ram (s : State) (n : LatchId) (v : BitVec 18) :
    (s.setLatch n v).ram = s.ram := by cases n <;> rfl
@[simp] theorem State.setLatch_wdtcnt (s : State) (n : LatchId) (v : BitVec 18) :
    (s.setLatch n v).wdtcnt = s.wdtcnt := by cases n <;> rfl
@[simp] theorem State.setLatch_wdt1f (s : State) (n : LatchId) (v : BitVec 18) :
    (s.setLatch n v).wdt1f = s.wdt1f := by cases n <;> rfl
@[simp] theorem State.setLatch_wdt2f (s : State) (n : LatchId) (v : BitVec 18) :
    (s.setLatch n v).wdt2f = s.wdt2f := by cases n <;> rfl
@[simp] theorem State.setLatch_halted (s : State) (n : LatchId) (v : BitVec 18) :
    (s.setLatch n v).halted = s.halted := by cases n <;> rfl
@[simp] theorem State.setLatch_haltPre (s : State) (n : LatchId) (v : BitVec 18) :
    (s.setLatch n v).haltPre = s.haltPre := by cases n <;> rfl
@[simp] theorem State.setLatch_intPrev (s : State) (n : LatchId) (v : BitVec 18) :
    (s.setLatch n v).intPrev = s.intPrev := by cases n <;> rfl
@[simp] theorem State.setLatch_paPrev (s : State) (n : LatchId) (v : BitVec 18) :
    (s.setLatch n v).paPrev = s.paPrev := by cases n <;> rfl
@[simp] theorem State.setLatch_vromAge (s : State) (n : LatchId) (v : BitVec 18) :
    (s.setLatch n v).vromAge = s.vromAge := by cases n <;> rfl
@[simp] theorem State.setLatch_rom (s : State) (n : LatchId) (v : BitVec 18) :
    (s.setLatch n v).rom = s.rom := by cases n <;> rfl
@[simp] theorem State.setLatch_vrom (s : State) (n : LatchId) (v : BitVec 18) :
    (s.setLatch n v).vrom = s.vrom := by cases n <;> rfl
@[simp] theorem State.setLatch_opt (s : State) (n : LatchId) (v : BitVec 18) :
    (s.setLatch n v).opt = s.opt := by cases n <;> rfl
@[simp] theorem State.setLatch_env (s : State) (n : LatchId) (v : BitVec 18) :
    (s.setLatch n v).env = s.env := by cases n <;> rfl
@[simp] theorem State.setLatch_draws (s : State) (n : LatchId) (v : BitVec 18) :
    (s.setLatch n v).draws = s.draws := by cases n <;> rfl
@[simp] theorem State.setLatch_cycles (s : State) (n : LatchId) (v : BitVec 18) :
    (s.setLatch n v).cycles = s.cycles := by cases n <;> rfl
@[simp] theorem State.setLatch_vromRestart (s : State) (n : LatchId) (v : BitVec 18) :
    (s.setLatch n v).vromRestart = s.vromRestart := by cases n <;> rfl

/-! ### Timers, latches and source bits by name -/

@[simp] theorem State.timer_setTimer_same (s : State) (n : TimerId) (t : Timer16) :
    (s.setTimer n t).timer n = t := by cases n <;> rfl

theorem State.timer_setTimer_other (s : State) {n k : TimerId} (t : Timer16) (h : k ≠ n) :
    (s.setTimer n t).timer k = s.timer k := by
  cases n <;> cases k <;> first | rfl | exact absurd rfl h

@[simp] theorem State.latch_setLatch_same (s : State) (n : LatchId) (v : BitVec 18) :
    (s.setLatch n v).latch n = v := by cases n <;> rfl

theorem State.latch_setLatch_other (s : State) {n k : LatchId} (v : BitVec 18) (h : k ≠ n) :
    (s.setLatch n v).latch k = s.latch k := by
  cases n <;> cases k <;> first | rfl | exact absurd rfl h

@[simp] theorem IrqBits.get_set_same (b : IrqBits) (src : IrqSource) (v : Bool) :
    (b.set src v).get src = v := by cases src <;> rfl

theorem IrqBits.get_set_other (b : IrqBits) {src other : IrqSource} (v : Bool)
    (h : other ≠ src) : (b.set src v).get other = b.get other := by
  cases src <;> cases other <;> first | rfl | exact absurd rfl h

@[simp] theorem State.draw_fst (s : State) : s.draw.1 = Config.freeByte s.draws := rfl

end Sys2Proof.Machine
end

