-- ==== Sys2Proof/Laws/Operands.lean ====
section
/-! SUPPORT. What the operand operations can do, said once: resolving, reading and writing a location,
and the shapes of the instructions that use them. -/

namespace Sys2Proof.Machine

open Sys2Proof.Config

/-! ### Resolving an operand -/

/-- An operand with an effective address that is a window resolves to the window of R105. -/
theorem State.resolve_window {s : State} {m : Byte} (hm : m = 0x00#8 ∨ m = 0x02#8)
    (h : s.effective m = 0x00#8 ∨ s.effective m = 0x02#8) : s.resolve m = .ok .window := by
  rcases hm with rfl | rfl
  · have h' : s.mp0 = 0#8 ∨ s.mp0 = 2#8 := by simpa [State.effective] using h
    simp [State.resolve, State.resolvePointer, h']
  · have h' : s.mp1 = 0#8 ∨ s.mp1 = 2#8 := by simpa [State.effective] using h
    simp [State.resolve, State.resolvePointer, h']

/-- Every other operand resolves as a direct access to its effective address. -/
theorem State.resolve_direct {s : State} {m : Byte} (h0 : s.effective m ≠ 0x00#8)
    (h2 : s.effective m ≠ 0x02#8) : s.resolve m = s.resolveDirect (s.effective m) := by
  unfold State.resolve State.effective at *
  split
  · simp_all [State.resolvePointer]
  · split <;> simp_all [State.resolvePointer]

theorem locOf_none_iff (a : Byte) :
    locOf a = none ↔ a = 0x00#8 ∨ a = 0x02#8 ∨ a ∈ unusedAddresses := by
  revert a; decide +revert

/-- `locOf` gives a location its own address. -/
theorem locOf_addr {a : Byte} {l : Loc} (h : locOf a = some l) : l.addr = a := by
  revert h
  revert l
  revert a
  decide +revert

/-- An operand resolves, or its effective address is unused and the access faults (R123). -/
theorem State.resolve_cases (s : State) (m : Byte) :
    (∃ l, s.resolve m = .ok l ∧ s.effective m ∉ unusedAddresses) ∨
    (s.resolve m = .error (.unusedAddress s.here (s.effective m)) ∧
      s.effective m ∈ unusedAddresses) := by
  by_cases h0 : s.effective m = 0x00#8
  · have hm : m = 0x00#8 ∨ m = 0x02#8 := by
      by_cases h1 : m = 0#8
      · exact .inl h1
      · by_cases h2 : m = 2#8
        · exact .inr h2
        · simp [State.effective, h1, h2] at h0
    exact .inl ⟨.window, State.resolve_window hm (.inl h0), by rw [h0]; decide⟩
  by_cases h2 : s.effective m = 0x02#8
  · have hm : m = 0x00#8 ∨ m = 0x02#8 := by
      by_cases h1 : m = 0#8
      · exact .inl h1
      · by_cases h3 : m = 2#8
        · exact .inr h3
        · simp [State.effective, h1, h3] at h2
    exact .inl ⟨.window, State.resolve_window hm (.inr h2), by rw [h2]; decide⟩
  rw [State.resolve_direct h0 h2]
  unfold State.resolveDirect
  cases h : locOf (s.effective m) with
  | none =>
    have := (locOf_none_iff _).mp h
    exact .inr ⟨rfl, by simpa [h0, h2] using this⟩
  | some l =>
    refine .inl ⟨l, rfl, fun hu => ?_⟩
    rw [(locOf_none_iff _).mpr (.inr (.inr hu))] at h
    exact absurd h (by simp)

/-! ### Reading and writing a location -/

/-- What a read leaves as it was. -/
theorem State.readLoc_afterRead (s : State) (l : Loc) : s.afterRead (s.readLoc l).2 := by
  cases l <;> try rfl
  case tmrH n => cases n <;> rfl
  case latchd =>
    by_cases h : s.voiceReady = true <;> simp [State.readLoc, h, State.afterRead, State.draw]

theorem State.memRead_ok {s s1 : State} {m v : Byte} (h : s.memRead m = .ok (v, s1)) :
    ∃ l, s.resolve m = .ok l ∧ v = (s.readLoc l).1 ∧ s1 = (s.readLoc l).2 := by
  unfold State.memRead at h
  split at h
  · cases h
  · rename_i l hl
    injection h with h
    exact ⟨l, hl, by rw [h], by rw [h]⟩

theorem State.memRead_afterRead {s s1 : State} {m v : Byte} (h : s.memRead m = .ok (v, s1)) :
    s.afterRead s1 := by
  obtain ⟨l, -, -, rfl⟩ := State.memRead_ok h
  exact State.readLoc_afterRead s l

/-- The fields a read leaves as they were, one at a time. -/
theorem State.afterRead.ramRead {s t : State} (h : s.afterRead t) (a : Byte) :
    t.ramRead a = s.ramRead a := by
  rw [h]; rfl

theorem State.ramRead_ramWrite {s : State}
    (h : Memory.wf ramDefault 0x30 0x100 s.ram = true) (a b v : Byte) :
    (s.ramWrite b v).ramRead a = if a = b then v else s.ramRead a := by
  by_cases hab : a = b
  · subst hab
    simp [State.ramRead, State.ramWrite, Memory.read_write_same h]
  · have : a.toNat ≠ b.toNat := fun he => hab (BitVec.eq_of_toNat_eq he)
    simp [State.ramRead, State.ramWrite, hab, Memory.read_write_other _ _ this]

/-- A write changes general RAM only where it goes. -/
theorem State.writeLoc_ram (s : State) (v : Byte) (l : Loc) :
    (s.writeLoc v l).ram =
      match l with
      | .ram a => Memory.write ramDefault s.ram a.toNat v
      | _ => s.ram := by
  cases l <;> try rfl
  case tmrH n => cases n <;> rfl
  case tmrL n => cases n <;> rfl
  case tmrC n => cases n <;> rfl
  case latchH n => cases n <;> simp [State.writeLoc, State.writeLatch, State.disturbVoice] <;> split <;> rfl
  case latchM n => cases n <;> simp [State.writeLoc, State.writeLatch, State.disturbVoice] <;> split <;> rfl
  case latchL n => cases n <;> simp [State.writeLoc, State.writeLatch, State.disturbVoice] <;> split <;> rfl
  case voicec => simp only [State.writeLoc, State.writeVoicec]; split <;> rfl

theorem State.storedRam_writeLoc {s : State}
    (h : Memory.wf ramDefault 0x30 0x100 s.ram = true) (v : Byte) (l : Loc) :
    s.storedRam (s.writeLoc v l) l v := by
  intro a
  by_cases hl : l = .ram a
  · subst hl
    have := State.ramRead_ramWrite h a a v
    simpa [State.writeLoc] using this
  · rw [if_neg hl]
    unfold State.ramRead
    rw [State.writeLoc_ram]
    cases l <;> try rfl
    case ram b =>
      have hab : a ≠ b := fun he => hl (by rw [he])
      have : a.toNat ≠ b.toNat := fun he => hab (BitVec.eq_of_toNat_eq he)
      exact Memory.read_write_other _ _ this

/-! ### Destination checks and the shapes -/

theorem State.destFault_none_iff (s : State) (r : DestRule) (i : Instr) (l : Loc) (v : Byte) :
    s.destFault r i l v = none ↔ r.allows l = true ∧ l.accepts v := by
  unfold State.destFault Loc.accepts
  cases hr : r.allows l
  · simp
  · cases l <;> simp [timerCtrlAllowed, timer3CtrlAllowed]

/-- A value that a location does not accept stops the instruction, whatever destinations it may have. -/
theorem State.destFault_refused (s : State) (r : DestRule) (i : Instr) {l : Loc} {v : Byte}
    (h : ¬l.accepts v) : s.destFault r i l v = some (l.refusal s.here i) := by
  unfold State.destFault Loc.refusal
  cases l
  case tmrC n =>
    have : timerCtrlAllowed v = false := by
      simpa [timerCtrlAllowed, Loc.accepts] using h
    cases r <;> simp [DestRule.allows, this]
  case tmr3c =>
    have : timer3CtrlAllowed v = false := by
      simpa [timer3CtrlAllowed, Loc.accepts] using h
    cases r <;> simp [DestRule.allows, this]
  case voicec =>
    have : v.getLsbD 7 = true := by simpa [Loc.accepts] using h
    cases r <;> simp [DestRule.allows, this]
  all_goals exact absurd ⟨nofun, nofun, nofun⟩ h

theorem State.storeOp_refused {s : State} {m v : Byte} {l : Loc} (r : DestRule) (i : Instr) (n : Nat)
    (pre : State → State) (h : s.resolve m = .ok l) (ha : ¬l.accepts v) :
    s.storeOp r i n m v pre = .fault (l.refusal s.here i) := by
  simp [State.storeOp, h, State.destFault_refused s r i ha]

theorem State.modifyOp_refused {s : State} {m : Byte} {l : Loc} (r : DestRule) (i : Instr)
    (f : Byte → State → Byte) (g post : Byte → State → State) (h : s.resolve m = .ok l)
    (ha : ¬l.accepts (f (s.readLoc l).1 (s.readLoc l).2)) :
    s.modifyOp r i m f g post = .fault (l.refusal s.here i) := by
  simp [State.modifyOp, h, State.destFault_refused s r i ha]

theorem State.loadOp_ok {s s1 : State} {m v : Byte} (f : Byte → State → State)
    (h : s.memRead m = .ok (v, s1)) : s.loadOp m f = .next ((f v s1).retire 1) := by
  simp [State.loadOp, h]

theorem State.storeOp_ok {s : State} {m v : Byte} {l : Loc} {r : DestRule} {i : Instr} (n : Nat)
    (pre : State → State) (h : s.resolve m = .ok l) (hr : r.allows l = true)
    (ha : l.accepts v) :
    s.storeOp r i n m v pre = .next (((pre s).writeLoc v l).retire (n + l.writeCycles)) := by
  simp [State.storeOp, h, (State.destFault_none_iff s r i l v).mpr ⟨hr, ha⟩]

theorem State.modifyOp_ok {s : State} {m : Byte} {l : Loc} {r : DestRule} {i : Instr}
    (f : Byte → State → Byte) (g post : Byte → State → State) (h : s.resolve m = .ok l)
    (hr : r.allows l = true) (ha : l.accepts (f (s.readLoc l).1 (s.readLoc l).2)) :
    s.modifyOp r i m f g post =
      .next ((post (f (s.readLoc l).1 (s.readLoc l).2)
        ((g (s.readLoc l).1 (s.readLoc l).2).writeLoc
          (f (s.readLoc l).1 (s.readLoc l).2) l)).retire (1 + l.writeCycles)) := by
  simp [State.modifyOp, h, (State.destFault_none_iff s r i l _).mpr ⟨hr, ha⟩]

/-! ### Flags in whole numbers -/

theorem State.withAddFlags_sum (s : State) (a b : Byte) (c : Bool) :
    s.withAddFlags (add8 a b c) = s.withSum a b c := by
  simp [State.withAddFlags, State.withSum, add8_cout, add8_aco, add8_ovo, add8_zo]

/-- Subtraction is addition of the complement; the borrow is the complement of the carry. -/
theorem State.withAddFlags_difference (s : State) (a b : Byte) (c : Bool) :
    s.withAddFlags (add8 a (~~~b) c) = s.withDifference a b (!c) := by
  have ha := a.isLt
  have hb := b.isLt
  cases c <;>
  · simp only [State.withAddFlags, State.withDifference, add8_cout, add8_aco, add8_ovo, add8_zo,
      Byte.toNat_not, Byte.toInt_not]
    congr 1 <;> rw [decide_eq_decide] <;> simp <;> omega

theorem add8_sub_r (a b : Byte) (c : Bool) :
    (add8 a (~~~b) c).r = a - b - BitVec.ofNat 8 (!c).toNat := by
  apply BitVec.eq_of_toNat_eq
  have ha := a.isLt
  have hb := b.isLt
  rw [add8_r]
  cases c <;> simp [BitVec.toNat_sub] <;> omega

end Sys2Proof.Machine
end

