-- ==== Sys2Proof/Laws/Forms.lean ====
section
/-! SUPPORT. From the shapes of the meanings (`loadOp`, `storeOp`, `modifyOp`) to the three forms in
which the statements speak of them. -/

namespace Sys2Proof.Machine

/-! ### What a read and a write keep -/

theorem State.afterRead.kept {s t : State} (h : s.afterRead t) :
    t.cycles = s.cycles ∧ t.acc = s.acc ∧ t.fC = s.fC ∧ t.pc = s.pc ∧ t.ram = s.ram ∧
      t.stack = s.stack ∧ t.opt = s.opt ∧ t.rom = s.rom := by
  rw [h]
  exact ⟨rfl, rfl, rfl, rfl, rfl, rfl, rfl, rfl⟩

/-! No write of a location changes these fields. -/

@[simp] theorem State.writeLoc_cycles (s : State) (v : Byte) (l : Loc) :
    (s.writeLoc v l).cycles = s.cycles := by
  cases l <;> try rfl
  case tmrH n => cases n <;> rfl
  case tmrL n => cases n <;> rfl
  case tmrC n => cases n <;> rfl
  case voicec => simp only [State.writeLoc, State.writeVoicec]; split <;> rfl
  all_goals
    rename_i n
    simp only [State.writeLoc, State.writeLatch]
    split <;> cases n <;> rfl

@[simp] theorem State.writeLoc_stack (s : State) (v : Byte) (l : Loc) :
    (s.writeLoc v l).stack = s.stack := by
  cases l <;> try rfl
  case tmrH n => cases n <;> rfl
  case tmrL n => cases n <;> rfl
  case tmrC n => cases n <;> rfl
  case voicec => simp only [State.writeLoc, State.writeVoicec]; split <;> rfl
  all_goals
    rename_i n
    simp only [State.writeLoc, State.writeLatch]
    split <;> cases n <;> rfl

@[simp] theorem State.writeLoc_rom (s : State) (v : Byte) (l : Loc) :
    (s.writeLoc v l).rom = s.rom := by
  cases l <;> try rfl
  case tmrH n => cases n <;> rfl
  case tmrL n => cases n <;> rfl
  case tmrC n => cases n <;> rfl
  case voicec => simp only [State.writeLoc, State.writeVoicec]; split <;> rfl
  all_goals
    rename_i n
    simp only [State.writeLoc, State.writeLatch]
    split <;> cases n <;> rfl

@[simp] theorem State.writeLoc_vrom (s : State) (v : Byte) (l : Loc) :
    (s.writeLoc v l).vrom = s.vrom := by
  cases l <;> try rfl
  case tmrH n => cases n <;> rfl
  case tmrL n => cases n <;> rfl
  case tmrC n => cases n <;> rfl
  case voicec => simp only [State.writeLoc, State.writeVoicec]; split <;> rfl
  all_goals
    rename_i n
    simp only [State.writeLoc, State.writeLatch]
    split <;> cases n <;> rfl

@[simp] theorem State.writeLoc_opt (s : State) (v : Byte) (l : Loc) :
    (s.writeLoc v l).opt = s.opt := by
  cases l <;> try rfl
  case tmrH n => cases n <;> rfl
  case tmrL n => cases n <;> rfl
  case tmrC n => cases n <;> rfl
  case voicec => simp only [State.writeLoc, State.writeVoicec]; split <;> rfl
  all_goals
    rename_i n
    simp only [State.writeLoc, State.writeLatch]
    split <;> cases n <;> rfl

@[simp] theorem State.writeLoc_env (s : State) (v : Byte) (l : Loc) :
    (s.writeLoc v l).env = s.env := by
  cases l <;> try rfl
  case tmrH n => cases n <;> rfl
  case tmrL n => cases n <;> rfl
  case tmrC n => cases n <;> rfl
  case voicec => simp only [State.writeLoc, State.writeVoicec]; split <;> rfl
  all_goals
    rename_i n
    simp only [State.writeLoc, State.writeLatch]
    split <;> cases n <;> rfl

@[simp] theorem State.writeLoc_fTO (s : State) (v : Byte) (l : Loc) :
    (s.writeLoc v l).fTO = s.fTO := by
  cases l <;> try rfl
  case tmrH n => cases n <;> rfl
  case tmrL n => cases n <;> rfl
  case tmrC n => cases n <;> rfl
  case voicec => simp only [State.writeLoc, State.writeVoicec]; split <;> rfl
  all_goals
    rename_i n
    simp only [State.writeLoc, State.writeLatch]
    split <;> cases n <;> rfl

@[simp] theorem State.writeLoc_fPDF (s : State) (v : Byte) (l : Loc) :
    (s.writeLoc v l).fPDF = s.fPDF := by
  cases l <;> try rfl
  case tmrH n => cases n <;> rfl
  case tmrL n => cases n <;> rfl
  case tmrC n => cases n <;> rfl
  case voicec => simp only [State.writeLoc, State.writeVoicec]; split <;> rfl
  all_goals
    rename_i n
    simp only [State.writeLoc, State.writeLatch]
    split <;> cases n <;> rfl

@[simp] theorem State.writeLoc_halted (s : State) (v : Byte) (l : Loc) :
    (s.writeLoc v l).halted = s.halted := by
  cases l <;> try rfl
  case tmrH n => cases n <;> rfl
  case tmrL n => cases n <;> rfl
  case tmrC n => cases n <;> rfl
  case voicec => simp only [State.writeLoc, State.writeVoicec]; split <;> rfl
  all_goals
    rename_i n
    simp only [State.writeLoc, State.writeLatch]
    split <;> cases n <;> rfl

@[simp] theorem State.writeLoc_vromAge (s : State) (v : Byte) (l : Loc) :
    (s.writeLoc v l).vromAge = s.vromAge := by
  cases l <;> try rfl
  case tmrH n => cases n <;> rfl
  case tmrL n => cases n <;> rfl
  case tmrC n => cases n <;> rfl
  case voicec => simp only [State.writeLoc, State.writeVoicec]; split <;> rfl
  all_goals
    rename_i n
    simp only [State.writeLoc, State.writeLatch]
    split <;> cases n <;> rfl

/-! ### What a shape answers -/

theorem State.loadOp_next {s t : State} {m : Byte} {f : Byte → State → State}
    (h : s.loadOp m f = .next t) :
    ∃ v s1, s.memRead m = .ok (v, s1) ∧ s.afterRead s1 ∧ t = (f v s1).retire 1 := by
  unfold State.loadOp at h
  split at h
  · cases h
  · rename_i v s1 hm
    injection h with h
    exact ⟨v, s1, hm, State.memRead_afterRead hm, h.symm⟩

theorem State.storeOp_next {s t : State} {r : DestRule} {i : Instr} {n : Nat} {m v : Byte}
    {pre : State → State} (h : s.storeOp r i n m v pre = .next t) :
    ∃ l, s.resolve m = .ok l ∧ r.allows l = true ∧ l.accepts v ∧
      t = ((pre s).writeLoc v l).retire (n + l.writeCycles) := by
  unfold State.storeOp at h
  split at h
  · cases h
  rename_i l hl
  split at h
  · cases h
  · rename_i hd
    injection h with h
    obtain ⟨h1, h2⟩ := (State.destFault_none_iff s r i l v).mp hd
    exact ⟨l, hl, h1, h2, h.symm⟩

theorem State.modifyOp_next {s t : State} {r : DestRule} {i : Instr} {m : Byte}
    {f : Byte → State → Byte} {g post : Byte → State → State}
    (h : s.modifyOp r i m f g post = .next t) :
    ∃ l v s1, s.resolve m = .ok l ∧ s.readLoc l = (v, s1) ∧ s.afterRead s1 ∧
      r.allows l = true ∧ l.accepts (f v s1) ∧
      t = (post (f v s1) ((g v s1).writeLoc (f v s1) l)).retire (1 + l.writeCycles) := by
  unfold State.modifyOp at h
  split at h
  · cases h
  rename_i l hl
  dsimp only at h
  split at h
  · cases h
  · rename_i hd
    injection h with h
    obtain ⟨h1, h2⟩ := (State.destFault_none_iff s r i l _).mp hd
    exact ⟨l, (s.readLoc l).1, (s.readLoc l).2, hl, rfl, State.readLoc_afterRead s l, h1, h2,
      h.symm⟩

/-! ### What a shape keeps: any view `π` of the state that its parts keep -/

theorem State.loadOp_keeps {α : Type} (π : State → α) {s t : State} {m : Byte}
    {f : Byte → State → State} (h : s.loadOp m f = .next t)
    (ha : ∀ u, s.afterRead u → π u = π s) (hf : ∀ v u, π ((f v u).retire 1) = π u) :
    π t = π s := by
  obtain ⟨v, s1, -, h1, rfl⟩ := State.loadOp_next h
  rw [hf, ha s1 h1]

theorem State.storeOp_keeps {α : Type} (π : State → α) {s t : State} {r : DestRule} {i : Instr}
    {n : Nat} {m v : Byte} {pre : State → State} (h : s.storeOp r i n m v pre = .next t)
    (hp : π (pre s) = π s) (hw : ∀ u l, l.accepts v → π (State.writeLoc u v l) = π u)
    (hr : ∀ u n, π (State.retire u n) = π u) : π t = π s := by
  obtain ⟨l, -, -, hacc, rfl⟩ := State.storeOp_next h
  rw [hr, hw _ _ hacc, hp]

theorem State.modifyOp_keeps {α : Type} (π : State → α) {s t : State} {r : DestRule} {i : Instr}
    {m : Byte} {f : Byte → State → Byte} {g post : Byte → State → State}
    (h : s.modifyOp r i m f g post = .next t)
    (ha : ∀ u, s.afterRead u → π u = π s) (hg : ∀ v u, π (g v u) = π u)
    (hw : ∀ u l w, l.accepts w → π (State.writeLoc u w l) = π u)
    (hp : ∀ w u, π (post w u) = π u) (hr : ∀ u n, π (State.retire u n) = π u) :
    π t = π s := by
  obtain ⟨l, v, s1, -, -, h1, -, hacc, rfl⟩ := State.modifyOp_next h
  rw [hr, hp, hw _ _ _ hacc, hg, ha s1 h1]

theorem State.returnFromStack_ok {s t : State} (h : s.returnFromStack = .ok t) :
    ∃ older a, s.stack = older ++ [a] ∧ t = { s with pc := a, stack := older } := by
  unfold State.returnFromStack State.pop at h
  cases hl : s.stack.getLast? with
  | none => simp [hl] at h
  | some a =>
    simp only [hl, Except.ok.injEq] at h
    obtain ⟨older, ho⟩ := List.getLast?_eq_some_iff.mp hl
    exact ⟨older, a, ho, by rw [← h, ho, List.dropLast_concat]⟩

theorem finishReturn_next {n : Nat} {e : Except Fault State} {t : State}
    (h : finishReturn n e = .next t) : ∃ u, e = .ok u ∧ t = u.retire n := by
  cases e with
  | error e => cases h
  | ok u =>
    injection h with h
    exact ⟨u, rfl, h.symm⟩

/-! ### The forms -/

theorem readForm_of {code : RomWord} {i : Instr} {m : Byte} {s : State}
    {f g : Byte → State → State} (hd : decode code = .ok i) (he : exec i s = s.loadOp m g)
    (hf : ∀ v t, s.afterRead t → (g v t).retire 1 = f v t) : readForm code i m s f := by
  refine ⟨hd, fun e h => ?_, fun v t h => ⟨State.memRead_afterRead h, ?_⟩⟩
  · rw [he, State.loadOp, h]
  · rw [he, State.loadOp_ok g h, hf v t (State.memRead_afterRead h)]

theorem storeForm_of {code : RomWord} {i : Instr} {m : Byte} {s : State} {n : Nat} {w : Byte}
    {pre : State → State} {r : DestRule} (hd : decode code = .ok i)
    (he : exec i s = s.storeOp r i n m w pre)
    (hr : ∀ l, s.resolve m = .ok l → r.allows l = true)
    (hc : (pre s).cycles = s.cycles) (hm : (pre s).ram = s.ram) :
    storeForm code i m s n w pre := by
  refine ⟨hd, fun e h => ?_, fun l hl hacc => ⟨_, ?_, rfl, fun hwf a => ?_⟩⟩
  · rw [he, State.storeOp, h]
  · rw [he, State.storeOp_ok n pre hl (hr l hl) hacc]
    simp only [State.retire, State.writeLoc_cycles, hc, Loc.writeCycles, Nat.add_assoc]
  · have h := State.storedRam_writeLoc (s := pre s) (by rw [hm]; exact hwf) w l a
    simpa only [State.ramRead, hm] using h

theorem modifyForm_of {code : RomWord} {i : Instr} {m : Byte} {s : State} {ex : Option Loc}
    {w w' : Byte → State → Byte} {g post g' post' : Byte → State → State} {r : DestRule}
    (hd : decode code = .ok i) (he : exec i s = s.modifyOp r i m w' g' post')
    (hr : ∀ l, some l ≠ ex → r.allows l = true)
    (hw : ∀ v t, s.afterRead t → w' v t = w v t) (hg : ∀ v t, s.afterRead t → g' v t = g v t)
    (hgc : ∀ v t, (g v t).cycles = t.cycles) (hgm : ∀ v t, (g v t).ram = t.ram)
    (hp : ∀ v t n, (post' v t).retire n = post v (t.retire n))
    (hpm : ∀ v t, (post v t).ram = t.ram) : modifyForm code i m s ex w g post := by
  refine ⟨hd, fun e h => ?_, fun l v s1 hl hread hex hacc => ?_⟩
  · rw [he, State.modifyOp, h]
  have ha : s.afterRead s1 := by
    have := State.readLoc_afterRead s l
    rwa [hread] at this
  obtain ⟨hcyc, -, -, -, hram, -⟩ := ha.kept
  refine ⟨ha, _, ?_, rfl, fun hwf a => ?_⟩
  · rw [he, State.modifyOp_ok w' g' post' hl (hr l hex) (by rw [hread]; simpa [hw v s1 ha] using hacc)]
    simp only [hread]
    rw [hw v s1 ha, hg v s1 ha, hp]
    congr 2
    simp only [State.retire, State.writeLoc_cycles, hgc, Loc.writeCycles, hcyc]
    by_cases hpcl : l = .pcl <;> simp [hpcl]
  · have h := State.storedRam_writeLoc (s := g v s1) (by rw [hgm, hram]; exact hwf) (w v s1) l a
    simp only [State.ramRead, hpm] at h ⊢
    rw [h, hgm, hram]

end Sys2Proof.Machine
end

