-- ==== Sys2Proof/Laws/Shapes.lean ====
section
/-! SUPPORT. What an instruction can be, said once: all but nine instructions are a load, a store or a
modify operation, or change registers of their own only. A property of the state that those parts
keep is kept by the instruction. -/

namespace Sys2Proof.Machine

/-- `t` differs from `s` only in what instructions compute: ACC, the flags C, AC, Z and OV, TBLH, the
program counter and the count of cycles. -/
def State.afterOwn (s t : State) : Prop :=
  t = { s with
    acc := t.acc, fC := t.fC, fAC := t.fAC, fZ := t.fZ, fOV := t.fOV, tblh := t.tblh, pc := t.pc
    cycles := t.cycles }

/-- The nine instructions that change more: the stack, EMI, the watchdog or HALT. -/
def special : Instr → Bool
  | .call _ | .ret | .retAx _ | .reti | .clrWdt | .clrWdt1 | .clrWdt2 | .halt => true
  | .addAm _ | .addmAm _ | .addAx _ | .adcAm _ | .adcmAm _ | .subAx _ | .subAm _ | .submAm _
  | .sbcAm _ | .sbcmAm _ | .daa _ | .andAm _ | .orAm _ | .xorAm _ | .andmAm _ | .ormAm _
  | .xormAm _ | .andAx _ | .orAx _ | .xorAx _ | .cpl _ | .cpla _ | .inca _ | .inc _ | .deca _
  | .dec _ | .rra _ | .rr _ | .rrca _ | .rrc _ | .rla _ | .rl _ | .rlca _ | .rlc _ | .movAm _
  | .movMa _ | .movAx _ | .clrBit _ _ | .setBit _ _ | .jmp _ | .sz _ | .sza _ | .szBit _ _
  | .snzBit _ _ | .siz _ | .sdz _ | .siza _ | .sdza _ | .tabrdc _ | .tabrdl _ | .nop | .clr _
  | .set _ | .swap _ | .swapa _ => false

theorem State.afterOwn.refl (s : State) : s.afterOwn s := rfl

theorem State.skipIf_afterOwn {s t : State} (h : s.afterOwn t) (b : Bool) :
    s.afterOwn (t.skipIf b) := by
  cases b
  · exact h
  · rw [h]; rfl

theorem State.retire_afterOwn {s t : State} (h : s.afterOwn t) (n : Nat) :
    s.afterOwn (t.retire n) := by
  rw [h]; rfl

/-- What an instruction can be, with the arguments of its shape. -/
inductive Shape (i : Instr) (s : State) : Prop where
  | load (m : Byte) (f : Byte → State → State) (h : exec i s = s.loadOp m f)
      (hf : ∀ v u, State.afterOwn u (f v u))
  | store (r : DestRule) (n : Nat) (m v : Byte) (pre : State → State)
      (h : exec i s = s.storeOp r i n m v pre) (hp : s.afterOwn (pre s))
  | modify (r : DestRule) (m : Byte) (f : Byte → State → Byte) (g post : Byte → State → State)
      (h : exec i s = s.modifyOp r i m f g post) (hg : ∀ v u, State.afterOwn u (g v u))
      (hp : ∀ w u, State.afterOwn u (post w u))
  | own (t : State) (h : exec i s = .next t) (ht : s.afterOwn t)

/-- Every instruction but the special ones has a shape. -/
theorem exec_shape {i : Instr} (s : State) (hi : special i = false) : Shape i s := by
  cases i
  case call | ret | retAx | reti | clrWdt | clrWdt1 | clrWdt2 | halt => cases hi
  case addAx | subAx | andAx | orAx | xorAx | movAx | jmp | nop =>
    refine .own _ rfl ?_
    rfl
  case sz | sza | szBit | snzBit | siza | sdza =>
    refine .load _ _ rfl fun v u => ?_
    refine State.skipIf_afterOwn ?_ _
    rfl
  case addAm | adcAm | subAm | sbcAm | andAm | orAm | xorAm | cpla | inca | deca | rra | rrca | rla
    | rlca | movAm | swapa =>
    refine .load _ _ rfl fun v u => ?_
    rfl
  case daa m =>
    refine .store _ _ _ _ _ ((exec_daa m s).trans (execDaa.eq_1 m s)) ?_
    rfl
  case movMa m =>
    refine .store _ _ _ _ _ ((exec_movMa m s).trans (execMovMa.eq_1 m s)) ?_
    rfl
  case clr m =>
    refine .store _ _ _ _ _ ((exec_clr m s).trans (execClr.eq_1 m s)) ?_
    rfl
  case set m =>
    refine .store _ _ _ _ _ ((exec_set m s).trans (execSet.eq_1 m s)) ?_
    rfl
  case tabrdc m =>
    refine .store _ _ _ _ _ ((exec_tabrdc m s).trans ((execTabrdc.eq_1 m s).trans (State.tableRead.eq_1 ..))) ?_
    rfl
  case tabrdl m =>
    refine .store _ _ _ _ _ ((exec_tabrdl m s).trans ((execTabrdl.eq_1 m s).trans (State.tableRead.eq_1 ..))) ?_
    rfl
  case addmAm m =>
    refine .modify _ _ _ _ _ ((exec_addmAm m s).trans ((execAddmAm.eq_1 m s).trans (State.addMemOp.eq_1 ..))) (fun v u => ?_) fun w u => ?_
    all_goals rfl
  case adcmAm m =>
    refine .modify _ _ _ _ _ ((exec_adcmAm m s).trans ((execAdcmAm.eq_1 m s).trans (State.addMemOp.eq_1 ..))) (fun v u => ?_) fun w u => ?_
    all_goals rfl
  case submAm m =>
    refine .modify _ _ _ _ _ ((exec_submAm m s).trans ((execSubmAm.eq_1 m s).trans (State.addMemOp.eq_1 ..))) (fun v u => ?_) fun w u => ?_
    all_goals rfl
  case sbcmAm m =>
    refine .modify _ _ _ _ _ ((exec_sbcmAm m s).trans ((execSbcmAm.eq_1 m s).trans (State.addMemOp.eq_1 ..))) (fun v u => ?_) fun w u => ?_
    all_goals rfl
  case andmAm m =>
    refine .modify _ _ _ _ _ ((exec_andmAm m s).trans ((execAndmAm.eq_1 m s).trans (State.resultToMem.eq_1 ..))) (fun v u => ?_) fun w u => ?_
    all_goals rfl
  case ormAm m =>
    refine .modify _ _ _ _ _ ((exec_ormAm m s).trans ((execOrmAm.eq_1 m s).trans (State.resultToMem.eq_1 ..))) (fun v u => ?_) fun w u => ?_
    all_goals rfl
  case xormAm m =>
    refine .modify _ _ _ _ _ ((exec_xormAm m s).trans ((execXormAm.eq_1 m s).trans (State.resultToMem.eq_1 ..))) (fun v u => ?_) fun w u => ?_
    all_goals rfl
  case cpl m =>
    refine .modify _ _ _ _ _ ((exec_cpl m s).trans ((execCpl.eq_1 m s).trans (State.resultToMem.eq_1 ..))) (fun v u => ?_) fun w u => ?_
    all_goals rfl
  case inc m =>
    refine .modify _ _ _ _ _ ((exec_inc m s).trans ((execInc.eq_1 m s).trans (State.resultToMem.eq_1 ..))) (fun v u => ?_) fun w u => ?_
    all_goals rfl
  case dec m =>
    refine .modify _ _ _ _ _ ((exec_dec m s).trans ((execDec.eq_1 m s).trans (State.resultToMem.eq_1 ..))) (fun v u => ?_) fun w u => ?_
    all_goals rfl
  case rr m =>
    refine .modify _ _ _ _ _ ((exec_rr m s).trans (execRr.eq_1 m s)) (fun v u => ?_) fun w u => ?_
    all_goals rfl
  case rrc m =>
    refine .modify _ _ _ _ _ ((exec_rrc m s).trans (execRrc.eq_1 m s)) (fun v u => ?_) fun w u => ?_
    all_goals rfl
  case rl m =>
    refine .modify _ _ _ _ _ ((exec_rl m s).trans (execRl.eq_1 m s)) (fun v u => ?_) fun w u => ?_
    all_goals rfl
  case rlc m =>
    refine .modify _ _ _ _ _ ((exec_rlc m s).trans (execRlc.eq_1 m s)) (fun v u => ?_) fun w u => ?_
    all_goals rfl
  case swap m =>
    refine .modify _ _ _ _ _ ((exec_swap m s).trans (execSwap.eq_1 m s)) (fun v u => ?_) fun w u => ?_
    all_goals rfl
  case siz m =>
    refine .modify _ _ _ _ _ ((exec_siz m s).trans (execSiz.eq_1 m s)) (fun v u => ?_) fun w u => ?_
    · rfl
    · exact State.skipIf_afterOwn (.refl u) _
  case sdz m =>
    refine .modify _ _ _ _ _ ((exec_sdz m s).trans (execSdz.eq_1 m s)) (fun v u => ?_) fun w u => ?_
    · rfl
    · exact State.skipIf_afterOwn (.refl u) _
  case clrBit m i =>
    refine .modify _ _ _ _ _ ((exec_clrBit m i s).trans (execClrBit.eq_1 m i s)) (fun v u => ?_) fun w u => ?_
    all_goals rfl
  case setBit m i =>
    refine .modify _ _ _ _ _ ((exec_setBit m i s).trans (execSetBit.eq_1 m i s)) (fun v u => ?_) fun w u => ?_
    all_goals rfl

theorem locOf_ram {b a : Byte} (h : locOf b = some (.ram a)) : 0x30 ≤ a.toNat := by
  have hab : b = a := (locOf_addr h).symm
  subst hab
  revert h
  revert b
  decide +revert

/-- A RAM byte an operand resolves to is at 30H or above (10_state.md R45). -/
theorem State.resolve_ram {s : State} {m : Byte} {l : Loc} (h : s.resolve m = .ok l) (a : Byte)
    (hl : l = .ram a) : 0x30 ≤ a.toNat := by
  subst hl
  have direct {b : Byte} (hd : s.resolveDirect b = .ok (.ram a)) : 0x30 ≤ a.toNat := by
    unfold State.resolveDirect at hd
    split at hd
    · rename_i l hb
      injection hd with hd
      exact locOf_ram (hd ▸ hb)
    · cases hd
  have pointer {p : Byte} (hp : s.resolvePointer p = .ok (.ram a)) : 0x30 ≤ a.toNat := by
    unfold State.resolvePointer at hp
    split at hp
    · injection hp with hp
      cases hp
    · exact direct hp
  unfold State.resolve at h
  split at h
  · exact pointer h
  · split at h
    · exact pointer h
    · exact direct h

/-- What a write of a latch part can change. -/
theorem State.writeLatch_eq (s : State) (n : LatchId) (v : BitVec 18) :
    s.writeLatch n v = { s with
      latch0 := (s.writeLatch n v).latch0
      latch1 := (s.writeLatch n v).latch1
      latchd := (s.writeLatch n v).latchd
      draws := (s.writeLatch n v).draws
      vromRestart := (s.writeLatch n v).vromRestart } := by
  unfold State.writeLatch
  split <;> cases n <;> rfl

/-- What a write of VOICEC can change. -/
theorem State.writeVoicec_eq (s : State) (v : Byte) :
    s.writeVoicec v = { s with
      dac := v.getLsbD 1
      vromc := v.getLsbD 2
      latchc := v.getLsbD 4
      voiceB7 := v.getLsbD 7
      latchd := (s.writeVoicec v).latchd
      draws := (s.writeVoicec v).draws
      vromRestart := (s.writeVoicec v).vromRestart } := by
  unfold State.writeVoicec
  dsimp only
  split <;> rfl

/-- A property of the state that reads, allowed writes and own changes keep is kept by every
instruction but the special ones. -/
theorem exec_preserves (P : State → Prop) {i : Instr} {s t : State} (h : exec i s = .next t)
    (hi : special i = false) (hs : P s) (hread : ∀ u w, P u → u.afterRead w → P w)
    (hwrite : ∀ u v l, P u → l.accepts v → (∀ a, l = .ram a → 0x30 ≤ a.toNat) →
      P (State.writeLoc u v l))
    (hown : ∀ u w, P u → u.afterOwn w → P w) : P t := by
  obtain ⟨m, f, he, hf⟩ | ⟨r, n, m, v, pre, he, hp⟩ | ⟨r, m, f, g, post, he, hg, hp⟩ |
    ⟨u, he, hu⟩ := exec_shape s hi
  · obtain ⟨v, s1, -, h1, rfl⟩ := State.loadOp_next (he ▸ h)
    exact hown _ _ (hread _ _ hs h1) (State.retire_afterOwn (hf v s1) 1)
  · obtain ⟨l, hl, -, hacc, rfl⟩ := State.storeOp_next (he ▸ h)
    exact hown _ _ (hwrite _ _ _ (hown _ _ hs hp) hacc (State.resolve_ram hl)) (State.retire_afterOwn (.refl _) _)
  · obtain ⟨l, v, s1, hl, -, h1, -, hacc, rfl⟩ := State.modifyOp_next (he ▸ h)
    exact hown _ _
      (hwrite _ _ _ (hown _ _ (hread _ _ hs h1) (hg v s1)) hacc (State.resolve_ram hl))
      (State.retire_afterOwn (hp _ _) _)
  · rw [he] at h
    injection h with h
    exact h ▸ hown _ _ hs hu

/-- What a destination check can answer. -/
theorem State.destFault_some {s : State} {r : DestRule} {i : Instr} {l : Loc} {v : Byte}
    {e : Fault} (h : s.destFault r i l v = some e) :
    (∃ a, e = .unpredictable s.here i a) ∨ e = .undocumentedBit s.here 0x26#8 7 := by
  unfold State.destFault at h
  split at h
  · injection h with h; exact .inl ⟨_, h.symm⟩
  · split at h
    · split at h
      · cases h
      · injection h with h; exact .inl ⟨_, h.symm⟩
    · split at h
      · cases h
      · injection h with h; exact .inl ⟨_, h.symm⟩
    · split at h
      · injection h with h; exact .inr h.symm
      · cases h
    all_goals cases h

end Sys2Proof.Machine
end

