-- ==== Sys2Proof/Laws/Step.lean ====
section
/-! SUPPORT. What a step can be, said once: an event, nothing in HALT, an interrupt entry, or the
instruction at `pc`. -/

namespace Sys2Proof.Machine

/-- What an accepted interrupt says of the state. -/
theorem State.accepted_some {s : State} {src : IrqSource} (h : s.accepted = some src) :
    s.emi = true ∧ s.depth < 8 ∧ s.pending src = true := by
  unfold State.accepted at h
  split at h
  · rename_i hc
    have hc := (Bool.and_eq_true _ _).mp hc
    refine ⟨hc.1, of_decide_eq_true hc.2, ?_⟩
    repeat' split at h
    all_goals first
      | (injection h with h; subst h; assumption)
      | cases h
  · cases h

/-- What `Push` can do (10_state.md R27). -/
theorem State.push_cases (s : State) (v : PAddr) :
    (s.depth < 8 ∧ s.push v = { s with stack := s.stack ++ [v] }) ∨
    (8 ≤ s.depth ∧ s.push v = { s with stack := s.stack.tail ++ [v] }) := by
  unfold State.push
  by_cases h : s.depth < 8
  · exact .inl ⟨h, by rw [if_pos h]⟩
  · exact .inr ⟨Nat.le_of_not_lt h, by rw [if_neg h, List.drop_one]⟩

/-- A push keeps the stack within eight entries. -/
theorem State.push_depth {s : State} (h : s.depth ≤ 8) (v : PAddr) : (s.push v).depth ≤ 8 := by
  obtain ⟨hd, he⟩ | ⟨hd, he⟩ := s.push_cases v
  · rw [he]
    simpa [State.depth] using hd
  · rw [he]
    simp only [State.depth, List.length_append, List.length_tail, List.length_cons,
      List.length_nil] at h hd ⊢
    omega

@[simp] theorem State.trail_nil (s : State) : s.trail [] = some ([], s) := rfl

theorem State.trail_cons {i : Instr} {is : List Instr} {s t : State}
    (h : exec i s.fetched = .next t) :
    s.trail (i :: is) = (t.trail is).map fun r => (t.pc :: r.1, r.2) := by
  simp [State.trail, h]

theorem step_event {s : State} {e : EnvEvent} {slot : List EnvEvent}
    {later : List (List EnvEvent)} (h : s.env = (e :: slot) :: later) :
    step s = .next (State.applyEvent { s with env := slot :: later } e) := by
  simp [step, State.boundaryStep, h]

/-- With no event left the step is the CPU's, after this boundary's empty list of events. -/
theorem step_quiet {s : State} (h : s.quiet) : step s = State.cpuStep decode s.pastEvents := by
  unfold step State.boundaryStep
  split
  · rename_i he
    congr 1
    unfold State.pastEvents
    rw [he, List.tail_nil, ← he]
  · rename_i later he
    simp [State.pastEvents, he]
  · rename_i e slot later he
    exact absurd (h _ _ he) (by simp)

theorem cpuStep_halted {d : RomWord → Except DecodeError Instr} {s : State} (h : s.halted = true) :
    State.cpuStep d s = .next s := by
  unfold State.cpuStep
  rw [if_pos h]

theorem cpuStep_interrupt {d : RomWord → Except DecodeError Instr} {s : State} {src : IrqSource}
    (h : s.halted = false) (ha : s.accepted = some src) :
    State.cpuStep d s = .next (s.takeInterrupt src) := by
  unfold State.cpuStep
  rw [if_neg (by simp [h]), ha]

theorem cpuStep_instr {d : RomWord → Except DecodeError Instr} {s : State}
    (h : s.halted = false) (ha : s.accepted = none) : State.cpuStep d s = s.runInstr d := by
  unfold State.cpuStep
  rw [if_neg (by simp [h]), ha]

theorem runInstr_next {d : RomWord → Except DecodeError Instr} {s t : State}
    (h : s.runInstr d = .next t) :
    ∃ i u, d s.fetch = .ok i ∧ exec i s.fetched = .next u ∧
      t = u.settle (u.cycles - s.cycles) := by
  unfold State.runInstr at h
  split at h
  · cases h
  rename_i i hd
  split at h
  · rename_i u hx
    injection h with h
    exact ⟨i, u, hd, hx, h.symm⟩
  · cases h
  · cases h

theorem cpuStep_next {d : RomWord → Except DecodeError Instr} {s t : State}
    (h : State.cpuStep d s = .next t) :
    (s.halted = true ∧ t = s) ∨
    (s.halted = false ∧ ∃ src, s.accepted = some src ∧ t = s.takeInterrupt src) ∨
    (s.halted = false ∧ s.accepted = none ∧ ∃ i u, d s.fetch = .ok i ∧
      exec i s.fetched = .next u ∧ t = u.settle (u.cycles - s.cycles)) := by
  cases hh : s.halted with
  | true =>
    rw [cpuStep_halted hh] at h
    injection h with h
    exact .inl ⟨rfl, h.symm⟩
  | false =>
    cases ha : s.accepted with
    | some src =>
      rw [cpuStep_interrupt hh ha] at h
      injection h with h
      exact .inr (.inl ⟨rfl, src, rfl, h.symm⟩)
    | none =>
      rw [cpuStep_instr hh ha] at h
      exact .inr (.inr ⟨rfl, rfl, runInstr_next h⟩)

/-- Everything a step that goes on can be. -/
theorem step_next {s t : State} (h : step s = .next t) :
    (∃ e slot later, s.env = (e :: slot) :: later ∧
      t = State.applyEvent { s with env := slot :: later } e) ∨
    (s.quiet ∧ State.cpuStep decode s.pastEvents = .next t) := by
  match he : s.env with
  | [] =>
    have hq : s.quiet := fun _ _ hh => by rw [he] at hh; cases hh
    exact .inr ⟨hq, by rw [← step_quiet hq]; exact h⟩
  | [] :: later =>
    have hq : s.quiet := fun _ _ hh => by rw [he] at hh; injection hh with h1; exact h1.symm
    exact .inr ⟨hq, by rw [← step_quiet hq]; exact h⟩
  | (e :: slot) :: later =>
    rw [step_event he] at h
    injection h with h
    exact .inl ⟨e, slot, later, rfl, h.symm⟩

end Sys2Proof.Machine
end

