-- ==== Sys2Proof/Laws/Devices.lean ====
section
/-! SUPPORT. What the devices, the resets and the environment's events can do, said once: a property
of the state that their parts keep is kept by them. -/

namespace Sys2Proof.Machine

open Sys2Proof.Config

/-! ### What each operation changes -/

/-- What a request can change. -/
theorem State.raiseRequest_eq (s : State) (src : IrqSource) :
    s.raiseRequest src = { s with
      request := s.request.set src true
      halted := s.halted && (s.request.get src || s.haltPre.get src) } := rfl

/-- What a count of timer n can change: its counter, its request flag and, in HALT, `halted`. -/
theorem State.count16_eq (s : State) (n : TimerId) :
    s.count16 n = (if (s.timer n).cnt = 0xFFFF#16 then s.raiseRequest n.source else s).setTimer n
      { s.timer n with
        cnt := if (s.timer n).cnt = 0xFFFF#16 then (s.timer n).pre else (s.timer n).cnt + 1#16 } := by
  unfold State.count16
  dsimp only
  split <;> cases n <;> rfl

/-- What a count of Timer Counter 3 can change. -/
theorem State.count8_eq (s : State) :
    s.count8 = { (if s.t3.cnt = 0xFF#8 then s.raiseRequest .timer3 else s) with
      t3 := { s.t3 with cnt := if s.t3.cnt = 0xFF#8 then s.t3.pre else s.t3.cnt + 1#8 } } := by
  unfold State.count8
  split <;> rfl

/-- What the delivery of a voice byte can change. -/
theorem State.deliverVoice_eq (s : State) :
    s.deliverVoice = { s with
      latchd := s.deliverVoice.latchd, draws := s.deliverVoice.draws } := by
  unfold State.deliverVoice
  split <;> rfl

/-- The parts of a device cycle before the watchdog leave the options as they are. -/
theorem State.timers_opt (s : State) :
    ((s.timerTick .t0).timerTick .t1).timer3Tick.opt = s.opt := by
  have count16 (u : State) (n : TimerId) : (u.count16 n).opt = u.opt := by
    rw [State.count16_eq]
    split <;> cases n <;> rfl
  have tick (u : State) (n : TimerId) : (u.timerTick n).opt = u.opt := by
    unfold State.timerTick
    split
    · exact (by cases n <;> rfl : ((u.count16 n).unblock n).opt = (u.count16 n).opt).trans (count16 u n)
    · cases n <;> rfl
  have tick3 (u : State) : u.timer3Tick.opt = u.opt := by
    unfold State.timer3Tick
    split
    · dsimp only
      split
      · rw [State.count8_eq]
        dsimp only
        split <;> rfl
      · rfl
    · rfl
  rw [tick3, tick, tick]

/-! ### Properties kept -/

/-- The parts a device cycle is made of keep `P`. -/
structure DeviceKeeps (P : State → Prop) : Prop where
  /-- The counter and the block of a timer may change, its other fields stay. -/
  timer : ∀ s n c l, P s → P (State.setTimer s n { State.timer s n with cnt := c, lose := l })
  request : ∀ s src, P s → P (State.raiseRequest s src)
  timer3 : ∀ (s : State) c p, P s → P { s with t3 := { s.t3 with cnt := c, ps := p } }
  watchdog : ∀ (s : State) c, P s → P { s with wdtcnt := c }
  warm : ∀ s, P s → P (State.warmReset s)
  reset : ∀ s, P s → P (State.runReset s .wdtNormal)
  age : ∀ (s : State), P s → s.vromAge < s.opt.vromDelayCycles →
    P { s with vromAge := s.vromAge + 1 }
  voice : ∀ (s : State) b d, P s → P { s with latchd := b, draws := d }

theorem DeviceKeeps.count16 {P : State → Prop} (k : DeviceKeeps P) {s : State} (n : TimerId)
    (h : P s) : P (s.count16 n) := by
  rw [State.count16_eq]
  split
  · have := k.timer _ n ((s.timer n).pre) (s.timer n).lose (k.request s n.source h)
    cases n <;> exact this
  · exact k.timer _ n _ _ h

theorem DeviceKeeps.timerTick {P : State → Prop} (k : DeviceKeeps P) {s : State} (n : TimerId)
    (h : P s) : P (s.timerTick n) := by
  unfold State.timerTick
  split
  · exact k.timer _ n _ _ (k.count16 n h)
  · exact k.timer _ n _ _ h

theorem DeviceKeeps.timer3Tick {P : State → Prop} (k : DeviceKeeps P) {s : State} (h : P s) :
    P s.timer3Tick := by
  unfold State.timer3Tick
  split
  · dsimp only
    split
    · rw [State.count8_eq]
      dsimp only
      split
      · exact k.timer3 _ _ _ (k.request _ .timer3 (k.timer3 s s.t3.cnt (s.t3.ps + 1#8) h))
      · exact k.timer3 s _ _ h
    · exact k.timer3 s _ _ h
  · exact h

theorem DeviceKeeps.wdtTick {P : State → Prop} (k : DeviceKeeps P) {s : State} (h : P s) :
    P s.wdtTick := by
  unfold State.wdtTick
  split
  · dsimp only
    split
    · unfold State.wdtTimeout
      split
      · exact k.watchdog s _ h
      · split
        · exact k.warm _ (k.watchdog s _ h)
        · exact k.reset _ (k.watchdog s _ h)
    · exact k.watchdog s _ h
  · exact h

theorem DeviceKeeps.vromTick {P : State → Prop} (k : DeviceKeeps P) {s : State} (h : P s) :
    P s.vromTick := by
  unfold State.vromTick
  split
  · rename_i hc
    have ha := k.age s h (of_decide_eq_true ((Bool.and_eq_true _ _).mp hc).2)
    change P (if s.vromAge + 1 = s.opt.vromDelayCycles then
      State.deliverVoice { s with vromAge := s.vromAge + 1 }
      else { s with vromAge := s.vromAge + 1 })
    split
    · rw [State.deliverVoice_eq]
      exact k.voice _ _ _ ha
    · exact ha
  · exact h

theorem DeviceKeeps.deviceCycle {P : State → Prop} (k : DeviceKeeps P) {s : State} (h : P s) :
    P s.deviceCycle := by
  unfold State.deviceCycle
  have h1 := k.timer3Tick (k.timerTick .t1 (k.timerTick .t0 h))
  refine k.vromTick ?_
  split
  · exact k.wdtTick h1
  · exact h1

theorem DeviceKeeps.deviceStep {P : State → Prop} (k : DeviceKeeps P) (n : Nat) {s : State}
    (h : P s) : P (State.deviceStep n s) := by
  induction n generalizing s with
  | zero => exact h
  | succ n ih => exact ih (k.deviceCycle h)

/-- What every event but the resets can do, from the same parts. -/
theorem DeviceKeeps.timerEdge {P : State → Prop} (k : DeviceKeeps P) {s : State} (n : TimerId)
    (v : Bool) (h : P s)
    (hp : ∀ s w o v, P s → (o = (State.timer s n).ton ∨ o = false) →
      P (State.setTimer s n { State.timer s n with pw := w, ton := o, pin := v })) :
    P (s.timerEdge n v) := by
  unfold State.timerEdge
  dsimp only
  have h1 : P (if (s.timer n).eventEdge (!(s.timer n).pin && v) ((s.timer n).pin && !v)
      then s.count16 n else s) := by
    split
    · exact k.count16 n h
    · exact h
  generalize (if (s.timer n).eventEdge (!(s.timer n).pin && v) ((s.timer n).pin && !v)
      then s.count16 n else s) = u at h1
  unfold Timer16.pulseEdge
  dsimp only
  repeat' split
  all_goals first
    | exact hp u true _ _ h1 (.inl rfl)
    | exact hp u false _ _ h1 (.inr rfl)
    | exact hp u _ _ _ h1 (.inl rfl)

end Sys2Proof.Machine
end

