-- ==== Sys2Proof/Laws/PerInstr.lean ====
section
/-! SUPPORT. Statements made for every instruction, one lemma a constructor. Family EncodeFormat: the
word of an instruction lies in the format that 30_encoding.md R143 gives the instruction, told apart
as R142 says. -/

namespace Sys2Proof.Laws.EncodeFormat

open Sys2Proof

/-- The five formats (30_encoding.md R142). -/
inductive Format where
  | n
  | m
  | i
  | b
  | a
deriving DecidableEq, Repr

/-- The format of a word, in the order of tests of 30_encoding.md R142; none if it is unassigned by
its high bits. -/
def ofWord (w : RomWord) : Option Format :=
  let op := (w.extractLsb' 8 8).toNat
  if w.extractLsb' 14 2 = 0b11#2 then some .a
  else if w.extractLsb' 13 3 = 0b100#3 then some .b
  else if op = 0 then some .n
  else if op < 0x2C then some .m
  else if 0x40 ≤ op ∧ op < 0x47 then some .i
  else none

/-- The format of an instruction (30_encoding.md R143). -/
def ofInstr : Instr → Format
  | .ret | .reti | .nop | .clrWdt | .clrWdt1 | .clrWdt2 | .halt => .n
  | .addAm _ | .addmAm _ | .adcAm _ | .adcmAm _ | .subAm _ | .submAm _ | .sbcAm _ | .sbcmAm _
  | .daa _ | .andAm _ | .orAm _ | .xorAm _ | .andmAm _ | .ormAm _ | .xormAm _ | .cpl _
  | .cpla _ | .inca _ | .inc _ | .deca _ | .dec _ | .rra _ | .rr _ | .rrca _ | .rrc _ | .rla _
  | .rl _ | .rlca _ | .rlc _ | .movAm _ | .movMa _ | .sz _ | .sza _ | .siz _ | .sdz _ | .siza _
  | .sdza _ | .tabrdc _ | .tabrdl _ | .clr _ | .set _ | .swap _ | .swapa _ => .m
  | .addAx _ | .subAx _ | .andAx _ | .orAx _ | .xorAx _ | .movAx _ | .retAx _ => .i
  | .clrBit _ _ | .setBit _ _ | .szBit _ _ | .snzBit _ _ => .b
  | .jmp _ | .call _ => .a

/-- The word of the instruction is in the instruction's format. -/
def Statement (i : Instr) : Prop := ofWord (encode i) = some (ofInstr i)

/-- A word of formats N, M and I, by its opcode byte. -/
theorem ofWord_byteWord (op m : Byte) (h : op.toNat < 0x80) :
    ofWord (byteWord op m) =
      if op.toNat = 0 then some .n
      else if op.toNat < 0x2C then some .m
      else if 0x40 ≤ op.toNat ∧ op.toNat < 0x47 then some .i
      else none := by
  have h2 := byteWord_top2_ne op h
  have h3 := byteWord_top3_ne op h
  simp [ofWord, h2, h3]

theorem ofWord_bitWord (op2 : BitVec 2) (i : Nat) (m : Byte) :
    ofWord (bitWord op2 i m) = some .b := by
  simp [ofWord]

theorem ofWord_addrWord (op1 : BitVec 1) (addr : PAddr) :
    ofWord (addrWord op1 addr) = some .a := by
  simp [ofWord]

theorem addAm (m : Byte) : Statement (.addAm m) := ofWord_byteWord _ _ (by decide)
theorem addmAm (m : Byte) : Statement (.addmAm m) := ofWord_byteWord _ _ (by decide)
theorem addAx (x : Byte) : Statement (.addAx x) := ofWord_byteWord _ _ (by decide)
theorem adcAm (m : Byte) : Statement (.adcAm m) := ofWord_byteWord _ _ (by decide)
theorem adcmAm (m : Byte) : Statement (.adcmAm m) := ofWord_byteWord _ _ (by decide)
theorem subAx (x : Byte) : Statement (.subAx x) := ofWord_byteWord _ _ (by decide)
theorem subAm (m : Byte) : Statement (.subAm m) := ofWord_byteWord _ _ (by decide)
theorem submAm (m : Byte) : Statement (.submAm m) := ofWord_byteWord _ _ (by decide)
theorem sbcAm (m : Byte) : Statement (.sbcAm m) := ofWord_byteWord _ _ (by decide)
theorem sbcmAm (m : Byte) : Statement (.sbcmAm m) := ofWord_byteWord _ _ (by decide)
theorem daa (m : Byte) : Statement (.daa m) := ofWord_byteWord _ _ (by decide)
theorem andAm (m : Byte) : Statement (.andAm m) := ofWord_byteWord _ _ (by decide)
theorem orAm (m : Byte) : Statement (.orAm m) := ofWord_byteWord _ _ (by decide)
theorem xorAm (m : Byte) : Statement (.xorAm m) := ofWord_byteWord _ _ (by decide)
theorem andmAm (m : Byte) : Statement (.andmAm m) := ofWord_byteWord _ _ (by decide)
theorem ormAm (m : Byte) : Statement (.ormAm m) := ofWord_byteWord _ _ (by decide)
theorem xormAm (m : Byte) : Statement (.xormAm m) := ofWord_byteWord _ _ (by decide)
theorem andAx (x : Byte) : Statement (.andAx x) := ofWord_byteWord _ _ (by decide)
theorem orAx (x : Byte) : Statement (.orAx x) := ofWord_byteWord _ _ (by decide)
theorem xorAx (x : Byte) : Statement (.xorAx x) := ofWord_byteWord _ _ (by decide)
theorem cpl (m : Byte) : Statement (.cpl m) := ofWord_byteWord _ _ (by decide)
theorem cpla (m : Byte) : Statement (.cpla m) := ofWord_byteWord _ _ (by decide)
theorem inca (m : Byte) : Statement (.inca m) := ofWord_byteWord _ _ (by decide)
theorem inc (m : Byte) : Statement (.inc m) := ofWord_byteWord _ _ (by decide)
theorem deca (m : Byte) : Statement (.deca m) := ofWord_byteWord _ _ (by decide)
theorem dec (m : Byte) : Statement (.dec m) := ofWord_byteWord _ _ (by decide)
theorem rra (m : Byte) : Statement (.rra m) := ofWord_byteWord _ _ (by decide)
theorem rr (m : Byte) : Statement (.rr m) := ofWord_byteWord _ _ (by decide)
theorem rrca (m : Byte) : Statement (.rrca m) := ofWord_byteWord _ _ (by decide)
theorem rrc (m : Byte) : Statement (.rrc m) := ofWord_byteWord _ _ (by decide)
theorem rla (m : Byte) : Statement (.rla m) := ofWord_byteWord _ _ (by decide)
theorem rl (m : Byte) : Statement (.rl m) := ofWord_byteWord _ _ (by decide)
theorem rlca (m : Byte) : Statement (.rlca m) := ofWord_byteWord _ _ (by decide)
theorem rlc (m : Byte) : Statement (.rlc m) := ofWord_byteWord _ _ (by decide)
theorem movAm (m : Byte) : Statement (.movAm m) := ofWord_byteWord _ _ (by decide)
theorem movMa (m : Byte) : Statement (.movMa m) := ofWord_byteWord _ _ (by decide)
theorem movAx (x : Byte) : Statement (.movAx x) := ofWord_byteWord _ _ (by decide)
theorem clrBit (m : Byte) (i : Nat) : Statement (.clrBit m i) := ofWord_bitWord _ _ _
theorem setBit (m : Byte) (i : Nat) : Statement (.setBit m i) := ofWord_bitWord _ _ _
theorem jmp (addr : PAddr) : Statement (.jmp addr) := ofWord_addrWord _ _
theorem sz (m : Byte) : Statement (.sz m) := ofWord_byteWord _ _ (by decide)
theorem sza (m : Byte) : Statement (.sza m) := ofWord_byteWord _ _ (by decide)
theorem szBit (m : Byte) (i : Nat) : Statement (.szBit m i) := ofWord_bitWord _ _ _
theorem snzBit (m : Byte) (i : Nat) : Statement (.snzBit m i) := ofWord_bitWord _ _ _
theorem siz (m : Byte) : Statement (.siz m) := ofWord_byteWord _ _ (by decide)
theorem sdz (m : Byte) : Statement (.sdz m) := ofWord_byteWord _ _ (by decide)
theorem siza (m : Byte) : Statement (.siza m) := ofWord_byteWord _ _ (by decide)
theorem sdza (m : Byte) : Statement (.sdza m) := ofWord_byteWord _ _ (by decide)
theorem call (addr : PAddr) : Statement (.call addr) := ofWord_addrWord _ _
theorem ret : Statement .ret := ofWord_byteWord _ _ (by decide)
theorem retAx (x : Byte) : Statement (.retAx x) := ofWord_byteWord _ _ (by decide)
theorem reti : Statement .reti := ofWord_byteWord _ _ (by decide)
theorem tabrdc (m : Byte) : Statement (.tabrdc m) := ofWord_byteWord _ _ (by decide)
theorem tabrdl (m : Byte) : Statement (.tabrdl m) := ofWord_byteWord _ _ (by decide)
theorem nop : Statement .nop := ofWord_byteWord _ _ (by decide)
theorem clr (m : Byte) : Statement (.clr m) := ofWord_byteWord _ _ (by decide)
theorem set (m : Byte) : Statement (.set m) := ofWord_byteWord _ _ (by decide)
theorem clrWdt : Statement .clrWdt := ofWord_byteWord _ _ (by decide)
theorem clrWdt1 : Statement .clrWdt1 := ofWord_byteWord _ _ (by decide)
theorem clrWdt2 : Statement .clrWdt2 := ofWord_byteWord _ _ (by decide)
theorem swap (m : Byte) : Statement (.swap m) := ofWord_byteWord _ _ (by decide)
theorem swapa (m : Byte) : Statement (.swapa m) := ofWord_byteWord _ _ (by decide)
theorem halt : Statement .halt := ofWord_byteWord _ _ (by decide)

end Sys2Proof.Laws.EncodeFormat
end

