-- ==== Sys2Proof/Tests/Slice0.lean ====
section
/-! SUPPORT. The model's own tests. Expected values are those of 95_test_vectors.md, whose rows the
comments name, or follow from the named rule by hand. Then a witness for the hypotheses of every
statement of Certificates/Slice0/Obligations.lean that has some. -/

namespace Sys2Proof.Tests

open Sys2Proof Sys2Proof.Machine Sys2Proof.Config

/-! ### Helpers -/

/-- The next state, if the outcome is one. -/
def nextOf : Host.Outcome State Fault Refusal → Option State
  | .next t => some t
  | .fault _ => none
  | .refused _ => none

/-- The fault, if the outcome is one. -/
def faultOf : Host.Outcome State Fault Refusal → Option Fault
  | .next _ => none
  | .fault e => some e
  | .refused _ => none

/-- A word decodes to an instruction. -/
def reads (p : RomWord × Instr) : Bool :=
  match decode p.1 with
  | .ok i => i == p.2
  | .error _ => false

/-- A word decodes to nothing. -/
def unread (w : RomWord) : Bool :=
  match decode w with
  | .ok _ => false
  | .error _ => true

/-- The outcome of the instruction a word decodes to. -/
def outcome (w : RomWord) (s : State) : Option (Host.Outcome State Fault Refusal) :=
  match decode w with
  | .ok i => some (exec i s)
  | .error _ => none

/-- The state after the instruction a word decodes to. -/
def run (w : RomWord) (s : State) : Option State := (outcome w s).bind nextOf

/-- The fault of the instruction a word decodes to. -/
def stops (w : RomWord) (s : State) : Option Fault := (outcome w s).bind faultOf

/-- The instruction at 0100H has been fetched (95_test_vectors.md, conventions); flags and ACC 0. -/
def base : State := { State.reset with
  pc := 0x0101#13, acc := 0x00#8, fC := false, fAC := false, fZ := false, fOV := false }

/-- The base state with ACC and [40H]. -/
def cell (acc v : Byte) : State := { base.ramWrite 0x40#8 v with acc := acc }

/-- ACC, C, AC, Z and OV. -/
def sum (t : State) : Byte × Bool × Bool × Bool × Bool := (t.acc, t.fC, t.fAC, t.fZ, t.fOV)

/-- [40H], C, AC, Z and OV. -/
def stored (t : State) : Byte × Bool × Bool × Bool × Bool :=
  (t.ramRead 0x40#8, t.fC, t.fAC, t.fZ, t.fOV)

/-- The program counter and the cycles taken. -/
def flow (t : State) : PAddr × Nat := (t.pc, t.cycles)

/-! ### Well-formedness: an ill-formed term for each check, and the bounds -/

theorem test_wf_clrBit_refused : Instr.wf (.clrBit 0x40#8 8) = false := by decide
theorem test_wf_setBit_refused : Instr.wf (.setBit 0x40#8 8) = false := by decide
theorem test_wf_szBit_refused : Instr.wf (.szBit 0x40#8 8) = false := by decide
theorem test_wf_snzBit_refused : Instr.wf (.snzBit 0x40#8 8) = false := by decide
theorem test_wf_bit_seven : Instr.wf (.snzBit 0x40#8 7) = true := by decide

/-! ### Decoding: every constructor, from words written out by the formats of 30_encoding.md R142 and
the table of R143 -/

theorem test_decode_arithmetic : List.all [
    (0b00000001#8 ++ 0b10100101#8, .addAm 0xA5#8),
    (0b00000010#8 ++ 0b10100101#8, .addmAm 0xA5#8),
    (0b01000000#8 ++ 0b10100101#8, .addAx 0xA5#8),
    (0b00000011#8 ++ 0b10100101#8, .adcAm 0xA5#8),
    (0b00000100#8 ++ 0b10100101#8, .adcmAm 0xA5#8),
    (0b01000001#8 ++ 0b10100101#8, .subAx 0xA5#8),
    (0b00000101#8 ++ 0b10100101#8, .subAm 0xA5#8),
    (0b00000110#8 ++ 0b10100101#8, .submAm 0xA5#8),
    (0b00000111#8 ++ 0b10100101#8, .sbcAm 0xA5#8),
    (0b00001000#8 ++ 0b10100101#8, .sbcmAm 0xA5#8),
    (0b00001001#8 ++ 0b10100101#8, .daa 0xA5#8)] reads = true := by decide

theorem test_decode_logic : List.all [
    (0b00001010#8 ++ 0b10100101#8, .andAm 0xA5#8),
    (0b00001011#8 ++ 0b10100101#8, .orAm 0xA5#8),
    (0b00001100#8 ++ 0b10100101#8, .xorAm 0xA5#8),
    (0b00001101#8 ++ 0b10100101#8, .andmAm 0xA5#8),
    (0b00001110#8 ++ 0b10100101#8, .ormAm 0xA5#8),
    (0b00001111#8 ++ 0b10100101#8, .xormAm 0xA5#8),
    (0b01000010#8 ++ 0b10100101#8, .andAx 0xA5#8),
    (0b01000011#8 ++ 0b10100101#8, .orAx 0xA5#8),
    (0b01000100#8 ++ 0b10100101#8, .xorAx 0xA5#8),
    (0b00010000#8 ++ 0b10100101#8, .cpl 0xA5#8),
    (0b00010001#8 ++ 0b10100101#8, .cpla 0xA5#8)] reads = true := by decide

theorem test_decode_incdec : List.all [
    (0b00010010#8 ++ 0b10100101#8, .inca 0xA5#8),
    (0b00010011#8 ++ 0b10100101#8, .inc 0xA5#8),
    (0b00010100#8 ++ 0b10100101#8, .deca 0xA5#8),
    (0b00010101#8 ++ 0b10100101#8, .dec 0xA5#8)] reads = true := by decide

theorem test_decode_rotate : List.all [
    (0b00010110#8 ++ 0b10100101#8, .rra 0xA5#8),
    (0b00010111#8 ++ 0b10100101#8, .rr 0xA5#8),
    (0b00011000#8 ++ 0b10100101#8, .rrca 0xA5#8),
    (0b00011001#8 ++ 0b10100101#8, .rrc 0xA5#8),
    (0b00011010#8 ++ 0b10100101#8, .rla 0xA5#8),
    (0b00011011#8 ++ 0b10100101#8, .rl 0xA5#8),
    (0b00011100#8 ++ 0b10100101#8, .rlca 0xA5#8),
    (0b00011101#8 ++ 0b10100101#8, .rlc 0xA5#8)] reads = true := by decide

theorem test_decode_move : List.all [
    (0b00011110#8 ++ 0b10100101#8, .movAm 0xA5#8),
    (0b00011111#8 ++ 0b10100101#8, .movMa 0xA5#8),
    (0b01000101#8 ++ 0b10100101#8, .movAx 0xA5#8)] reads = true := by decide

theorem test_decode_bit : List.all [
    (0b100#3 ++ 0b01#2 ++ 0b000#3 ++ 0b01011010#8, .clrBit 0x5A#8 0),
    (0b100#3 ++ 0b01#2 ++ 0b110#3 ++ 0b01011010#8, .clrBit 0x5A#8 6),
    (0b100#3 ++ 0b00#2 ++ 0b111#3 ++ 0b01011010#8, .setBit 0x5A#8 7),
    (0b100#3 ++ 0b00#2 ++ 0b001#3 ++ 0b01011010#8, .setBit 0x5A#8 1)] reads = true := by decide

theorem test_decode_branch : List.all [
    (0b11#2 ++ 0b0#1 ++ 0b0101010110101#13, .jmp 0x0AB5#13),
    (0b00100000#8 ++ 0b10100101#8, .sz 0xA5#8),
    (0b00100001#8 ++ 0b10100101#8, .sza 0xA5#8),
    (0b100#3 ++ 0b10#2 ++ 0b011#3 ++ 0b01011010#8, .szBit 0x5A#8 3),
    (0b100#3 ++ 0b11#2 ++ 0b100#3 ++ 0b01011010#8, .snzBit 0x5A#8 4),
    (0b00100010#8 ++ 0b10100101#8, .siz 0xA5#8),
    (0b00100011#8 ++ 0b10100101#8, .sdz 0xA5#8),
    (0b00100100#8 ++ 0b10100101#8, .siza 0xA5#8),
    (0b00100101#8 ++ 0b10100101#8, .sdza 0xA5#8),
    (0b11#2 ++ 0b1#1 ++ 0b1010101001010#13, .call 0x154A#13),
    (0b00000000#8 ++ 0b00000101#8, .ret),
    (0b01000110#8 ++ 0b10100101#8, .retAx 0xA5#8),
    (0b00000000#8 ++ 0b00000110#8, .reti)] reads = true := by decide

theorem test_decode_table : List.all [
    (0b00100110#8 ++ 0b10100101#8, .tabrdc 0xA5#8),
    (0b00100111#8 ++ 0b10100101#8, .tabrdl 0xA5#8)] reads = true := by decide

theorem test_decode_misc : List.all [
    (0b00000000#8 ++ 0b00000000#8, .nop),
    (0b00101000#8 ++ 0b10100101#8, .clr 0xA5#8),
    (0b00101001#8 ++ 0b10100101#8, .set 0xA5#8),
    (0b00000000#8 ++ 0b00000001#8, .clrWdt),
    (0b00000000#8 ++ 0b00000010#8, .clrWdt1),
    (0b00000000#8 ++ 0b00000011#8, .clrWdt2),
    (0b00101010#8 ++ 0b10100101#8, .swap 0xA5#8),
    (0b00101011#8 ++ 0b10100101#8, .swapa 0xA5#8),
    (0b00000000#8 ++ 0b00000100#8, .halt)] reads = true := by decide

/-- 95_test_vectors.md V11. -/
theorem test_decode_V11 : List.all [
    (0x0000#16, .nop), (0x0006#16, .reti), (0x0100#16, .addAm 0x00#8), (0x2BFF#16, .swapa 0xFF#8),
    (0x4000#16, .addAx 0x00#8), (0x46FF#16, .retAx 0xFF#8), (0x8000#16, .setBit 0x00#8 0),
    (0x9FFF#16, .snzBit 0xFF#8 7), (0xC000#16, .jmp 0x0000#13), (0xFFFF#16, .call 0x1FFF#13)]
    reads = true := by decide

/-- 95_test_vectors.md V11 and the ends of the ranges of 30_encoding.md R145. -/
theorem test_unassigned_V11 : List.all [0x0007#16, 0x00FF#16, 0x2C00#16, 0x3F00#16, 0x3FFF#16,
    0x4700#16, 0x7FFF#16, 0xA000#16, 0xBFFF#16] unread = true := by decide

/-- The host's view of the same decoder. -/
theorem test_decodeTableWord :
    decodeTableWord 16 0x8226 = some (.setBit 0x26#8 2) ∧ decodeTableWord 16 0x0007 = none := by
  decide

/-! ### Arithmetic, 95_test_vectors.md V1 (C, AC, Z, OV) -/

theorem test_addAx_carry : (run 0x4001#16 { base with acc := 0xFF#8 }).map sum =
    some (0x00#8, true, true, true, false) := by decide
theorem test_addAx_overflow : (run 0x4080#16 { base with acc := 0x80#8 }).map sum =
    some (0x00#8, true, false, true, true) := by decide
theorem test_addAm : (run 0x0140#16 (cell 0x3A#8 0xC6#8)).map sum =
    some (0x00#8, true, true, true, false) := by decide
theorem test_addAm_old_flags_ignored :
    (run 0x0140#16 { cell 0x08#8 0x08#8 with fC := true, fOV := true }).map sum =
    some (0x10#8, false, true, false, false) := by decide
theorem test_addmAm : (run 0x0240#16 (cell 0x12#8 0x34#8)).map stored =
    some (0x46#8, false, false, false, false) := by decide
theorem test_adcAm_carry : (run 0x0340#16 { cell 0xFF#8 0x00#8 with fC := true }).map sum =
    some (0x00#8, true, true, true, false) := by decide
theorem test_adcAm_overflow : (run 0x0340#16 { cell 0x7F#8 0x00#8 with fC := true }).map sum =
    some (0x80#8, false, true, false, true) := by decide
theorem test_adcmAm : (run 0x0440#16 { cell 0x0F#8 0xF0#8 with fC := true }).map stored =
    some (0x00#8, true, true, true, false) := by decide
theorem test_subAx_borrow : (run 0x4101#16 { base with acc := 0x00#8 }).map sum =
    some (0xFF#8, false, false, false, false) := by decide
theorem test_subAx_overflow : (run 0x41FF#16 { base with acc := 0x7F#8 }).map sum =
    some (0x80#8, false, true, false, true) := by decide
theorem test_subAm : (run 0x0540#16 (cell 0x10#8 0x01#8)).map sum =
    some (0x0F#8, true, false, false, false) := by decide
theorem test_submAm : (run 0x0640#16 (cell 0x20#8 0x30#8)).map stored =
    some (0xF0#8, false, true, false, false) := by decide
theorem test_sbcAm_borrow : (run 0x0740#16 (cell 0x00#8 0xFF#8)).map sum =
    some (0x00#8, false, false, true, false) := by decide
theorem test_sbcAm_no_borrow : (run 0x0740#16 { cell 0x10#8 0x10#8 with fC := true }).map sum =
    some (0x00#8, true, true, true, false) := by decide
theorem test_sbcmAm : (run 0x0840#16 (cell 0x80#8 0x7F#8)).map stored =
    some (0x00#8, true, false, true, true) := by decide
theorem test_daa_high_adjusted :
    (run 0x0940#16 { cell 0xF9#8 0x00#8 with fAC := true }).map stored =
    some (0x5F#8, true, true, false, false) := by decide
theorem test_daa_both_adjusted : (run 0x0940#16 (cell 0xFA#8 0x00#8)).map stored =
    some (0x60#8, true, false, false, false) := by decide
theorem test_addmAm_status : stops 0x020A#16 base =
    some (.unpredictable 0x0100#13 (.addmAm 0x0A#8) 0x0A#8) := by decide
theorem test_addAm_unused : stops 0x0104#16 base = some (.unusedAddress 0x0100#13 0x04#8) := by
  decide

/-! ### Logic, increment and decrement, V2 and V3 -/

theorem test_andAx : (run 0x420F#16 { base with acc := 0xF0#8 }).map sum =
    some (0x00#8, false, false, true, false) := by decide
theorem test_andAm : (run 0x0A40#16 (cell 0xCC#8 0xAA#8)).map sum =
    some (0x88#8, false, false, false, false) := by decide
theorem test_andAm_status_source :
    (run 0x0A0A#16 { base with acc := 0x0F#8, fZ := true, fC := true }).map sum =
    some (0x05#8, true, false, false, false) := by decide
theorem test_orAx : (run 0x4300#16 { base with acc := 0x00#8 }).map sum =
    some (0x00#8, false, false, true, false) := by decide
theorem test_orAm : (run 0x0B40#16 (cell 0x0F#8 0xF0#8)).map sum =
    some (0xFF#8, false, false, false, false) := by decide
theorem test_xorAx : (run 0x44FF#16 { base with acc := 0xFF#8 }).map sum =
    some (0x00#8, false, false, true, false) := by decide
theorem test_xorAm : (run 0x0C40#16 (cell 0x5A#8 0xFF#8)).map sum =
    some (0xA5#8, false, false, false, false) := by decide
theorem test_andmAm : (run 0x0D40#16 (cell 0x0F#8 0xF0#8)).map stored =
    some (0x00#8, false, false, true, false) := by decide
theorem test_ormAm : (run 0x0E40#16 { cell 0x81#8 0x18#8 with fC := true }).map stored =
    some (0x99#8, true, false, false, false) := by decide
theorem test_xormAm : (run 0x0F40#16 (cell 0x3C#8 0x3C#8)).map stored =
    some (0x00#8, false, false, true, false) := by decide
theorem test_cpl : (run 0x1040#16 (cell 0x00#8 0xFF#8)).map stored =
    some (0x00#8, false, false, true, false) := by decide
theorem test_cpla : (run 0x1140#16 (cell 0x00#8 0x55#8)).map sum =
    some (0xAA#8, false, false, false, false) := by decide
theorem test_inc : (run 0x1340#16 { cell 0x00#8 0xFF#8 with fC := true }).map stored =
    some (0x00#8, true, false, true, false) := by decide
theorem test_inc_of_acc : (run 0x1305#16 { base with acc := 0xFF#8 }).map sum =
    some (0x00#8, false, false, true, false) := by decide
theorem test_inca : (run 0x1240#16 (cell 0x00#8 0x7F#8)).map sum =
    some (0x80#8, false, false, false, false) := by decide
theorem test_dec_to_zero : (run 0x1540#16 (cell 0x00#8 0x01#8)).map stored =
    some (0x00#8, false, false, true, false) := by decide
theorem test_dec_wraps : (run 0x1540#16 (cell 0x00#8 0x00#8)).map stored =
    some (0xFF#8, false, false, false, false) := by decide
theorem test_deca : (run 0x1440#16 (cell 0x05#8 0x01#8)).map sum =
    some (0x00#8, false, false, true, false) := by decide

/-! ### Rotates and nibble swap, V4 and V10 -/

theorem test_rr : (run 0x1740#16 (cell 0x00#8 0x01#8)).map stored =
    some (0x80#8, false, false, false, false) := by decide
theorem test_rra : (run 0x1640#16 { cell 0x00#8 0x02#8 with fC := true }).map sum =
    some (0x01#8, true, false, false, false) := by decide
theorem test_rrc : (run 0x1940#16 { cell 0x00#8 0x02#8 with fC := true }).map stored =
    some (0x81#8, false, false, false, false) := by decide
theorem test_rrc_zero_keeps_z : (run 0x1940#16 (cell 0x00#8 0x01#8)).map stored =
    some (0x00#8, true, false, false, false) := by decide
theorem test_rrca : (run 0x1840#16 { cell 0x00#8 0x81#8 with fC := true }).map sum =
    some (0xC0#8, true, false, false, false) := by decide
theorem test_rl : (run 0x1B40#16 (cell 0x00#8 0x80#8)).map stored =
    some (0x01#8, false, false, false, false) := by decide
theorem test_rla : (run 0x1A40#16 (cell 0x00#8 0x41#8)).map sum =
    some (0x82#8, false, false, false, false) := by decide
theorem test_rlc : (run 0x1D40#16 { cell 0x00#8 0x40#8 with fC := true }).map stored =
    some (0x81#8, false, false, false, false) := by decide
theorem test_rlca : (run 0x1C40#16 { cell 0x00#8 0x80#8 with fC := true }).map sum =
    some (0x01#8, true, false, false, false) := by decide
theorem test_rlc_status : stops 0x1D0A#16 base =
    some (.unpredictable 0x0100#13 (.rlc 0x0A#8) 0x0A#8) := by decide
theorem test_rl_status : (run 0x1B0A#16 { base with fOV := true, fC := true }).map
    State.statusByte = some 0x02#8 := by decide
theorem test_swap : (run 0x2A40#16 (cell 0x00#8 0xA5#8)).map stored =
    some (0x5A#8, false, false, false, false) := by decide
theorem test_swapa_of_acc : (run 0x2B05#16 { base with acc := 0x2D#8 }).map sum =
    some (0xD2#8, false, false, false, false) := by decide

/-! ### Moves, indirection and registers, V5 -/

theorem test_movAx : (run 0x455A#16 base).map sum =
    some (0x5A#8, false, false, false, false) := by decide
theorem test_movAm_unused : stops 0x1E02#16 { base with mp1 := 0x2F#8 } =
    some (.unusedAddress 0x0100#13 0x2F#8) := by decide

/-- 20_memory.md R112: TMR0L fills the buffer, TMR0H commits it, here with the timer off. -/
theorem test_timer_window : (((run 0x1F0D#16 { base with acc := 0x34#8 }).bind
    fun t => run 0x1F0C#16 { t with acc := 0x12#8 }).map fun t => (t.t0.cnt, t.t0.pre)) =
    some (0x1234#16, 0x1234#16) := by decide

/-- MOV [m],A at RAM, PCL, TBLH, VOICEC, INTC, STATUS and LATCH0H. -/
theorem test_movMa :
    (run 0x1F40#16 (cell 0x77#8 0x00#8)).map (·.ramRead 0x40#8) = some 0x77#8 ∧
    (run 0x1F30#16 { base with acc := 0x01#8 }).map (·.ramRead 0x30#8) = some 0x01#8 ∧
    (run 0x1F02#16 { base with mp1 := 0xFF#8, acc := 0x42#8 }).map (·.ramRead 0xFF#8) = some
      0x42#8 ∧
    (run 0x1F06#16 { base with pc := 0x1235#13, acc := 0x80#8 }).map flow = some (0x1280#13,
      2) ∧
    (run 0x1F08#16 { base with tblh := 0x12#8, acc := 0x80#8 }).map State.tblh = some 0x12#8 ∧
    (run 0x1F26#16 { base with acc := 0x7F#8 }).map State.voicecByte = some 0x16#8 ∧
    (run 0x1F0B#16 { base with acc := 0xFF#8 }).map State.intcByte = some 0x7F#8 ∧
    (run 0x1F0A#16 { base with acc := 0xFF#8 }).map State.statusByte = some 0x0F#8 ∧
    (run 0x1F18#16 { base with acc := 0xFF#8, latch0 := 0#18 }).map State.latch0 = some
      0x30000#18 := by decide

/-- Writes the spec refuses (V5, V13). -/
theorem test_movMa_refused :
    stops 0x1F26#16 { base with acc := 0xFF#8 } = some (.undocumentedBit 0x0100#13 0x26#8 7) ∧
    stops 0x1F0E#16 { base with acc := 0x10#8 } = some (.unpredictable 0x0100#13 (.movMa
      0x0E#8) 0x0E#8) ∧
    stops 0x1F25#16 { base with acc := 0x50#8 } = some (.unpredictable 0x0100#13 (.movMa
      0x25#8) 0x25#8) := by decide

/-- MOV A,[m] of RAM, through MP0, of PCL and of a port. -/
theorem test_movAm :
    (run 0x1E40#16 (cell 0x55#8 0x00#8)).map sum = some (0x00#8, false, false, false, false) ∧
    (run 0x1E00#16 { base.ramWrite 0x80#8 0x99#8 with mp0 := 0x80#8 }).map State.acc = some
      0x99#8 ∧
    (run 0x1E00#16 { base with mp0 := 0x02#8, acc := 0x55#8 }).map State.acc = some 0x00#8 ∧
    (run 0x1E06#16 base).map State.acc = some 0x01#8 ∧
    (run 0x1E12#16 { base with pa :=
      { latch := 0xA5#8, ctrl := 0xF0#8, driven := 0xFF#8, level := 0x3C#8 } }).map State.acc = some 0x35#8 := by decide

/-! ### Bits, V6 -/

theorem test_setBit : (run 0x8740#16 (cell 0x00#8 0x00#8)).map (·.ramRead 0x40#8) = some 0x80#8 :=
    by decide
theorem test_setBit_port : (run 0x8012#16 { base with pa :=
    { latch := 0xFF#8, ctrl := 0xFF#8, driven := 0xFF#8, level := 0x3C#8 } }).map (·.pa.latch) =
    some 0x3D#8 := by decide
theorem test_clrBit : (run 0x8840#16 (cell 0x00#8 0xFF#8)).map (·.ramRead 0x40#8) = some 0xFE#8 :=
    by decide
theorem test_clrBit_emi : (run 0x880B#16 { base with
    emi := true, enable := { ext := false, timer0 := false, timer1 := false, timer3 := false }
    request := { ext := false, timer0 := true, timer1 := false, timer3 := false } }).map
    State.intcByte = some 0x20#8 := by decide

/-! ### Skips, jumps, calls and returns, V7 and V8 -/

theorem test_sz_skips : (run 0x2040#16 (cell 0x00#8 0x00#8)).map flow = some (0x0102#13, 2) :=
    by decide
theorem test_sz_wraps : (run 0x2040#16 { cell 0x00#8 0x00#8 with pc := 0x1FFF#13 }).map flow =
    some (0x0000#13, 2) := by decide
theorem test_sza_skips : (run 0x2140#16 (cell 0x09#8 0x00#8)).map (fun t => (t.acc, flow t)) =
    some (0x00#8, 0x0102#13, 2) := by decide
theorem test_sza_passes : (run 0x2140#16 (cell 0x09#8 0x07#8)).map (fun t => (t.acc, flow t)) =
    some (0x07#8, 0x0101#13, 1) := by decide
theorem test_siz_skips : (run 0x2240#16 (cell 0x00#8 0xFF#8)).map (fun t => (stored t, flow t)) =
    some ((0x00#8, false, false, false, false), 0x0102#13, 2) := by decide
theorem test_siz_pcl : stops 0x2206#16 base =
    some (.unpredictable 0x0100#13 (.siz 0x06#8) 0x06#8) := by decide
theorem test_sdz_skips : (run 0x2340#16 (cell 0x00#8 0x01#8)).map (fun t => (stored t, flow t)) =
    some ((0x00#8, false, false, false, false), 0x0102#13, 2) := by decide
theorem test_sdz_passes :
    (run 0x2340#16 (cell 0x00#8 0x00#8)).map (fun t => (t.ramRead 0x40#8, flow t)) =
    some (0xFF#8, 0x0101#13, 1) := by decide
theorem test_siza : (run 0x2440#16 (cell 0x00#8 0xFF#8)).map
    (fun t => (t.acc, t.ramRead 0x40#8, flow t)) = some (0x00#8, 0xFF#8, 0x0102#13, 2) := by decide
theorem test_sdza : (run 0x2540#16 (cell 0x00#8 0x02#8)).map (fun t => (t.acc, flow t)) =
    some (0x01#8, 0x0101#13, 1) := by decide
theorem test_szBit_skips : (run 0x9340#16 (cell 0x00#8 0xF7#8)).map flow = some (0x0102#13, 2) :=
    by decide
theorem test_szBit_passes : (run 0x9340#16 (cell 0x00#8 0x08#8)).map flow = some (0x0101#13, 1) :=
    by decide
theorem test_snzBit_skips : (run 0x9F40#16 (cell 0x00#8 0x80#8)).map flow = some (0x0102#13, 2) :=
    by decide
theorem test_snzBit_passes : (run 0x9F40#16 (cell 0x00#8 0x7F#8)).map flow = some (0x0101#13, 1) :=
    by decide
theorem test_jmp : (run 0xDABC#16 base).map flow = some (0x1ABC#13, 2) := by decide
theorem test_call : (run 0xE200#16 { base with pc := 0x0000#13 }).map (fun t => (t.pc, t.stack)) =
    some (0x0200#13, [0x0000#13]) := by decide

/-- Eight stacked addresses, 0010H to 0017H. -/
def fullStack : List PAddr :=
  [0x10#13, 0x11#13, 0x12#13, 0x13#13, 0x14#13, 0x15#13, 0x16#13, 0x17#13]

theorem test_call_full_stack : (run 0xE200#16 { base with stack := fullStack }).map State.stack =
    some (fullStack.tail ++ [0x0101#13]) := by decide
theorem test_ret : (run 0x0005#16 { base with stack := [0x0010#13, 0x0456#13] }).map
    (fun t => (flow t, t.stack)) = some ((0x0456#13, 2), [0x0010#13]) := by decide
theorem test_ret_empty : stops 0x0005#16 base = some (.stackUnderflow 0x0100#13) := by decide
theorem test_retAx :
    (run 0x463C#16 { base with stack := [0x0456#13] }).map (fun t => (t.acc, t.pc)) =
    some (0x3C#8, 0x0456#13) := by decide
theorem test_reti :
    (run 0x0006#16 { base with stack := [0x0456#13] }).map (fun t => (t.emi, t.pc)) =
    some (true, 0x0456#13) := by decide

/-! ### Table reads and the rest, V9 and V10 -/

theorem test_tabrdc : (run 0x2640#16
    { base with rom := [(0x0234, 0xBEEF#16)], tbhp := 0x02#5, tblp := 0x34#8 }).map
    (fun t => (t.ramRead 0x40#8, t.tblh, t.cycles)) = some (0xEF#8, 0xBE#8, 2) := by decide
theorem test_tabrdc_pcl : (run 0x2606#16
    { base with pc := 0x0301#13, rom := [(0x0100, 0x0040#16)], tbhp := 0x01#5, tblp := 0x00#8 }).map
    (fun t => (t.tblh, flow t)) = some (0x00#8, 0x0340#13, 3) := by decide
theorem test_tabrdl : (run 0x2740#16
    { base with rom := [(0x1F34, 0x1234#16)], tbhp := 0x02#5, tblp := 0x34#8 }).map
    (fun t => (t.ramRead 0x40#8, t.tblh)) = some (0x34#8, 0x12#8) := by decide
theorem test_nop : (run 0x0000#16 base).map flow = some (0x0101#13, 1) := by decide
theorem test_clr_keeps_z : (run 0x2840#16 (cell 0x00#8 0x5A#8)).map stored =
    some (0x00#8, false, false, false, false) := by decide
theorem test_clr_pcl :
    (run 0x2806#16 { base with pc := 0x1235#13 }).map flow = some (0x1200#13, 2) := by decide
theorem test_set : (run 0x2940#16 (cell 0x00#8 0x00#8)).map (·.ramRead 0x40#8) = some 0xFF#8 :=
    by decide
theorem test_set_voicec : stops 0x2926#16 base = some (.undocumentedBit 0x0100#13 0x26#8 7) :=
    by decide

/-- TO = 1, PDF = 1, WDTCNT = 1234, with the option for one or two clear instructions. -/
def watched (times : ClrWdtTimes) : State := { base with
  fTO := true, fPDF := true, wdtcnt := 1234#15, wdt1f := false, wdt2f := false
  opt := { Options.ofReset with clrWdtTimes := times } }

/-- TO, PDF, WDTCNT, WDT1F and WDT2F. -/
def watch (t : State) : Bool × Bool × BitVec 15 × Bool × Bool :=
  (t.fTO, t.fPDF, t.wdtcnt, t.wdt1f, t.wdt2f)

theorem test_clrWdt : (run 0x0001#16 (watched .one)).map watch =
    some (false, false, 0#15, false, false) := by decide
theorem test_clrWdt_other_option : (run 0x0001#16 (watched .two)).map watch =
    some (true, true, 1234#15, false, false) := by decide
theorem test_clrWdt1_first : (run 0x0002#16 (watched .two)).map watch =
    some (true, true, 1234#15, true, false) := by decide
theorem test_clrWdt1_pair : (run 0x0002#16 { watched .two with wdt2f := true }).map watch =
    some (false, false, 0#15, false, false) := by decide
theorem test_clrWdt2_other_option : (run 0x0003#16 (watched .one)).map watch =
    some (true, true, 1234#15, false, false) := by decide
theorem test_clrWdt2_pair : (run 0x0003#16 { watched .two with wdt1f := true }).map watch =
    some (false, false, 0#15, false, false) := by decide
theorem test_halt : (run 0x0004#16 (watched .one)).map (fun t => (watch t, t.halted, t.pc)) =
    some ((false, true, 0#15, false, false), true, 0x0101#13) := by decide

/-! ### One step of the machine, V10 and V12 to V16 -/

/-- The state with a word where the next instruction is fetched. -/
def load (w : RomWord) (s : State) : State := s.withFetchWord 16 w.toNat

theorem test_first_instruction : (nextOf (step (State.reset.withFetchWord 16 0x455A))).map
    (fun t => (t.acc, t.pc, t.cycles, t.wdtcnt)) = some (0x5A#8, 0x0001#13, 1, 1#15) := by decide

theorem test_illegal_word : faultOf (step (State.reset.withFetchWord 16 0x0007)) =
    some (.illegalInstruction 0x0000#13 0x0007#16) := by decide

/-- 70_reset_and_hazards.md R503: power-on of the machine right after power-on changes nothing. -/
theorem test_powerOn : State.reset.chipReset .powerOn Unknowns.ofReset = State.reset := by decide

theorem test_clrWdt_step : (nextOf (step (load 0x0001#16 (watched .one)))).map watch =
    some (false, false, 1#15, false, false) := by decide

/-- Pending and enabled requests of Timer 0, INTC = 25H. -/
def requested : State := { base with
  emi := true
  enable := { ext := false, timer0 := true, timer1 := false, timer3 := false }
  request := { ext := false, timer0 := true, timer1 := false, timer3 := false } }

theorem test_interrupt_entry : (nextOf (step requested)).map
    (fun t => (t.stack, t.pc, t.intcByte, t.cycles)) =
    some ([0x0101#13], 0x0008#13, 0x04#8, 2) := by decide

theorem test_interrupt_full_stack : (nextOf (step (load 0x0000#16
    { requested with stack := fullStack }))).map (fun t => (t.stack, t.pc)) =
    some (fullStack, 0x0102#13) := by decide

/-- Timer 0 in timer mode, T0CNT = FFFFH: an instruction cycle reloads and requests (V13, T2). -/
theorem test_timer_overflow : (nextOf (step (load 0x0000#16 { base with t0 :=
    { cnt := 0xFFFF#16, pre := 0xFFFE#16, buf := 0x00#8, te := false, ton := true, tm := 0b10#2,
      pw := false, pin := false, lose := false } }))).map
    (fun t => (t.t0.cnt, t.request.timer0)) = some (0xFFFE#16, true) := by decide

/-- The cycle of the instruction that sets TON is counted (V13, T1). -/
theorem test_timer_start : (nextOf (step (load 0x840E#16 { base with t0 :=
    { cnt := 0x1234#16, pre := 0x1234#16, buf := 0x34#8, te := false, ton := false, tm := 0b10#2,
      pw := false, pin := false, lose := false } }))).map (·.t0.cnt) = some 0x1235#16 := by decide

/-- Timer Counter 3 with T1/2: the second cycle counts and overflows (V13, T3). -/
theorem test_timer3_overflow : (nextOf (step (load 0x0000#16 { base with t3 :=
    { cnt := 0xFF#8, pre := 0xFE#8, ps := 3#8, sel := 0#3, te := false, ton := true,
      tm := 0b10#2 } }))).map (fun t => (t.t3.cnt, t.t3.ps, t.request.timer3)) =
    some (0xFE#8, 4#8, true) := by decide

/-- WDTS = 00H: the clock that makes WDTCNT 256 is the time-out, a chip reset outside HALT (V14). -/
theorem test_wdt_reset : (nextOf (step (load 0x0000#16
    { base with wdts := 0x00#8, wdtcnt := 255#15, acc := 0x5A#8 }))).map
    (fun t => (t.pc, t.fTO, t.fPDF, t.wdts, t.acc)) =
    some (0x0000#13, true, false, 0x07#8, 0x5A#8) := by decide

/-- WDTS = 00H written when WDTCNT is past 256: the next multiple is 512 (V14, from 300). -/
theorem test_wdt_next_multiple : List.map (fun c => (nextOf (step (load 0x0000#16
    { base with wdts := 0x00#8, wdtcnt := c }))).map (fun t => (t.fTO, t.wdtcnt)))
    [300#15, 511#15] = [some (false, 301#15), some (true, 0#15)] := by decide

/-- The chip is in HALT and the events of a boundary are to come. -/
def asleep (slot : List EnvEvent) : State :=
  { base with halted := true, fPDF := true, env := [slot] }

/-- The warm reset keeps ACC and WDTS (V14, V15). -/
theorem test_wdt_warm_reset : (nextOf (step { asleep [.wdtOscTick] with
    wdts := 0x00#8, wdtcnt := 255#15, acc := 0x5A#8, stack := [0x0010#13]
    opt := { Options.ofReset with wdtClock := .wdtOsc } })).map
    (fun t => ((t.pc, t.stack, t.halted), t.fTO, t.fPDF, t.wdts, t.acc)) =
    some ((0x0000#13, [], false), true, true, 0x00#8, 0x5A#8) := by decide

/-- V16: INT from 1 to 0 in HALT. -/
theorem test_wake_by_int : (nextOf (step (asleep [.intPin false]))).map
    (fun t => (t.halted, t.request.ext, t.fPDF)) = some (false, true, true) := by decide

/-- V16: EIF was 1 already when HALT executed. -/
theorem test_no_wake_by_old_request : (nextOf (step { asleep [.intPin false] with
    haltPre := { ext := true, timer0 := false, timer1 := false, timer3 := false }
    request := { ext := true, timer0 := false, timer1 := false, timer3 := false } })).map
    State.halted = some true := by decide

/-- V16: PA3 from 1 to 0, with and without its option. -/
theorem test_wake_by_pa3 : List.map (fun mask =>
    (nextOf (step { asleep [.padsA 0xFF#8 0xF7#8] with
      opt := { Options.ofReset with paWakeup := mask } })).map State.halted) [0x08#8, 0xF7#8] =
    [some false, some true] := by decide

/-- V13: event count on the rising edge, and the reload at FFFFH. -/
theorem test_event_count : (nextOf (step { base with env := [[.timerPin .t0 true]], t0 :=
    { cnt := 0xFFFF#16, pre := 0x0010#16, buf := 0x00#8, te := false, ton := true, tm := 0b01#2,
      pw := false, pin := false, lose := false } })).map (fun t => (t.t0.cnt, t.request.timer0)) =
    some (0x0010#16, true) := by decide

/-- V13: the falling edge ends a measurement of a high pulse; TMR0C then reads C8H. -/
theorem test_pulse_end : (nextOf (step { base with env := [[.timerPin .t0 false]], t0 :=
    { cnt := 0x0005#16, pre := 0x0000#16, buf := 0x00#8, te := true, ton := true, tm := 0b11#2,
      pw := true, pin := true, lose := false } })).map (fun t => (t.t0.ctrlByte, t.t0.cnt)) =
    some (0xC8#8, 0x0005#16) := by decide

/-- Program P5, its last wait cycle: LATCHD takes the byte at the address in latch 0. -/
theorem test_voice_byte : (nextOf (step (load 0x0000#16 { base with
    vromc := true, latch0 := 0x00007#18, vromAge := 3, vrom := [(7, 0xA5#8)] }))).map
    (fun t => (t.latchd, t.voiceReady)) = some (0xA5#8, true) := by decide

/-- V15: RES low outside HALT keeps ACC, the flags and MP0. -/
theorem test_res : (nextOf (step { base with
    env := [[.resLow]], pc := 0x0345#13, stack := fullStack, acc := 0x5A#8, fC := true
    mp0 := 0x40#8, wdts := 0x03#8, pa := { Port.ofReset with ctrl := 0x00#8 } })).map
    (fun t => ((t.pc, t.stack, t.wdts), t.acc, t.fC, t.mp0, t.pa.ctrl)) =
    some ((0x0000#13, [], 0x07#8), 0x5A#8, true, 0x40#8, 0xFF#8) := by decide

/-! ### Witnesses: states and operands that meet the hypotheses of the statements -/

theorem quiet_of_nil {s : State} (h : s.env = []) : s.quiet := fun _ _ he => by
  rw [h] at he; cases he

theorem runsNext_load (w : RomWord) : (load w base).runsNext :=
  ⟨quiet_of_nil rfl, rfl, rfl⟩

/-- A RAM byte may be written any value. -/
theorem accepts_ram (a v : Byte) : (Loc.ram a).accepts v := ⟨nofun, nofun, nofun⟩

/-- The hypotheses of a form that reads: a location that is read, and one that does not exist. -/
def ReadMet : Prop :=
  (∃ v t, base.memRead 0x40#8 = .ok (v, t)) ∧ ∃ e, base.memRead 0x04#8 = .error e

/-- The hypotheses of a form that writes, with a forbidden location or none. -/
def WriteMet (ex : Option Loc) : Prop :=
  (∃ l v t, base.resolve 0x40#8 = .ok l ∧ base.readLoc l = (v, t) ∧ some l ≠ ex ∧
    (∀ w, l.accepts w) ∧ Memory.wf ramDefault 0x30 0x100 base.ram = true) ∧
  ∃ e, base.resolve 0x04#8 = .error e

theorem readMet : ReadMet := ⟨⟨_, _, rfl⟩, _, rfl⟩

theorem writeMet_status : WriteMet (some .status) :=
  ⟨⟨.ram 0x40#8, _, _, rfl, rfl, by decide, accepts_ram _, by decide⟩, _, rfl⟩

theorem writeMet_pcl : WriteMet (some .pcl) :=
  ⟨⟨.ram 0x40#8, _, _, rfl, rfl, by decide, accepts_ram _, by decide⟩, _, rfl⟩

theorem writeMet_none : WriteMet none :=
  ⟨⟨.ram 0x40#8, _, _, rfl, rfl, by decide, accepts_ram _, by decide⟩, _, rfl⟩

theorem witness_DecodeOfEncode : Instr.wf (.setBit 0xFF#8 0) = true ∧
    Instr.wf (.snzBit 0xFF#8 7) = true := by decide

theorem witness_EncodeOfDecode : decode 0x9FFF#16 = .ok (.snzBit 0xFF#8 7) ∧
    decode 0x0006#16 = .ok .reti := ⟨rfl, rfl⟩

theorem witness_UnassignedWordsStop : (load 0x0007#16 base).runsNext ∧
    ∀ i, decode ((load 0x0007#16 base).romRead (load 0x0007#16 base).pc) ≠ .ok i :=
  ⟨runsNext_load _, fun _ h => by cases h⟩

/-- An instruction to run; both watchdog clocks; two events left at a boundary. -/
theorem witness_StepRunsDecoded : (load 0x0004#16 base).runsNext ∧
    decode ((load 0x0004#16 base).romRead (load 0x0004#16 base).pc) = .ok .halt ∧
    base.opt.wdtClock = .t1 ∧
    State.opt { base with opt := { Options.ofReset with wdtClock := .wdtOsc } } =
      { base.opt with wdtClock := .wdtOsc } ∧
    State.env { base with env := [[.powerOn, .resLow], []] } = (.powerOn :: [.resLow]) :: [[]] :=
  ⟨runsNext_load _, rfl, rfl, rfl, rfl⟩

theorem witness_OperandLocations : operandOf (.daa 0x00#8) = some 0x00#8 ∧
    State.effective { base with mp0 := 0x2F#8 } 0x00#8 ∈ unusedAddresses ∧
    base.effective 0x04#8 ∈ unusedAddresses ∧ base.effective 0x03#8 ∉ unusedAddresses ∧
    State.effective { base with mp1 := 0x02#8 } 0x02#8 ∉ unusedAddresses ∧
    base.effective 0x30#8 ∉ unusedAddresses := by decide

theorem witness_Indirection :
    (0x00#8 = 0x00#8 ∧ 0x02#8 = State.mp0 { base with mp0 := 0x02#8 }) ∧
    (0x02#8 = 0x02#8 ∧ 0x00#8 = State.mp1 { base with mp1 := 0x00#8 }) ∧
    (0x02#8 = 0x02#8 ∧ 0x01#8 = State.mp1 { base with mp1 := 0x01#8 }) ∧
    ∃ v t, State.memRead { base with mp0 := 0x03#8 } 0x00#8 = .ok (v, t) :=
  ⟨⟨rfl, rfl⟩, ⟨rfl, rfl⟩, ⟨rfl, rfl⟩, _, _, rfl⟩

/-- The voice ROM circuit is on and `age` cycles of its delay of 4 have passed. -/
def voiced (age : Nat) : State := { base with vromc := true, vromAge := age }

theorem witness_RegisterReads : base.opt.part = .ht86070 ∧
    base.t0.ton = false ∧ base.t1.ton = false ∧
    ((voiced 4).vromc = true ∧ (voiced 4).opt.vromDelayCycles ≤ (voiced 4).vromAge) ∧
    ¬((voiced 3).vromc = true ∧ (voiced 3).opt.vromDelayCycles ≤ (voiced 3).vromAge) ∧
    0x30 ≤ (0x30#8).toNat := by decide

theorem witness_PortReads : 7 < 8 ∧ base.pa.ctrl.getLsbD 7 = true ∧
    base.pa.driven.getLsbD 7 = false ∧ base.opt.paPullHigh = true ∧
    base.pb.ctrl.getLsbD 7 = true ∧ base.pb.driven.getLsbD 7 = false ∧
    base.opt.pbPullHigh = true ∧
    (let p : Port := { latch := 0x80#8, ctrl := 0x01#8, driven := 0x01#8, level := 0x01#8 }
     p.ctrl.getLsbD 7 = false ∧ p.ctrl.getLsbD 0 = true ∧ p.driven.getLsbD 0 = true) ∧
    State.env { base with env := [[.padsB 0xFF#8 0x00#8]] } = (.padsB 0xFF#8 0x00#8 :: []) :: [] := by
  decide

theorem witness_RegisterWrites : 0x30 ≤ (0x30#8).toNat ∧ 0x30 ≤ (0xFF#8).toNat ∧
    Memory.wf ramDefault 0x30 0x100 base.ram = true := by decide

theorem witness_TimerRegisterWrites : base.t0.ton = false ∧ base.t1.ton = false ∧
    base.t3.ton = false ∧
    (let t := { base with
      t0 := { base.t0 with ton := true }, t1 := { base.t1 with ton := true }
      t3 := { base.t3 with ton := true } }
     t.t0.ton = true ∧ t.t1.ton = true ∧ t.t3.ton = true) ∧
    List.all [0x00#8, 0x2F#8, 0x50#8, 0xD0#8] (fun v =>
      !(v.getLsbD 4 && v.toNat / 64 == 0)) = true ∧
    List.all [0x00#8, 0x40#8, 0x90#8] (fun v =>
      !(v.getLsbD 4 && v.toNat / 64 != 2)) = true ∧
    ((0xD0#8).getLsbD 4 = true ∧ base.t0.ton = false ∧ base.t0.pw = true) ∧
    ((0x90#8).getLsbD 4 = true ∧ base.t3.ton = false ∧ base.t3.ps = 0xFF#8) ∧
    (0xCF#8).getLsbD 4 = false := by decide

theorem witness_VoiceRegisterWrites : base.latchc = false ∧ base.latchc ≠ true ∧
    State.latchc { base with latchc := true } = true ∧
    (0x7F#8).getLsbD 7 = false ∧ (0x14#8).getLsbD 2 ≠ base.vromc ∧
    (0x14#8).getLsbD 4 ≠ base.latchc ∧ (0x02#8).getLsbD 2 = base.vromc ∧
    (0x02#8).getLsbD 4 = base.latchc ∧ (0x02#8).getLsbD 7 = false := by decide

theorem witness_RefusedDestinations :
    flagsToMemory (.rlc 0x0A#8) = some 0x0A#8 ∧ base.resolve 0x0A#8 = .ok .status ∧
    State.resolve { base with mp1 := 0x06#8 } 0x02#8 = .ok .pcl ∧
    (0x10#8).getLsbD 4 = true ∧ (0x10#8).toNat / 64 = 0 ∧
    base.resolve 0x0E#8 = .ok (.tmrC .t0) ∧ base.resolve 0x11#8 = .ok (.tmrC .t1) ∧
    (0xD0#8).getLsbD 4 = true ∧ (0xD0#8).toNat / 64 ≠ 2 ∧ base.resolve 0x25#8 = .ok .tmr3c ∧
    (0x80#8).getLsbD 7 = true ∧ base.resolve 0x26#8 = .ok .voicec :=
  ⟨rfl, rfl, rfl, by decide, by decide, rfl, rfl, by decide, by decide, rfl, by decide, rfl⟩

/-- The byte an instruction would write at the location of its operand. -/
def writes (s : State) (l : Loc) (i : Instr) : Option (Byte × Byte) := s.written (s.readLoc l).1 i

/-- All timers off in mode 00, TMR3C reading 0FH, ACC and every program word 80H. -/
def unused : State := { base with
  acc := 0x80#8
  tbhp := 0#5
  tblp := 0#8
  rom := [(0, 0x0080#16)]
  t0 := { Timer16.ofReset with tm := 0b00#2 }
  t3 := { Timer8.ofReset with tm := 0b00#2 } }

/-- Values that their location does not accept, from every kind of writer. -/
theorem witness_RefusedDestinations_values :
    writes unused .voicec (.set 0x26#8) = some (0x26#8, 0xFF#8) ∧
    writes unused .voicec (.setBit 0x26#8 7) = some (0x26#8, 0x80#8) ∧
    writes unused .voicec (.addmAm 0x26#8) = some (0x26#8, 0x80#8) ∧
    writes unused .voicec (.tabrdc 0x26#8) = some (0x26#8, 0x80#8) ∧
    writes unused (.tmrC .t0) (.setBit 0x0E#8 4) = some (0x0E#8, 0x18#8) ∧
    writes unused .tmr3c (.inc 0x25#8) = some (0x25#8, 0x10#8) ∧
    (0xFF#8).getLsbD 7 = true ∧ ¬(Loc.voicec.accepts 0xFF#8) ∧ ¬(Loc.voicec.accepts 0x80#8) ∧
    ¬((Loc.tmrC .t0).accepts 0x18#8) ∧ ¬(Loc.tmr3c.accepts 0x10#8) :=
  ⟨by decide, by decide, by decide, by decide, by decide, by decide, by decide,
    fun h => absurd (h.2.2 rfl) (by decide), fun h => absurd (h.2.2 rfl) (by decide),
    fun h => h.1 .t0 rfl (by decide) (by decide),
    fun h => absurd (h.2.1 rfl (by decide)) (by decide)⟩

theorem witness_AddToAccumulator : ReadMet := readMet
theorem witness_SubtractFromAccumulator : ReadMet := readMet
theorem witness_AddToMemory : WriteMet (some .status) := writeMet_status
theorem witness_SubtractToMemory : WriteMet (some .status) := writeMet_status

theorem witness_DecimalAdjust : WriteMet (some .status) ∧ base.resolve 0x40#8 ≠ .ok .status :=
  ⟨writeMet_status, fun h => by cases h⟩

theorem witness_DecimalAdjustAddsDecimals :
    (0x99#8).toNat % 16 ≤ 9 ∧ (0x99#8).toNat / 16 ≤ 9 ∧
    ∃ t, exec (.addAx 0x99#8) { base with acc := 0x99#8 } = .next t :=
  ⟨by decide, by decide, _, rfl⟩

theorem witness_LogicToAccumulator : ReadMet := readMet
theorem witness_LogicToMemory : WriteMet (some .status) := writeMet_status
theorem witness_IncrementDecrement : ReadMet ∧ WriteMet (some .status) :=
  ⟨readMet, writeMet_status⟩
theorem witness_RotateToAccumulator : ReadMet := readMet
theorem witness_RotateInMemory : WriteMet none ∧ WriteMet (some .status) :=
  ⟨writeMet_none, writeMet_status⟩
theorem witness_SwapNibbles : ReadMet ∧ WriteMet none := ⟨readMet, writeMet_none⟩
theorem witness_LoadsAndStores : ReadMet ∧ WriteMet none := ⟨readMet, writeMet_none⟩
theorem witness_BitOperations : 0 < 8 ∧ 7 < 8 ∧ WriteMet none :=
  ⟨by decide, by decide, writeMet_none⟩
theorem witness_TestAndSkip : 0 < 8 ∧ 7 < 8 ∧ ReadMet := ⟨by decide, by decide, readMet⟩
theorem witness_LoadAndSkip : ReadMet := readMet
theorem witness_CountAndSkip : WriteMet (some .pcl) := writeMet_pcl
theorem witness_TableReads : WriteMet none := writeMet_none

theorem witness_JumpAndCall : fullStack.tail.length < 8 ∧ fullStack.length = 8 := by decide

theorem witness_Returns : fullStack = fullStack.dropLast ++ [0x17#13] ∧ base.stack = [] := by
  decide

/-- Program P9: the CALL at 0010H and the one at its target 0020H stack 0011H and 0021H, and the RETs
come back to 0021H first. -/
theorem test_trail_P9 : ((State.trail [.call 0x0020#13, .call 0x0030#13, .ret, .ret]
    { base with pc := 0x0010#13 }).map (·.1)) =
    some [0x0020#13, 0x0030#13, 0x0021#13, 0x0011#13] := by decide

/-- Eight calls over an empty stack; one call over seven entries. -/
theorem witness_NestedCallsReturn : base.stack.length + fullStack.length ≤ 8 ∧
    (State.stack { base with stack := fullStack.tail }).length + [0x0020#13].length ≤ 8 := by decide

/-- An output line, a driven input line and an undriven one. -/
theorem witness_NopAndHalt : List.map (fun k =>
    let p : Port := { latch := 0x01#8, ctrl := 0xFE#8, driven := 0x02#8, level := 0x02#8 }
    (p.ctrl.getLsbD k, p.driven.getLsbD k)) [0, 1, 7] =
      [(false, false), (true, true), (true, false)] ∧ base.opt.paPullHigh = true := by decide

theorem witness_WatchdogClears : (watched .one).opt.wdtEnable = true ∧
    (watched .one).opt.clrWdtTimes = .one ∧ (watched .two).opt.wdtEnable = true ∧
    (watched .two).opt.clrWdtTimes = .two ∧
    Options.wdtEnable { Options.ofReset with wdtEnable := false } = false := by decide

theorem witness_PowerFlagsKept :
    ∃ t, exec (.movMa 0x0A#8) { base with acc := 0x30#8 } = .next t :=
  ⟨_, rfl⟩

theorem witness_StackAndRomKept : ∃ t, exec (.swap 0x40#8) base = .next t := ⟨_, rfl⟩

/-- EMI = 1, seven entries on the stack, all requests pending, the sources `e` enabled. -/
def waiting (e : IrqBits) : State := { base with
  emi := true, stack := fullStack.tail, enable := e
  request := { ext := true, timer0 := true, timer1 := true, timer3 := true } }

theorem waiting_quiet (e : IrqBits) : (waiting e).quiet := quiet_of_nil rfl

/-- Each source is the one of highest priority in some state. -/
theorem witness_InterruptTaken : ∀ src : IrqSource, ∃ e : IrqBits, (waiting e).quiet ∧
    (waiting e).halted = false ∧ (waiting e).emi = true ∧ (waiting e).stack.length < 8 ∧
    (waiting e).request.get src = true ∧ (waiting e).enable.get src = true ∧
    ∀ other : IrqSource, other.vector.toNat < src.vector.toNat →
      ¬((waiting e).request.get other = true ∧ (waiting e).enable.get other = true)
  | .ext => ⟨{ ext := true, timer0 := true, timer1 := true, timer3 := true },
      waiting_quiet _, rfl, rfl, by decide, rfl, rfl, fun o => by cases o <;> decide⟩
  | .timer0 => ⟨{ ext := false, timer0 := true, timer1 := true, timer3 := true },
      waiting_quiet _, rfl, rfl, by decide, rfl, rfl, fun o => by cases o <;> decide⟩
  | .timer1 => ⟨{ ext := false, timer0 := false, timer1 := true, timer3 := true },
      waiting_quiet _, rfl, rfl, by decide, rfl, rfl, fun o => by cases o <;> decide⟩
  | .timer3 => ⟨{ ext := false, timer0 := false, timer1 := false, timer3 := true },
      waiting_quiet _, rfl, rfl, by decide, rfl, rfl, fun o => by cases o <;> decide⟩

/-- EMI = 0; a full stack; no source requested and enabled. In the first the fetched RET stops. -/
theorem witness_InterruptHeld :
    ((load 0x0005#16 base).quiet ∧ (load 0x0005#16 base).halted = false ∧
      (load 0x0005#16 base).emi = false ∧
      decode ((load 0x0005#16 base).romRead (load 0x0005#16 base).pc) = .ok .ret ∧
      exec .ret { (load 0x0005#16 base).pastEvents with pc := (load 0x0005#16 base).pc + 1#13 } =
        .fault (.stackUnderflow 0x0101#13)) ∧
    (let s := { requested with stack := fullStack }
     State.quiet s ∧ s.halted = false ∧ 8 ≤ s.stack.length) ∧
    (let s := { base with emi := true }
     State.quiet s ∧ s.halted = false ∧
      ∀ src : IrqSource, s.request.get src = false ∨ s.enable.get src = false) :=
  ⟨⟨quiet_of_nil rfl, rfl, rfl, rfl, rfl⟩, ⟨quiet_of_nil rfl, rfl, by decide⟩,
    quiet_of_nil rfl, rfl, fun src => by cases src <;> decide⟩

theorem witness_EntryThenReti : requested.emi = true ∧
    State.emi { requested with stack := fullStack.tail } = true ∧
    (State.stack { requested with stack := fullStack.tail }).length < 8 := by decide

/-- A falling edge; a rising edge with each option. -/
theorem witness_ExternalInterruptEdge :
    (asleep [.intPin false]).env = (.intPin false :: []) :: [] ∧
    ((asleep [.intPin false]).intPrev = true ∧ false = false) ∧
    (let s : State := { asleep [.intPin true] with
      intPrev := false, opt := { Options.ofReset with intEdge := .fallingAndRising } }
     s.env = (.intPin true :: []) :: [] ∧ s.intPrev = false ∧
      s.opt.intEdge = .fallingAndRising) ∧
    ¬((asleep []).opt.intEdge = .fallingAndRising) := by decide

/-- Timer n of both numbers runs in mode `tm`. -/
def timed (tm : BitVec 2) (cnt : BitVec 16) (te pw pin lose : Bool) : State := { base with
  t0 := { cnt := cnt, pre := 0x0010#16, buf := 0x00#8, te := te, ton := true, tm := tm, pw := pw
          pin := pin, lose := lose }
  t1 := { cnt := cnt, pre := 0x0010#16, buf := 0x00#8, te := te, ton := true, tm := tm, pw := pw
          pin := pin, lose := lose } }

/-- At FFFFH the first count overflows; at 0000H count 65535 does not and count 65536 does. -/
theorem witness_TimerOverflow :
    1 = 65536 - ((timed 0b10#2 0xFFFF#16 false false false false).timer .t1).cnt.toNat ∧
    65535 < 65536 - ((timed 0b10#2 0x0000#16 false false false false).timer .t0).cnt.toNat := by
  decide

/-- At FFFFH and below, in both modes that count; each reason not to count. -/
theorem witness_TimerCountsInternalClock :
    (let t := (timed 0b10#2 0xFFFE#16 false false false false).timer .t0
     t.ton = true ∧ t.tm = 0b10#2 ∧ t.lose = false ∧ t.cnt.toNat ≠ 65535) ∧
    (let t := (timed 0b11#2 0xFFFF#16 true true true false).timer .t1
     t.ton = true ∧ (t.tm = 0b11#2 ∧ t.pw = true) ∧ t.lose = false ∧ t.cnt.toNat = 65535) ∧
    (let t := (timed 0b11#2 0xFFFF#16 true false true false).timer .t1
     t.tm = 0b11#2 ∧ t.pw = false) ∧
    ((timed 0b10#2 0xFFFF#16 true true true true).timer .t0).lose = true ∧
    ((timed 0b01#2 0xFFFF#16 true true true false).timer .t0).tm = 0b01#2 ∧
    (base.timer .t0).ton = false := by decide

/-- Timer Counter 3 runs from a cleared prescaler. -/
def timed3 (cnt : Byte) (sel : BitVec 3) : State := { base with t3 :=
  { cnt := cnt, pre := 0x10#8, ps := 0#8, sel := sel, te := false, ton := true, tm := 0b10#2 } }

/-- The same, with the prescaler at `ps`. -/
def phased3 (cnt : Byte) (sel : BitVec 3) (ps : Byte) : State :=
  { timed3 cnt sel with t3 := { (timed3 cnt sel).t3 with ps := ps } }

theorem witness_TimerThreePrescaler : base.t3.ton = false ∧
    Timer8.tm { (timed3 0xFF#8 7#3).t3 with tm := 0b01#2 } ≠ 0b10#2 ∧ (timed3 0xFF#8 7#3).t3.ton = true ∧
    (timed3 0xFF#8 7#3).t3.tm = 0b10#2 ∧ (timed3 0xFF#8 7#3).t3.ps = 0#8 ∧
    (let s := phased3 0xFE#8 1#3 0xFC#8
     s.t3.ps.toNat % 2 ^ (s.t3.sel.toNat + 1) = 0 ∧
      (s.t3.ps.toNat + 1) % 2 ^ (s.t3.sel.toNat + 1) ≠ 0) ∧
    (let s := phased3 0xFE#8 1#3 0xFF#8
     (s.t3.ps.toNat + 1) % 2 ^ (s.t3.sel.toNat + 1) = 0 ∧ s.t3.cnt.toNat ≠ 255) ∧
    255 < 2 ^ ((timed3 0xFF#8 7#3).t3.sel.toNat + 1) ∧
    256 = 2 ^ ((timed3 0xFF#8 7#3).t3.sel.toNat + 1) ∧ (timed3 0xFF#8 7#3).t3.cnt.toNat = 255 ∧
    2 = 2 ^ ((timed3 0xFE#8 0#3).t3.sel.toNat + 1) ∧ (timed3 0xFE#8 0#3).t3.cnt.toNat ≠ 255 := by
  decide

/-- TE = 0 and a rising edge, at FFFFH and below; TE = 1 and the same edge. -/
theorem witness_EventCounting : List.all [(false, 0xFFFF#16), (false, 0xFFFE#16), (true, 0xFFFF#16)]
    (fun p =>
    let s := timed 0b01#2 p.2 p.1 false false false
    s.opt.extTimer && (s.timer .t0).ton && (s.timer .t0).tm == 0b01#2 &&
      (s.timer .t0).pin == !true && ((s.timer .t0).te == !true || (s.timer .t0).te == true)) =
    true := by decide

/-- The option disabled or no change of level; TON = 0, modes 00 and 10 with a change. -/
theorem witness_EventCounting_idle :
    (base.timer .t0).pin = false ∧ (base.timer .t0).ton = false ∧
    ((timed 0b00#2 0x0000#16 false false true false).timer .t0).tm = 0b00#2 ∧
    ((timed 0b10#2 0x0000#16 false false true false).timer .t1).tm = 0b10#2 ∧
    base.opt.extTimer = true ∧
    State.opt { base with opt := { Options.ofReset with extTimer := false } } =
      { Options.ofReset with extTimer := false } ∧
    Options.extTimer { Options.ofReset with extTimer := false } = false := by decide

/-- V16: in HALT the count at FFFFH wakes the chip, unless TnF was 1 when HALT executed. -/
theorem test_wake_by_count : List.map (fun old =>
    (nextOf (step { timed 0b01#2 0xFFFF#16 false false false false with
      halted := true, env := [[.timerPin .t1 true]]
      haltPre := { ext := false, timer0 := false, timer1 := old, timer3 := false } })).map
      (fun t => (t.halted, t.t1.cnt, t.request.timer1))) [false, true] =
    [some (false, 0x0010#16, true), some (true, 0x0010#16, true)] := by decide

/-- The four cases: a measurement runs or not, and the edge is the one TE selects or the other. -/
theorem witness_PulseMeasurement : List.all [(false, true), (true, false), (false, false),
      (true, true)] (fun p =>
    let s := timed 0b11#2 0x0000#16 p.2 p.1 false false
    s.opt.extTimer && (s.timer .t1).ton && (s.timer .t1).tm == 0b11#2 &&
      (s.timer .t1).pin == !true && (s.timer .t1).pw == p.1 && (s.timer .t1).te == p.2) =
    true := by decide

theorem witness_WatchdogPeriod :
    State.opt { base with opt := { Options.ofReset with wdtEnable := false } } =
      { Options.ofReset with wdtEnable := false } ∧
    base.opt.wdtEnable = true ∧ base.wdtcnt = 0#15 ∧ base.resComing = false ∧
    (∀ c ∈ [100, 300], (c + 1) % 2 ^ (8 + (0x00#8).toNat % 8) ≠ 0) ∧
    (∀ c ∈ [255, 511, 32767], (c + 1) % 2 ^ (8 + (0x00#8).toNat % 8) = 0) ∧
    State.resComing { base with env := [[.resLow]] } = true ∧
    32767 < 256 * 2 ^ (base.wdts.toNat % 8) ∧ 32768 = 256 * 2 ^ (base.wdts.toNat % 8) ∧
    base.halted = false ∧ (asleep []).halted = true ∧ (asleep []).opt.wdtEnable = true ∧
    (asleep []).wdtcnt = 0#15 ∧ (asleep []).resComing = false ∧
    (asleep [.wdtOscTick]).env = (.wdtOscTick :: []) :: [] ∧
    (asleep [.wdtOscTick]).opt.wdtClock = .t1 ∧
    State.opt { asleep [.wdtOscTick] with opt := { Options.ofReset with wdtClock := .wdtOsc } } =
      { Options.ofReset with wdtClock := .wdtOsc } := by decide

theorem witness_HaltHolds : (asleep []).halted = true ∧ (asleep []).quiet :=
  ⟨rfl, fun _ _ h => by injection h with h; exact h.symm⟩

/-- A falling edge of PA7 in HALT; the same event awake; an output line and lines nobody drives. -/
theorem witness_PortAWakes :
    (asleep [.padsA 0x80#8 0x7F#8]).env = (.padsA 0x80#8 0x7F#8 :: []) :: [] ∧
    (asleep [.padsA 0x80#8 0x7F#8]).halted = true ∧
    State.env { base with env := [[.padsA 0x80#8 0x7F#8]] } = (.padsA 0x80#8 0x7F#8 :: []) :: [] ∧
    base.halted = false ∧
    (let p : Port := { latch := 0x01#8, ctrl := 0xFE#8, driven := 0x00#8, level := 0xFF#8 }
     p.ctrl.getLsbD 0 = false ∧ p.ctrl.getLsbD 7 = true ∧ (0x80#8).getLsbD 7 = true ∧
      (0x80#8).getLsbD 1 = false ∧ (asleep []).opt.paPullHigh = true) ∧
    (7 < 8 ∧ (asleep []).opt.paWakeup.getLsbD 7 = true ∧
      (asleep []).paPrev.getLsbD 7 = true ∧ (0x7F#8).getLsbD 7 = false) := by decide

theorem witness_ResetEvents : (asleep [.powerOn]).env = (.powerOn :: []) :: [] ∧
    (asleep [.resLow]).env = (.resLow :: []) :: [] ∧ (asleep [.resLow]).halted = true ∧
    State.env { base with env := [[.resLow]] } = (.resLow :: []) :: [] ∧
    base.halted = false := by decide

/-- The circuit off; the delay over; the last address of the HT86070's voice ROM, and a delay of 4
cycles. -/
theorem witness_VoiceByteDelivered : base.vromc = false ∧
    (voiced 4).opt.vromDelayCycles ≤ (voiced 4).vromAge ∧
    (let s := { voiced 0 with latch0 := 0x2FFFF#18 }
     s.vromc = true ∧ s.vromAge = 0 ∧
      (if s.latchc then s.latch1 else s.latch0).toNat % 2 ^ s.opt.part.vromAddrBits <
        s.opt.part.vromBytes ∧
      3 < s.opt.vromDelayCycles ∧ s.opt.vromDelayCycles ≤ 4 ∧ 0 < s.opt.vromDelayCycles) := by
  decide

theorem reset_inv_parts : State.reset.depth ≤ 8 ∧
    Memory.wf ramDefault 0x30 0x100 State.reset.ram = true ∧ State.reset.t0.legal = true ∧
    State.reset.t3.legal = true ∧ State.reset.vromAge ≤ State.reset.opt.vromDelayCycles := by
  decide

theorem witness_StepKeepsInv : State.reset.Inv ∧ ∃ t, step State.reset = .next t :=
  ⟨⟨by decide, by decide, by decide, by decide, rfl, by decide, by decide, by decide, by decide,
    rfl⟩, _, rfl⟩

theorem witness_StepKeepsChip : ∃ t, step requested = .next t := ⟨_, rfl⟩

end Sys2Proof.Tests
end

section
/-! Proofs about the state as a whole: the invariant of the machine (10_state.md R26, R41), nested
calls (R26 to R28), the power flags (R25), one step (60_exceptions.md R411, R430) and the audio
output (R466). -/

namespace Sys2Proof.Machine

open Sys2Proof.Config

/-! ### The invariant inside a step

Between two boundaries a block of TMRnH and an unfinished restart of VROM_age may stand. `Inv` is
cut into the part that every operation keeps and the leftovers that the device step clears. -/

/-- A timer 0 or 1 is not running in the mode the source calls "Unused" (60_exceptions.md R433). -/
def Timer16.modeLegal (t : Timer16) : Bool := !t.ton || t.tm != 0b00#2

/-- The clauses of `State.Inv` that hold inside a step too. -/
structure State.MidInv (s : State) : Prop where
  depth : s.depth ≤ 8
  ram : Memory.wf ramDefault 0x30 0x100 s.ram = true
  rom : Memory.wf romDefault 0 0x2000 s.rom = true
  vrom : Memory.wf vromDefault 0 s.opt.part.vromBytes s.vrom = true
  voiceB7 : s.voiceB7 = false
  t0 : s.t0.modeLegal = true
  t1 : s.t1.modeLegal = true
  t3 : s.t3.legal = true
  vromAge : s.vromAge ≤ s.opt.vromDelayCycles

/-- No count of timer 0 or 1 is blocked (60_exceptions.md R436). -/
def State.Unblocked (s : State) : Prop := ∀ n, (s.timer n).lose = false

theorem Timer16.legal_iff (t : Timer16) :
    t.legal = true ↔ t.modeLegal = true ∧ t.lose = false := by
  simp [Timer16.legal, Timer16.modeLegal]

theorem State.unblocked_iff (s : State) :
    s.Unblocked ↔ s.t0.lose = false ∧ s.t1.lose = false :=
  ⟨fun h => ⟨h .t0, h .t1⟩, fun ⟨h0, h1⟩ n => by cases n <;> assumption⟩

/-- The invariant is its part inside a step and no leftovers. -/
theorem State.inv_iff (s : State) :
    s.Inv ↔ s.MidInv ∧ s.Unblocked ∧ s.vromRestart = false := by
  rw [State.unblocked_iff]
  constructor
  · intro h
    obtain ⟨m0, l0⟩ := (Timer16.legal_iff _).mp h.t0
    obtain ⟨m1, l1⟩ := (Timer16.legal_iff _).mp h.t1
    exact ⟨{ h with t0 := m0, t1 := m1 }, ⟨l0, l1⟩, h.vromRestart⟩
  · rintro ⟨h, ⟨l0, l1⟩, hr⟩
    exact { h with
      t0 := (Timer16.legal_iff _).mpr ⟨h.t0, l0⟩
      t1 := (Timer16.legal_iff _).mpr ⟨h.t1, l1⟩
      vromRestart := hr }

/-! ### What keeps the invariant inside a step -/

theorem State.MidInv.afterRead {s t : State} (h : s.MidInv) (ht : s.afterRead t) : t.MidInv := by
  rw [ht]; exact { h with }

theorem State.MidInv.afterOwn {s t : State} (h : s.MidInv) (ht : s.afterOwn t) : t.MidInv := by
  rw [ht]; exact { h with }

theorem State.MidInv.timer {s : State} (h : s.MidInv) (n : TimerId) :
    (s.timer n).modeLegal = true := by
  cases n
  · exact h.t0
  · exact h.t1

theorem State.MidInv.setTimer {s : State} (h : s.MidInv) (n : TimerId) {t : Timer16}
    (ht : t.modeLegal = true) : (s.setTimer n t).MidInv := by
  cases n
  · exact { h with t0 := ht }
  · exact { h with t1 := ht }

theorem State.MidInv.raiseRequest {s : State} (h : s.MidInv) (src : IrqSource) :
    (s.raiseRequest src).MidInv := { h with }

theorem State.MidInv.writeLatch {s : State} (h : s.MidInv) (n : LatchId) (v : BitVec 18) :
    (s.writeLatch n v).MidInv := by
  rw [State.writeLatch_eq]; exact { h with }

theorem State.MidInv.ramWrite {s : State} (h : s.MidInv) {a : Byte} (ha : 0x30 ≤ a.toNat)
    (v : Byte) : (s.ramWrite a v).MidInv :=
  { h with ram := Memory.write_wf h.ram ha a.isLt }

/-- A control byte the location accepts leaves timer 0 or 1 off or in a mode that counts. -/
theorem Timer16.writeCtrl_modeLegal {n : TimerId} {v : Byte} (h : (Loc.tmrC n).accepts v)
    (t : Timer16) : (t.writeCtrl v).modeLegal = true := by
  obtain ⟨hmode, -⟩ := h
  simpa [Timer16.modeLegal, Timer16.writeCtrl, or_iff_not_imp_left] using hmode n rfl

/-- The same for Timer Counter 3. -/
theorem Timer8.writeCtrl_legal {v : Byte} (h : Loc.tmr3c.accepts v) (t : Timer8) :
    (t.writeCtrl v).legal = true := by
  obtain ⟨-, hmode, -⟩ := h
  simpa [Timer8.legal, Timer8.writeCtrl, or_iff_not_imp_left] using hmode rfl

/-- A write that the location accepts keeps the invariant inside a step. -/
theorem State.MidInv.writeLoc {s : State} (h : s.MidInv) {v : Byte} {l : Loc}
    (hacc : l.accepts v) (hram : ∀ a, l = .ram a → 0x30 ≤ a.toNat) : (s.writeLoc v l).MidInv := by
  cases l with
  | tmrH n => exact h.setTimer n (h.timer n)
  | tmrL n => exact h.setTimer n (h.timer n)
  | tmrC n => exact h.setTimer n (Timer16.writeCtrl_modeLegal hacc _)
  | tmr3c => exact { h with t3 := Timer8.writeCtrl_legal hacc _ }
  | latchH n | latchM n | latchL n => exact h.writeLatch n _
  | voicec =>
    rw [State.writeLoc, State.writeVoicec_eq]
    obtain ⟨-, -, hbit⟩ := hacc
    exact { h with voiceB7 := hbit rfl }
  | ram a => exact h.ramWrite (hram a rfl) v
  | _ => exact { h with }

theorem State.MidInv.push {s : State} (h : s.MidInv) (v : PAddr) : (s.push v).MidInv := by
  have hd := State.push_depth h.depth v
  obtain ⟨-, he⟩ | ⟨-, he⟩ := s.push_cases v
  all_goals
    rw [he] at hd ⊢
    exact { h with depth := hd }

/-- A chip reset takes its RAM from a canonical memory and switches every timer off. -/
theorem State.MidInv.runReset {s : State} (h : s.MidInv) (kind : ResetKind) :
    (s.runReset kind).MidInv := by
  have hram : Memory.wf ramDefault 0x30 0x100 (Unknowns.free s.draws).ram = true :=
    Memory.fill_wf (fun a => freeByte (s.draws + 256 + a)) 0x30 208
  cases kind with
  | powerOn =>
    exact { h with
      depth := Nat.zero_le _, ram := hram, voiceB7 := rfl, t0 := rfl, t1 := rfl, t3 := rfl
      vromAge := Nat.zero_le _ }
  | resNormal | resHalt | wdtNormal =>
    exact { h with depth := Nat.zero_le _, ram := hram, t0 := rfl, t1 := rfl, t3 := rfl }

theorem State.deviceKeeps_midInv : DeviceKeeps State.MidInv where
  timer _ n _ _ h := h.setTimer n (h.timer n)
  request _ src h := h.raiseRequest src
  timer3 _ _ _ h := { h with }
  watchdog _ _ h := { h with }
  warm _ h := { h with depth := Nat.zero_le _ }
  reset _ h := h.runReset .wdtNormal
  age _ h hlt := { h with vromAge := hlt }
  voice _ _ _ h := { h with }

theorem State.MidInv.restartVoice {s : State} (h : s.MidInv) : s.restartVoice.MidInv := by
  unfold State.restartVoice
  split
  · exact { h with vromAge := Nat.zero_le _ }
  · exact h

/-! ### What an instruction does to it -/

theorem State.push_eq (s : State) (v : PAddr) :
    s.push v = { s with stack := (s.push v).stack } := by
  unfold State.push
  split <;> rfl

/-- What the three returns leave: the newest address taken, and ACC or EMI (46_branch.md R281 to
R283). -/
def State.afterReturn (s t : State) : Prop :=
  ∃ older a, s.stack = older ++ [a] ∧
    t = { s with pc := a, stack := older, acc := t.acc, emi := t.emi, cycles := s.cycles + 2 }

theorem State.returnFromStack_map_ok {f : State → State} {s t : State}
    (h : s.returnFromStack.map f = .ok t) :
    ∃ older a, s.stack = older ++ [a] ∧ t = f { s with pc := a, stack := older } := by
  cases hr : s.returnFromStack with
  | error e => rw [hr] at h; cases h
  | ok u =>
    rw [hr] at h
    cases h
    obtain ⟨older, a, hs, rfl⟩ := State.returnFromStack_ok hr
    exact ⟨older, a, hs, rfl⟩

theorem State.returnFromInterrupt_eq (s : State) :
    s.returnFromInterrupt = s.returnFromStack.map fun t => { t with emi := true } := by
  unfold State.returnFromInterrupt
  cases s.returnFromStack <;> rfl

theorem exec_ret_next {s t : State} (h : exec .ret s = .next t) : s.afterReturn t := by
  obtain ⟨u, hu, rfl⟩ := finishReturn_next h
  obtain ⟨older, a, hs, rfl⟩ := State.returnFromStack_ok hu
  exact ⟨older, a, hs, rfl⟩

theorem exec_retAx_next {x : Byte} {s t : State} (h : exec (.retAx x) s = .next t) :
    s.afterReturn t := by
  obtain ⟨u, hu, rfl⟩ := finishReturn_next h
  obtain ⟨older, a, hs, rfl⟩ := State.returnFromStack_map_ok hu
  exact ⟨older, a, hs, rfl⟩

theorem exec_reti_next {s t : State} (h : exec .reti s = .next t) : s.afterReturn t := by
  obtain ⟨u, hu, rfl⟩ := finishReturn_next h
  rw [State.returnFromInterrupt_eq] at hu
  obtain ⟨older, a, hs, rfl⟩ := State.returnFromStack_map_ok hu
  exact ⟨older, a, hs, rfl⟩

/-- What the three watchdog clears can change (48_misc.md R303 to R305). -/
def State.afterClear (s t : State) : Prop :=
  t = { s with
    wdtcnt := t.wdtcnt, fTO := t.fTO, fPDF := t.fPDF, wdt1f := t.wdt1f, wdt2f := t.wdt2f
    cycles := s.cycles + 1 }

theorem exec_clear_next {i : Instr} {s t : State} (hi : i = .clrWdt ∨ i = .clrWdt1 ∨ i = .clrWdt2)
    (h : exec i s = .next t) : s.afterClear t := by
  obtain rfl | rfl | rfl := hi
  all_goals
    cases h
    repeat' split
  all_goals rfl

/-- What a special instruction can do, said once. -/
theorem exec_special_next {i : Instr} {s t : State} (h : exec i s = .next t)
    (hi : special i = true) :
    (∃ a, i = .call a ∧ t = State.retire { s.push s.pc with pc := a } 2) ∨ s.afterReturn t ∨
    ((i = .clrWdt ∨ i = .clrWdt1 ∨ i = .clrWdt2) ∧ s.afterClear t) ∨
    (i = .halt ∧ t = s.enterHalt.retire 1) := by
  cases i
  case call a =>
    cases h
    exact .inl ⟨a, rfl, rfl⟩
  case ret => exact .inr (.inl (exec_ret_next h))
  case retAx => exact .inr (.inl (exec_retAx_next h))
  case reti => exact .inr (.inl (exec_reti_next h))
  case clrWdt | clrWdt1 | clrWdt2 =>
    refine .inr (.inr (.inl ⟨?_, exec_clear_next ?_ h⟩)) <;> simp
  case halt =>
    cases h
    exact .inr (.inr (.inr ⟨rfl, rfl⟩))
  all_goals cases hi

theorem exec_midInv {i : Instr} {s t : State} (h : exec i s = .next t) (hs : s.MidInv) :
    t.MidInv := by
  cases hi : special i with
  | false =>
    exact exec_preserves State.MidInv h hi hs (fun _ _ => .afterRead)
      (fun _ _ _ hu hacc hram => hu.writeLoc hacc hram) (fun _ _ => .afterOwn)
  | true =>
    obtain ⟨a, -, rfl⟩ | ⟨older, a, ho, ht⟩ | ⟨-, ht⟩ | ⟨-, rfl⟩ := exec_special_next h hi
    · exact { hs.push s.pc with }
    · have hd := hs.depth
      simp only [State.depth, ho, List.length_append] at hd
      rw [ht]
      exact { hs with depth := Nat.le_of_add_right_le hd }
    · rw [ht]
      exact { hs with }
    · exact { hs with }

/-- A view `π` of the state that reads, writes and own changes keep is kept by every instruction but
the special ones. -/
theorem exec_keeps_view {α : Type} (π : State → α) {i : Instr} {s t : State}
    (h : exec i s = .next t) (hi : special i = false)
    (hread : ∀ u w, State.afterRead u w → π w = π u)
    (hwrite : ∀ u v l, π (State.writeLoc u v l) = π u)
    (hown : ∀ u w, State.afterOwn u w → π w = π u) : π t = π s :=
  exec_preserves (fun u => π u = π s) h hi rfl (fun u w hu hw => (hread u w hw).trans hu)
    (fun u v l hu _ _ => (hwrite u v l).trans hu) (fun u w hu hw => (hown u w hw).trans hu)

/-- Only HALT puts the chip in HALT. -/
theorem exec_halted {i : Instr} {s t : State} (h : exec i s = .next t) (hi : i ≠ .halt) :
    t.halted = s.halted := by
  cases hsp : special i with
  | false =>
    exact exec_keeps_view State.halted h hsp (fun _ _ hw => by rw [hw]) State.writeLoc_halted
      (fun _ _ hw => by rw [hw])
  | true =>
    obtain ⟨a, -, rfl⟩ | ⟨_, _, _, ht⟩ | ⟨-, ht⟩ | ⟨rfl, -⟩ := exec_special_next h hsp
    · rw [State.push_eq]
      rfl
    · rw [ht]
    · rw [ht]
    · exact absurd rfl hi

/-! ### Every instruction takes a cycle -/

theorem State.loadOp_cycles {s t : State} {m : Byte} {f : Byte → State → State}
    (h : s.loadOp m f = .next t) (hf : ∀ v u, u.cycles ≤ (f v u).cycles) :
    s.cycles < t.cycles := by
  obtain ⟨v, s1, -, h1, rfl⟩ := State.loadOp_next h
  have hle := hf v s1
  rw [h1.kept.1] at hle
  exact Nat.lt_succ_of_le hle

theorem State.storeOp_cycles {s t : State} {r : DestRule} {i : Instr} {n : Nat} {m v : Byte}
    {pre : State → State} (h : s.storeOp r i n m v pre = .next t) (hn : 0 < n)
    (hp : (pre s).cycles = s.cycles) : s.cycles < t.cycles := by
  obtain ⟨l, -, -, -, rfl⟩ := State.storeOp_next h
  simp only [State.retire, State.writeLoc_cycles, hp]
  omega

theorem State.modifyOp_cycles {s t : State} {r : DestRule} {i : Instr} {m : Byte}
    {f : Byte → State → Byte} {g post : Byte → State → State}
    (h : s.modifyOp r i m f g post = .next t) (hg : ∀ v u, (g v u).cycles = u.cycles)
    (hp : ∀ w u, u.cycles ≤ (post w u).cycles) : s.cycles < t.cycles := by
  obtain ⟨l, v, s1, -, -, h1, -, -, rfl⟩ := State.modifyOp_next h
  have hle := hp (f v s1) ((g v s1).writeLoc (f v s1) l)
  rw [State.writeLoc_cycles, hg, h1.kept.1] at hle
  simp only [State.retire]
  omega

theorem State.le_skipIf_cycles {n : Nat} {s : State} (h : n ≤ s.cycles) (b : Bool) :
    n ≤ (s.skipIf b).cycles := by
  cases b
  · exact h
  · exact Nat.le_succ_of_le h

theorem exec_takes_cycle {i : Instr} {s t : State} (h : exec i s = .next t) :
    s.cycles < t.cycles := by
  cases hsp : special i with
  | true =>
    obtain ⟨a, -, rfl⟩ | ⟨_, _, _, ht⟩ | ⟨-, ht⟩ | ⟨-, rfl⟩ := exec_special_next h hsp
    · rw [State.push_eq]
      exact Nat.lt_add_of_pos_right Nat.two_pos
    · rw [ht]
      exact Nat.lt_add_of_pos_right Nat.two_pos
    · rw [ht]
      exact Nat.lt_succ_self _
    · exact Nat.lt_succ_self _
  | false =>
    cases i
    case call | ret | retAx | reti | clrWdt | clrWdt1 | clrWdt2 | halt => cases hsp
    case addAx | subAx | andAx | orAx | xorAx | movAx | nop =>
      cases h
      exact Nat.lt_succ_self _
    case jmp =>
      cases h
      exact Nat.lt_add_of_pos_right Nat.two_pos
    case sz | szBit | snzBit | sza | siza | sdza =>
      refine State.loadOp_cycles h fun v u => State.le_skipIf_cycles ?_ _
      exact Nat.le_refl _
    case addAm | adcAm | subAm | sbcAm | andAm | orAm | xorAm | cpla | inca | deca | rra | rrca
      | rla | rlca | movAm | swapa =>
      exact State.loadOp_cycles h fun _ _ => Nat.le_refl _
    case daa | movMa | clr | set =>
      simp only [exec_daa, execDaa, exec_movMa, execMovMa, exec_clr, execClr, exec_set,
        execSet] at h
      exact State.storeOp_cycles h Nat.one_pos rfl
    case tabrdc | tabrdl =>
      simp only [exec_tabrdc, execTabrdc, exec_tabrdl, execTabrdl, State.tableRead] at h
      exact State.storeOp_cycles h Nat.two_pos rfl
    case siz | sdz =>
      simp only [exec_siz, execSiz, exec_sdz, execSdz] at h
      exact State.modifyOp_cycles h (fun _ _ => rfl) fun _ _ =>
        State.le_skipIf_cycles (Nat.le_refl _) _
    case addmAm | adcmAm | submAm | sbcmAm =>
      simp only [exec_addmAm, execAddmAm, exec_adcmAm, execAdcmAm, exec_submAm, execSubmAm,
        exec_sbcmAm, execSbcmAm, State.addMemOp] at h
      exact State.modifyOp_cycles h (fun _ _ => rfl) fun _ _ => Nat.le_refl _
    case andmAm | ormAm | xormAm | cpl | inc | dec =>
      simp only [exec_andmAm, execAndmAm, exec_ormAm, execOrmAm, exec_xormAm, execXormAm, exec_cpl,
        execCpl, exec_inc, execInc, exec_dec, execDec, State.resultToMem] at h
      exact State.modifyOp_cycles h (fun _ _ => rfl) fun _ _ => Nat.le_refl _
    case rr | rrc | rl | rlc | clrBit | setBit | swap =>
      simp only [exec_rr, execRr, exec_rrc, execRrc, exec_rl, execRl, exec_rlc, execRlc,
        exec_clrBit, execClrBit, exec_setBit, execSetBit, exec_swap, execSwap] at h
      exact State.modifyOp_cycles h (fun _ _ => rfl) fun _ _ => Nat.le_refl _

/-! ### A device pass ends every block -/

@[simp] theorem State.raiseRequest_timer (s : State) (src : IrqSource) (n : TimerId) :
    (s.raiseRequest src).timer n = s.timer n := by cases n <;> rfl

@[simp] theorem State.count16_lose (s : State) (n k : TimerId) :
    ((s.count16 n).timer k).lose = (s.timer k).lose := by
  rw [State.count16_eq]
  by_cases hk : k = n
  · subst hk
    rw [State.timer_setTimer_same]
  · rw [State.timer_setTimer_other _ _ hk]
    split <;> simp

@[simp] theorem State.count16_vromRestart (s : State) (n : TimerId) :
    (s.count16 n).vromRestart = s.vromRestart := by
  rw [State.count16_eq]
  split <;> cases n <;> rfl

/-- A tick of timer n ends its block and leaves the other timer's alone. -/
theorem State.timerTick_lose (s : State) (n k : TimerId) :
    ((s.timerTick n).timer k).lose = if k = n then false else (s.timer k).lose := by
  have unblock (u : State) :
      ((u.unblock n).timer k).lose = if k = n then false else (u.timer k).lose := by
    cases n <;> cases k <;> rfl
  unfold State.timerTick
  split
  · rw [unblock, State.count16_lose]
  · exact unblock s

theorem State.timer3Tick_timer (s : State) (n : TimerId) : s.timer3Tick.timer n = s.timer n := by
  unfold State.timer3Tick
  split
  · dsimp only
    split
    · rw [State.count8_eq]
      split <;> cases n <;> rfl
    · cases n <;> rfl
  · rfl

theorem State.vromTick_timer (s : State) (n : TimerId) : s.vromTick.timer n = s.timer n := by
  unfold State.vromTick
  split
  · dsimp only
    split
    · rw [State.deliverVoice_eq]
      cases n <;> rfl
    · cases n <;> rfl
  · rfl

theorem State.runReset_unblocked (s : State) (kind : ResetKind) : (s.runReset kind).Unblocked := by
  rw [State.unblocked_iff]
  cases kind <;> exact ⟨rfl, rfl⟩

/-- What the watchdog can do: count, or time out with one of its two resets. -/
theorem State.wdtTick_cases (s : State) :
    s.wdtTick = s ∨ (∃ c, s.wdtTick = { s with wdtcnt := c }) ∨
    (∃ c, s.wdtTick = State.warmReset { s with wdtcnt := c }) ∨
    ∃ c, s.wdtTick = State.runReset { s with wdtcnt := c } .wdtNormal := by
  unfold State.wdtTick State.wdtTimeout
  dsimp only
  repeat' split
  · exact .inr (.inl ⟨_, rfl⟩)
  · exact .inr (.inr (.inl ⟨_, rfl⟩))
  · exact .inr (.inr (.inr ⟨_, rfl⟩))
  · exact .inr (.inl ⟨_, rfl⟩)
  · exact .inl rfl

theorem State.Unblocked.of_timers {s t : State} (h : s.Unblocked) (h0 : t.t0 = s.t0)
    (h1 : t.t1 = s.t1) : t.Unblocked := by
  rw [State.unblocked_iff] at h ⊢
  rwa [h0, h1]

theorem State.Unblocked.wdtTick {s : State} (h : s.Unblocked) : s.wdtTick.Unblocked := by
  obtain he | ⟨c, he⟩ | ⟨c, he⟩ | ⟨c, he⟩ := s.wdtTick_cases <;> rw [he]
  · exact h
  · exact h.of_timers rfl rfl
  · exact h.of_timers rfl rfl
  · exact State.runReset_unblocked _ _

theorem State.wdtTick_vromRestart (s : State) : s.wdtTick.vromRestart = s.vromRestart := by
  obtain he | ⟨c, he⟩ | ⟨c, he⟩ | ⟨c, he⟩ := s.wdtTick_cases <;> rw [he] <;> rfl

theorem State.deviceCycle_unblocked (s : State) : s.deviceCycle.Unblocked := by
  have htimers : ((s.timerTick .t0).timerTick .t1).timer3Tick.Unblocked := by
    intro n
    rw [State.timer3Tick_timer, State.timerTick_lose, State.timerTick_lose]
    cases n <;> rfl
  intro n
  unfold State.deviceCycle
  rw [State.vromTick_timer]
  split
  · exact htimers.wdtTick n
  · exact htimers n

theorem State.deviceStep_unblocked {n : Nat} {s : State} (h : 0 < n ∨ s.Unblocked) :
    (State.deviceStep n s).Unblocked := by
  induction n generalizing s with
  | zero => exact h.resolve_left (Nat.lt_irrefl 0)
  | succ n ih => exact ih (.inr s.deviceCycle_unblocked)

theorem State.restartVoice_timer (s : State) (n : TimerId) :
    s.restartVoice.timer n = s.timer n := by
  unfold State.restartVoice
  split
  · cases n <;> rfl
  · rfl

theorem State.restartVoice_vromRestart (s : State) : s.restartVoice.vromRestart = false := by
  unfold State.restartVoice
  split
  · rfl
  · exact Bool.eq_false_iff.mpr ‹_›

/-- The device step restores the invariant, if it makes a pass or nothing is blocked; in HALT, where
it makes none, nothing may be left over. -/
theorem State.MidInv.settle {s : State} {n : Nat} (h : s.MidInv)
    (hhalt : s.halted = true → s.Inv) (hn : 0 < n ∨ s.Unblocked) : (s.settle n).Inv := by
  unfold State.settle
  split
  · exact hhalt ‹_›
  · refine (State.inv_iff _).mpr ⟨(State.deviceKeeps_midInv.deviceStep n h).restartVoice, ?_,
      State.restartVoice_vromRestart _⟩
    intro k
    rw [State.restartVoice_timer]
    exact State.deviceStep_unblocked hn k

/-! ### Events -/

theorem Timer16.pulseEdge_lose (t : Timer16) (rising falling : Bool) :
    (t.pulseEdge rising falling).lose = t.lose := by
  unfold Timer16.pulseEdge
  dsimp only
  repeat' split
  all_goals rfl

/-- An edge of the TMRn input may count, and then changes timer n alone; blocks stay. -/
theorem State.timerEdge_cases (s : State) (n : TimerId) (v : Bool) :
    ∃ s1 t, (s1 = s.count16 n ∨ s1 = s) ∧ t.lose = (s1.timer n).lose ∧
      s.timerEdge n v = s1.setTimer n t := by
  unfold State.timerEdge
  dsimp only
  refine ⟨_, _, ?_, ?_, rfl⟩
  · split
    · exact .inl rfl
    · exact .inr rfl
  · exact Timer16.pulseEdge_lose _ _ _

theorem State.Unblocked.setTimer {s : State} (h : s.Unblocked) {n : TimerId} {t : Timer16}
    (ht : t.lose = (s.timer n).lose) : (s.setTimer n t).Unblocked := by
  intro k
  by_cases hk : k = n
  · subst hk
    rw [State.timer_setTimer_same, ht, h k]
  · rw [State.timer_setTimer_other s t hk, h k]

theorem State.MidInv.timerEdge {s : State} (h : s.MidInv) (n : TimerId) (v : Bool) :
    (s.timerEdge n v).MidInv := by
  refine State.deviceKeeps_midInv.timerEdge n v h ?_
  rintro u w o p hu (rfl | rfl)
  · exact hu.setTimer n (hu.timer n)
  · exact hu.setTimer n rfl

theorem State.Inv.timerEdge {s : State} (h : s.Inv) (n : TimerId) (v : Bool) :
    (s.timerEdge n v).Inv := by
  obtain ⟨hmid, hlose, hvoice⟩ := (State.inv_iff s).mp h
  refine (State.inv_iff _).mpr ⟨hmid.timerEdge n v, ?_⟩
  obtain ⟨s1, t, hs1, ht, he⟩ := s.timerEdge_cases n v
  have hs1 : s1.Unblocked ∧ s1.vromRestart = false := by
    obtain rfl | rfl := hs1
    · exact ⟨fun k => by rw [State.count16_lose, hlose k],
        by rw [State.count16_vromRestart, hvoice]⟩
    · exact ⟨hlose, hvoice⟩
  rw [he]
  exact ⟨hs1.1.setTimer ht, by rw [State.setTimer_vromRestart, hs1.2]⟩

theorem State.Inv.wdtTick {s : State} (h : s.Inv) : s.wdtTick.Inv := by
  obtain ⟨hmid, hlose, hvoice⟩ := (State.inv_iff s).mp h
  exact (State.inv_iff _).mpr ⟨State.deviceKeeps_midInv.wdtTick hmid, hlose.wdtTick,
    by rw [State.wdtTick_vromRestart, hvoice]⟩

theorem State.Inv.runReset {s : State} (h : s.Inv) (kind : ResetKind) : (s.runReset kind).Inv := by
  obtain ⟨hmid, -, hvoice⟩ := (State.inv_iff s).mp h
  refine (State.inv_iff _).mpr ⟨hmid.runReset kind, s.runReset_unblocked kind, ?_⟩
  cases kind with
  | powerOn => rfl
  | resNormal | resHalt | wdtNormal => exact hvoice

theorem State.Inv.intEdge {s : State} (h : s.Inv) (v : Bool) : (s.intEdge v).Inv := by
  unfold State.intEdge
  dsimp only
  split <;> exact { h with }

theorem State.Inv.applyEvent {s : State} (h : s.Inv) (e : EnvEvent) : (s.applyEvent e).Inv := by
  cases e with
  | powerOn => exact h.runReset .powerOn
  | resLow =>
    simp only [State.applyEvent]
    split
    · exact h.runReset .resHalt
    · exact h.runReset .resNormal
  | intPin v => exact h.intEdge v
  | timerPin n v =>
    simp only [State.applyEvent]
    split
    · exact h.timerEdge n v
    · exact h
  | padsA driven level => exact { h with }
  | padsB driven level => exact { h with }
  | wdtOscTick =>
    simp only [State.applyEvent]
    split
    · exact h.wdtTick
    · exact h

/-! ### The CPU's part of a boundary -/

theorem State.Inv.takeInterrupt {s : State} (h : s.Inv) (src : IrqSource) :
    (s.takeInterrupt src).Inv := by
  obtain ⟨hmid, hlose, hvoice⟩ := (State.inv_iff s).mp h
  have hentry : (s.interruptEntry src).MidInv := { hmid.push s.pc with }
  have hun : (s.interruptEntry src).Unblocked := by
    refine hlose.of_timers ?_ ?_ <;> rw [State.interruptEntry, State.push_eq]
  have hrestart : (s.interruptEntry src).vromRestart = false := by
    rw [State.interruptEntry, State.push_eq]
    exact hvoice
  exact hentry.settle (fun _ => (State.inv_iff _).mpr ⟨hentry, hun, hrestart⟩) (.inr hun)

theorem State.Inv.halt {s t : State} (h : s.Inv) (ht : exec .halt s = .next t) : t.Inv := by
  cases ht
  exact { h with }

/-- The instruction at `pc` and its device step. -/
theorem State.Inv.instr {s u : State} (h : s.Inv) {i : Instr} (hawake : s.halted = false)
    (hu : exec i s.fetched = .next u) : (u.settle (u.cycles - s.cycles)).Inv := by
  have hf : s.fetched.Inv := { h with }
  have hmid : u.MidInv := exec_midInv hu ((State.inv_iff _).mp hf).1
  have hcyc : s.fetched.cycles < u.cycles := exec_takes_cycle hu
  refine hmid.settle (fun hhalted => ?_) (.inl (Nat.sub_pos_of_lt hcyc))
  by_cases hi : i = .halt
  · subst hi
    exact hf.halt hu
  · rw [exec_halted hu hi] at hhalted
    exact absurd (hawake.symm.trans hhalted) Bool.false_ne_true

theorem State.Inv.cpuStep {s t : State} (h : s.Inv)
    (ht : State.cpuStep decode s = .next t) : t.Inv := by
  obtain ⟨-, rfl⟩ | ⟨-, src, -, rfl⟩ | ⟨hawake, -, i, u, -, hu, rfl⟩ := cpuStep_next ht
  · exact h
  · exact h.takeInterrupt src
  · exact h.instr hawake hu

/-- Settles O59: a step is an event or the CPU's part of a boundary; each keeps the invariant. -/
theorem stepKeepsInv : Obligations.StepKeepsInv := by
  intro s t h hstep
  obtain ⟨e, slot, later, -, rfl⟩ | ⟨-, hcpu⟩ := step_next hstep
  · have hs : State.Inv { s with env := slot :: later } := { h with }
    exact hs.applyEvent e
  · have hs : s.pastEvents.Inv := { h with }
    exact hs.cpuStep hcpu

/-- Settles O58: nothing is stacked or listed, no timer is on, and VROM_age is 0. -/
theorem invAtReset : Obligations.InvAtReset where
  depth := Nat.zero_le _
  ram := Memory.nil_wf _ _
  rom := Memory.nil_wf _ _
  vrom := Memory.nil_wf _ _
  voiceB7 := rfl
  t0 := rfl
  t1 := rfl
  t3 := rfl
  vromAge := Nat.zero_le _
  vromRestart := rfl

/-- Settles O55: `State.reset` is written with these values. -/
theorem powerOnState : Obligations.PowerOnState := by
  unfold Obligations.PowerOnState
  decide

/-! ### The power flags (10_state.md R25) -/

theorem exec_powerFlags {i : Instr} {s t : State} (h : exec i s = .next t)
    (hi : special i = false) : t.fTO = s.fTO ∧ t.fPDF = s.fPDF :=
  ⟨exec_keeps_view State.fTO h hi (fun _ _ hw => by rw [hw]) State.writeLoc_fTO
      (fun _ _ hw => by rw [hw]),
    exec_keeps_view State.fPDF h hi (fun _ _ hw => by rw [hw]) State.writeLoc_fPDF
      (fun _ _ hw => by rw [hw])⟩

/-- Settles O38: reads, writes and own changes keep both flags; of the special instructions the call
and the returns do too. -/
theorem powerFlagsKept : Obligations.PowerFlagsKept := by
  intro i s t h
  cases hsp : special i with
  | false => exact .inl (exec_powerFlags h hsp)
  | true =>
    obtain ⟨a, -, rfl⟩ | ⟨_, _, _, ht⟩ | ⟨hclear, -⟩ | ⟨hhalt, -⟩ := exec_special_next h hsp
    · rw [State.push_eq]
      exact .inl ⟨rfl, rfl⟩
    · rw [ht]
      exact .inl ⟨rfl, rfl⟩
    · exact .inr (by tauto)
    · exact .inr (by tauto)

/-! ### Calls and returns in a row (46_branch.md R280, R281) -/

/-- A CALL with room on the stack. -/
theorem exec_call_room {a : PAddr} {s : State} (h : s.stack.length < 8) :
    exec (.call a) s.fetched =
      .next { s with pc := a, stack := s.stack ++ [s.pc + 1#13], cycles := s.cycles + 2 } := by
  have hpush : s.fetched.push s.fetched.pc =
      { s.fetched with stack := s.stack ++ [s.pc + 1#13] } := if_pos h
  rw [exec_call, execCall, hpush]
  rfl

/-- A RET takes the newest address. -/
theorem exec_ret_newest {a : PAddr} {older : List PAddr} {s : State}
    (h : s.stack = older ++ [a]) :
    exec .ret s.fetched =
      .next { s with pc := a, stack := older, cycles := s.cycles + 2 } := by
  simp [execRet, State.returnFromStack, State.pop, State.fetched, h, finishReturn, State.retire]

/-- The addresses CALLs in a row stack, oldest first, when the first of them stands at `pc`. -/
def behindCalls (pc : PAddr) (calls : List PAddr) : List PAddr :=
  ((pc :: calls).dropLast).map (· + 1#13)

theorem behindCalls_cons (pc a : PAddr) (calls : List PAddr) :
    behindCalls pc (a :: calls) = (pc + 1#13) :: behindCalls a calls := rfl

theorem length_behindCalls (pc : PAddr) (calls : List PAddr) :
    (behindCalls pc calls).length = calls.length := by
  simp [behindCalls]

/-- CALLs in a row leave the last target in `pc` and the addresses behind them on the stack. -/
def State.callsDone (s : State) (calls : List PAddr) : State := { s with
  pc := calls.getLastD s.pc, stack := s.stack ++ behindCalls s.pc calls
  cycles := s.cycles + 2 * calls.length }

theorem trail_calls (calls : List PAddr) (s : State) (h : s.stack.length + calls.length ≤ 8) :
    s.trail (calls.map Instr.call) = some (calls, s.callsDone calls) := by
  induction calls generalizing s with
  | nil => simp [State.callsDone, behindCalls]
  | cons a calls ih =>
    rw [List.length_cons] at h
    rw [List.map_cons, State.trail_cons (exec_call_room (by omega)), ih _ (by simp; omega)]
    simp [State.callsDone, behindCalls_cons, List.getLast?_cons, Nat.mul_add, Nat.add_assoc,
      Nat.add_comm]

/-- RETs in a row leave the oldest address taken in `pc` and the entries under them on the stack. -/
def State.returnsDone (s : State) (older newest : List PAddr) : State := { s with
  pc := newest.getLastD s.pc, stack := older, cycles := s.cycles + 2 * newest.length }

/-- As many RETs as `newest` has addresses go to them, the newest on the stack first. -/
theorem trail_rets (newest older : List PAddr) (s : State)
    (h : s.stack = older ++ newest.reverse) :
    s.trail (newest.map fun _ => Instr.ret) = some (newest, s.returnsDone older newest) := by
  induction newest generalizing s with
  | nil =>
    have hs : s.stack = older := by simpa using h
    simp [State.returnsDone, ← hs]
  | cons a newest ih =>
    rw [List.reverse_cons, ← List.append_assoc] at h
    rw [List.map_cons, State.trail_cons (exec_ret_newest h), ih _ rfl]
    simp [State.returnsDone, List.getLast?_cons, Nat.mul_add, Nat.add_assoc, Nat.add_comm]

/-- Settles O34: by induction the calls stack the addresses behind them, and by induction over those
addresses, newest first, the returns take them back. -/
theorem nestedCallsReturn : Obligations.NestedCallsReturn := by
  intro calls s h behind
  have hlen : behind.reverse.length = calls.length := by
    rw [List.length_reverse]
    exact length_behindCalls s.pc calls
  have hmap : (calls.map fun _ => Instr.ret) = behind.reverse.map fun _ => Instr.ret := by
    rw [List.map_const', List.map_const', hlen]
  have hrets : (s.callsDone calls).trail (calls.map fun _ => Instr.ret) =
      some (behind.reverse, (s.callsDone calls).returnsDone s.stack behind.reverse) := by
    rw [hmap]
    exact trail_rets _ _ _ (by rw [List.reverse_reverse]; rfl)
  refine ⟨_, _, trail_calls calls s h, rfl, hrets, ?_⟩
  have hcycles : s.cycles + 2 * calls.length + 2 * calls.length = s.cycles + 4 * calls.length := by
    omega
  simp [State.returnsDone, State.callsDone, hlen, hcycles]

/-! ### One step (60_exceptions.md R411, R430) -/

theorem State.deviceStep_eq_iterate (n : Nat) (s : State) :
    State.deviceStep n s = State.deviceCycle^[n] s := by
  induction n generalizing s with
  | zero => rfl
  | succ n ih => exact ih s.deviceCycle

theorem State.deviceCycle_eq (s : State) :
    s.deviceCycle =
      (if s.opt.wdtClock = .t1 then ((s.timerTick .t0).timerTick .t1).timer3Tick.wdtTick
        else ((s.timerTick .t0).timerTick .t1).timer3Tick).vromTick := by
  unfold State.deviceCycle
  dsimp only
  rw [State.timers_opt]

theorem State.runsNext.step {s : State} (h : s.runsNext) :
    step s = s.pastEvents.runInstr decode := by
  rw [step_quiet h.quiet]
  exact cpuStep_instr h.awake h.free

/-- Settles O5: the step runs the fetched word at the boundary past its empty list of events;
`settle` is the device step, whose passes are `deviceCycle`, and no timer changes the watchdog's clock. -/
theorem stepRunsDecoded : Obligations.StepRunsDecoded := by
  refine ⟨fun s i h hd => ?_, State.deviceStep_eq_iterate, fun s => ⟨fun hc => ?_, fun hc => ?_⟩,
    fun s e slot later => step_event⟩
  · have hfetch : decode s.pastEvents.fetch = .ok i := hd
    rw [h.step, State.runInstr, hfetch]
    rfl
  · rw [State.deviceCycle_eq, hc, if_pos rfl]
  · rw [State.deviceCycle_eq, hc, if_neg (by decide)]

/-! ### The audio output (60_exceptions.md R466) -/

theorem exec_movMa_direct {m : Byte} {l : Loc} {s : State} (h : s.resolve m = .ok l)
    (ha : l.accepts s.acc) :
    exec (.movMa m) s = .next ((s.writeLoc s.acc l).retire (1 + l.writeCycles)) :=
  State.storeOp_ok 1 (fun t => t) h rfl ha

/-- `DA` in whole numbers (10_state.md R42). -/
theorem State.da_toNat (s : State) : s.da.toNat = s.dah.toNat * 16 + s.dal.toNat := by
  rw [State.da, BitVec.toNat_append, ← Nat.shiftLeft_add_eq_or_of_lt s.dal.isLt, Nat.shiftLeft_eq]

theorem toNat_highNibble (v : Byte) : (v.extractLsb' 4 4).toNat = v.toNat / 16 := by
  have hv := v.isLt
  rw [BitVec.extractLsb'_toNat, Nat.shiftRight_eq_div_pow, Nat.mod_eq_of_lt (by omega)]

/-- Settles O57: the stores go to DAH and DAL, and `DA` is read off the two. -/
theorem audioOutput : Obligations.AudioOutput := by
  intro s
  have hdah : s.resolve 0x28#8 = .ok .dah := rfl
  have hdal : s.resolve 0x27#8 = .ok .dal := rfl
  refine ⟨_, _, exec_movMa_direct hdah ⟨nofun, nofun, nofun⟩,
    exec_movMa_direct hdal ⟨nofun, nofun, nofun⟩, rfl, State.da_toNat _, rfl, rfl, ?_, rfl⟩
  refine (State.da_toNat _).trans ?_
  exact congrArg (s.dah.toNat * 16 + ·) (toNat_highNibble s.acc)

end Sys2Proof.Machine
end

section
/-! Proofs about what no step changes (20_memory.md R100, R101; 60_exceptions.md R476) and about the
operand that leads to no location (20_memory.md R123). -/

namespace Sys2Proof.Machine

open Sys2Proof.Config

/-! ### The ROMs and the options stay (20_memory.md R101, 60_exceptions.md R476) -/

theorem State.sameChip.refl (s : State) : s.sameChip s := ⟨rfl, rfl, rfl⟩

theorem State.sameChip.setTimer {s u : State} (h : s.sameChip u) (n : TimerId) (t : Timer16) :
    s.sameChip (u.setTimer n t) := by
  cases n <;> exact h

theorem State.sameChip.push {s u : State} (h : s.sameChip u) (v : PAddr) :
    s.sameChip (u.push v) := by
  rw [State.push_eq]
  exact h

theorem State.sameChip.runReset {s u : State} (h : s.sameChip u) (kind : ResetKind) :
    s.sameChip (u.runReset kind) := by
  cases kind <;> exact h

theorem State.sameChip.writeLoc {s u : State} (h : s.sameChip u) (v : Byte) (l : Loc) :
    s.sameChip (u.writeLoc v l) := by
  unfold State.sameChip
  rw [State.writeLoc_rom, State.writeLoc_vrom, State.writeLoc_opt]
  exact h

/-- No device, in any of its parts, touches the ROMs or the options. -/
theorem State.deviceKeeps_sameChip (s : State) : DeviceKeeps s.sameChip where
  timer _ n _ _ h := h.setTimer n _
  request _ _ h := h
  timer3 _ _ _ h := h
  watchdog _ _ h := h
  warm _ h := h
  reset _ h := h.runReset .wdtNormal
  age _ h _ := h
  voice _ _ _ h := h

theorem State.sameChip.settle {s u : State} (h : s.sameChip u) (n : Nat) :
    s.sameChip (u.settle n) := by
  unfold State.settle State.restartVoice
  have hdev := s.deviceKeeps_sameChip.deviceStep n h
  repeat' split
  · exact h
  · exact hdev
  · exact hdev

theorem State.sameChip.intEdge {s u : State} (h : s.sameChip u) (v : Bool) :
    s.sameChip (u.intEdge v) := by
  unfold State.intEdge
  dsimp only
  split <;> exact h

theorem State.sameChip.applyEvent {s u : State} (h : s.sameChip u) (e : EnvEvent) :
    s.sameChip (u.applyEvent e) := by
  have hdev := s.deviceKeeps_sameChip
  cases e with
  | powerOn => exact h.runReset .powerOn
  | resLow =>
    simp only [State.applyEvent]
    split
    · exact h.runReset .resHalt
    · exact h.runReset .resNormal
  | intPin v => exact h.intEdge v
  | timerPin n v =>
    simp only [State.applyEvent]
    split
    · exact hdev.timerEdge n v h fun _ _ _ _ hu _ => hu.setTimer n _
    · exact h
  | padsA driven level => exact h
  | padsB driven level => exact h
  | wdtOscTick =>
    simp only [State.applyEvent]
    split
    · exact hdev.wdtTick h
    · exact h

/-- No instruction changes the ROMs, the options or the environment's events. -/
theorem exec_sameChip_env {i : Instr} {s t : State} (h : exec i s = .next t) :
    s.sameChip t ∧ t.env = s.env := by
  cases hi : special i with
  | false =>
    refine exec_preserves (fun u => s.sameChip u ∧ u.env = s.env) h hi ⟨.refl s, rfl⟩ ?_ ?_ ?_
    · intro u w hu hw
      rw [hw]
      exact hu
    · intro u v l hu _ _
      exact ⟨hu.1.writeLoc v l, (State.writeLoc_env u v l).trans hu.2⟩
    · intro u w hu hw
      rw [hw]
      exact hu
  | true =>
    obtain ⟨a, -, rfl⟩ | ⟨_, _, _, ht⟩ | ⟨-, ht⟩ | ⟨-, rfl⟩ := exec_special_next h hi
    · rw [State.push_eq]
      exact ⟨.refl s, rfl⟩
    · rw [ht]
      exact ⟨.refl s, rfl⟩
    · rw [ht]
      exact ⟨.refl s, rfl⟩
    · exact ⟨.refl s, rfl⟩

theorem State.sameChip.cpuStep {s u t : State} (h : s.sameChip u)
    (ht : State.cpuStep decode u = .next t) : s.sameChip t := by
  obtain ⟨-, rfl⟩ | ⟨-, src, -, rfl⟩ | ⟨-, -, i, w, -, hw, rfl⟩ := cpuStep_next ht
  · exact h
  · have hentry : s.sameChip (u.interruptEntry src) := h.push u.pc
    exact hentry.settle _
  · obtain ⟨⟨hrom, hvrom, hopt⟩, -⟩ := exec_sameChip_env hw
    obtain ⟨hrom', hvrom', hopt'⟩ := h
    have hsame : s.sameChip w := ⟨hrom.trans hrom', hvrom.trans hvrom', hopt.trans hopt'⟩
    exact hsame.settle _

/-- Settles O60: a step is an event or the CPU's part of a boundary; neither touches what
is fixed. -/
theorem stepKeepsChip : Obligations.StepKeepsChip := by
  intro s t hstep
  obtain ⟨e, slot, later, -, rfl⟩ | ⟨-, hcpu⟩ := step_next hstep
  · have hs : s.sameChip { s with env := slot :: later } := .refl s
    exact hs.applyEvent e
  · have hs : s.sameChip s.pastEvents := .refl s
    exact hs.cpuStep hcpu

/-! ### What instructions leave alone (20_memory.md R100, R101) -/

theorem exec_stack {i : Instr} {s t : State} (h : exec i s = .next t) (hi : special i = false) :
    t.stack = s.stack :=
  exec_keeps_view State.stack h hi (fun _ _ hw => by rw [hw]) State.writeLoc_stack
    (fun _ _ hw => by rw [hw])

/-- Settles O39: the ordinary instructions keep the stack, and of the special ones the watchdog
clears and HALT do too. -/
theorem stackAndRomKept : Obligations.StackAndRomKept := by
  intro i s t h
  obtain ⟨hchip, henv⟩ := exec_sameChip_env h
  refine ⟨hchip, henv, ?_⟩
  cases i
  case call a => exact .inr (.inl ⟨a, rfl⟩)
  case ret => exact .inr (.inr (.inl rfl))
  case retAx x => exact .inr (.inr (.inr (.inl ⟨x, rfl⟩)))
  case reti => exact .inr (.inr (.inr (.inr rfl)))
  case clrWdt | clrWdt1 | clrWdt2 =>
    have ht := exec_clear_next (by simp) h
    rw [ht]
    exact .inl rfl
  case halt =>
    cases h
    exact .inl rfl
  all_goals exact .inl (exec_stack h rfl)

/-! ### Operands without a location (20_memory.md R123) -/

section
variable {s : State} {m : Byte} {e : Fault} (h : s.resolve m = .error e)
include h

theorem State.memRead_unresolved : s.memRead m = .error e := by rw [State.memRead, h]

theorem State.loadOp_unresolved (f : Byte → State → State) : s.loadOp m f = .fault e := by
  rw [State.loadOp, State.memRead_unresolved h]

theorem State.storeOp_unresolved (r : DestRule) (i : Instr) (n : Nat) (v : Byte)
    (pre : State → State) : s.storeOp r i n m v pre = .fault e := by
  rw [State.storeOp, h]

theorem State.modifyOp_unresolved (r : DestRule) (i : Instr) (f : Byte → State → Byte)
    (g post : Byte → State → State) : s.modifyOp r i m f g post = .fault e := by
  rw [State.modifyOp, h]

/-- An operand that does not resolve is the fault of every instruction that has it. -/
theorem exec_unresolved {i : Instr} (hi : operandOf i = some m) : exec i s = .fault e := by
  have hload := State.loadOp_unresolved h
  have hstore := State.storeOp_unresolved h
  have hmodify := State.modifyOp_unresolved h
  cases i <;> cases hi
  case addAm | adcAm | subAm | sbcAm | andAm | orAm | xorAm | cpla | inca | deca | rra | rrca | rla
    | rlca | movAm | swapa | sz | sza | szBit | snzBit | siza | sdza => exact hload _
  case daa | movMa | clr | set | tabrdc | tabrdl =>
    simp only [exec_daa, execDaa, exec_movMa, execMovMa, exec_clr, execClr, exec_set, execSet,
      exec_tabrdc, execTabrdc, exec_tabrdl, execTabrdl, State.tableRead, hstore]
  case addmAm | adcmAm | submAm | sbcmAm =>
    simp only [exec_addmAm, execAddmAm, exec_adcmAm, execAdcmAm, exec_submAm, execSubmAm,
      exec_sbcmAm, execSbcmAm, State.addMemOp, hmodify]
  case andmAm | ormAm | xormAm | cpl | inc | dec =>
    simp only [exec_andmAm, execAndmAm, exec_ormAm, execOrmAm, exec_xormAm, execXormAm, exec_cpl,
      execCpl, exec_inc, execInc, exec_dec, execDec, State.resultToMem, hmodify]
  case rr | rrc | rl | rlc | swap | siz | sdz | clrBit | setBit =>
    simp only [exec_rr, execRr, exec_rrc, execRrc, exec_rl, execRl, exec_rlc, execRlc, exec_swap,
      execSwap, exec_siz, execSiz, exec_sdz, execSdz, exec_clrBit, execClrBit, exec_setBit,
      execSetBit, hmodify]

end

/-- Settles O6: resolving the operand finds a location or the fault of R123. -/
theorem operandLocations : Obligations.OperandLocations := by
  refine ⟨fun i m s hi hm => ?_, fun m s hm => ?_⟩
  · obtain ⟨_, -, hn⟩ | ⟨herr, -⟩ := s.resolve_cases m
    · exact absurd hm hn
    · exact exec_unresolved herr hi
  · obtain ⟨l, hl, -⟩ | ⟨-, hn⟩ := s.resolve_cases m
    · exact ⟨l, hl, by rw [State.memRead, hl]⟩
    · exact absurd hn hm

end Sys2Proof.Machine
end

section
/-! Proofs about indirection (20_memory.md R105) and about what MOV A,[m] reads at each location
(R107, R112, R116, R121; 60_exceptions.md R460). -/

namespace Sys2Proof.Machine

open Sys2Proof.Config

/-! ### MOV A,[m] and MOV [m],A at an operand that resolves -/

section
variable {s : State} {m v : Byte} {l : Loc} (h : s.resolve m = .ok l)
include h

theorem State.memRead_resolved : s.memRead m = .ok (s.readLoc l) := by rw [State.memRead, h]

theorem exec_movAm_resolved :
    exec (.movAm m) s = .next (State.retire { (s.readLoc l).2 with acc := (s.readLoc l).1 } 1) :=
  State.loadOp_ok _ (State.memRead_resolved h)

variable (l)

/-- A read that changes nothing. -/
theorem exec_movAm_pure (hread : s.readLoc l = (v, s)) :
    exec (.movAm m) s = .next { s with acc := v, cycles := s.cycles + 1 } := by
  rw [exec_movAm_resolved h, hread]
  rfl

/-- A read that draws a free value. -/
theorem exec_movAm_draw (hread : s.readLoc l = (v, s.draw.2)) :
    exec (.movAm m) s =
      .next { s with acc := v, draws := s.draws + 1, cycles := s.cycles + 1 } := by
  rw [exec_movAm_resolved h, hread]
  rfl

/-- A write that takes one cycle, as every write but that of PCL does (R109). -/
theorem exec_movMa_oneCycle {t : State} (ha : l.accepts s.acc) (hl : l ≠ .pcl)
    (ht : { s.writeLoc s.acc l with cycles := s.cycles + 1 } = t) :
    exec (.movMa m) s = .next t := by
  rw [exec_movMa_direct h ha, Loc.writeCycles, if_neg hl, State.retire, State.writeLoc_cycles,
    ← ht]

end

/-! ### Indirection (20_memory.md R104, R105) -/

theorem State.effective_window {s : State} {m p : Byte}
    (h : (m = 0x00#8 ∧ p = s.mp0) ∨ (m = 0x02#8 ∧ p = s.mp1)) : s.effective m = p := by
  obtain ⟨rfl, rfl⟩ | ⟨rfl, rfl⟩ := h <;> rfl

/-- An address that is no window is accessed directly. -/
theorem State.resolve_self {s : State} {a : Byte} (h0 : a ≠ 0x00#8) (h2 : a ≠ 0x02#8) :
    s.resolve a = s.resolveDirect a := by
  rw [State.resolve, if_neg h0, if_neg h2]

/-- Settles O7: a pointer to a window resolves to the location `window`, any other pointer as a
direct access to its value. -/
theorem indirection : Obligations.Indirection := by
  intro s m p h
  have heff : s.effective m = p := State.effective_window h
  have hm : m = 0x00#8 ∨ m = 0x02#8 := h.imp And.left And.left
  refine ⟨fun hp => ?_, fun h0 h2 => ?_⟩
  · have hres : s.resolve m = .ok .window := State.resolve_window hm (heff ▸ hp)
    exact ⟨exec_movAm_pure .window hres rfl,
      exec_movMa_oneCycle .window hres ⟨nofun, nofun, nofun⟩ nofun rfl⟩
  · have hres : s.resolve m = s.resolve p := by
      rw [State.resolve_direct (by rwa [heff]) (by rwa [heff]), heff, State.resolve_self h0 h2]
    have hread : s.memRead m = s.memRead p := by rw [State.memRead, hres, ← State.memRead]
    refine ⟨hres, hread, ?_, fun v t ht => ?_⟩
    · rw [exec_movAm, exec_movAm, execMovAm, execMovAm, State.loadOp, State.loadOp, hread]
    · rw [State.memRead_afterRead ht]
      exact ⟨rfl, rfl⟩

/-! ### Parts of a register as a byte -/

/-- A field of a register, in whole numbers; `d` is the weight of its lowest bit. -/
theorem field_eq {w len : Nat} (x : BitVec w) (start d : Nat) (hd : 2 ^ start = d) :
    x.extractLsb' start len = BitVec.ofNat len (x.toNat / d) := by
  rw [← hd, ← Nat.shiftRight_eq_div_pow]
  rfl

theorem State.statusByte_bits (s : State) : (List.range 8).map s.statusByte.getLsbD =
    [s.fC, s.fAC, s.fZ, s.fOV, s.fPDF, s.fTO, false, false] := by
  unfold State.statusByte
  generalize s.fC = c, s.fAC = ac, s.fZ = z, s.fOV = ov, s.fPDF = pdf, s.fTO = timeOut
  decide +revert

theorem State.intcByte_bits (s : State) : (List.range 8).map s.intcByte.getLsbD =
    [s.emi, s.enable.ext, s.enable.timer0, s.enable.timer1,
      s.request.ext, s.request.timer0, s.request.timer1, false] := by
  unfold State.intcByte
  generalize s.emi = emi, s.enable.ext = eei, s.enable.timer0 = et0i, s.enable.timer1 = et1i,
    s.request.ext = eif, s.request.timer0 = t0f, s.request.timer1 = t1f
  decide +revert

theorem State.intchByte_bits (s : State) : (List.range 8).map s.intchByte.getLsbD =
    [false, s.enable.timer3, false, false, false, s.request.timer3, false, false] := by
  unfold State.intchByte
  generalize s.enable.timer3 = et3i, s.request.timer3 = t3f
  decide +revert

theorem State.voicecByte_bits (s : State) : (List.range 8).map s.voicecByte.getLsbD =
    [false, s.dac, s.vromc, false, s.latchc, false, false, s.voiceB7] := by
  unfold State.voicecByte
  generalize s.dac = dac, s.vromc = vromc, s.latchc = latchc, s.voiceB7 = b7
  decide +revert

theorem Timer16.ctrlByte_bits (t : Timer16) : (List.range 8).map t.ctrlByte.getLsbD =
    [false, false, false, t.te, t.ton, false, t.tm.getLsbD 0, t.tm.getLsbD 1] := by
  unfold Timer16.ctrlByte
  generalize t.te = te, t.ton = ton, t.tm = tm
  decide +revert

theorem Timer8.ctrlByte_bits (t : Timer8) : (List.range 8).map t.ctrlByte.getLsbD =
    [t.sel.getLsbD 0, t.sel.getLsbD 1, t.sel.getLsbD 2, t.te, t.ton, false,
      t.tm.getLsbD 0, t.tm.getLsbD 1] := by
  unfold Timer8.ctrlByte
  generalize t.te = te, t.ton = ton, t.tm = tm, t.sel = sel
  decide +revert

/-- LATCHnH shows bit 16 of the latch, and bit 17 on the HT86070 (R117, log 11). -/
theorem latchHighByte_bits (part : Part) (l : BitVec 18) (float : Byte) :
    (latchHighByte part l float).getLsbD 0 = l.getLsbD 16 ∧
      (part = .ht86070 → (latchHighByte part l float).getLsbD 1 = l.getLsbD 17) := by
  unfold latchHighByte
  cases part
  · rw [BitVec.getLsbD_append]
    simp
  · rw [BitVec.getLsbD_append, BitVec.getLsbD_append]
    simp

theorem tbhpByte_low (float : BitVec 3) (tbhp : BitVec 5) :
    (float ++ tbhp).toNat % 32 = tbhp.toNat := by
  decide +revert

theorem dalByte_eq (dal : BitVec 4) : dal ++ 0x0#4 = BitVec.ofNat 8 (dal.toNat * 16) := by
  decide +revert

theorem volByte_fields (vol : BitVec 3) (float : BitVec 1) :
    (vol ++ float ++ 0x0#4).toNat / 32 = vol.toNat ∧ (vol ++ float ++ 0x0#4).toNat % 16 = 0 := by
  decide +revert

/-- A level of a port, line by line (R116, 60_exceptions.md R460). -/
theorem Port.getLsbD_levels (p : Port) (pullHigh : Bool) (float : Byte) {k : Nat} (hk : k < 8) :
    (p.levels pullHigh float).getLsbD k =
      if p.ctrl.getLsbD k then
        if p.driven.getLsbD k then p.level.getLsbD k else pullHigh || float.getLsbD k
      else p.latch.getLsbD k := by
  have hones : (0xFF#8).getLsbD k = true := by
    rw [show 0xFF#8 = BitVec.allOnes 8 from rfl, BitVec.getLsbD_allOnes, decide_eq_true hk]
  simp only [Port.levels, BitVec.getLsbD_or, BitVec.getLsbD_and, BitVec.getLsbD_not, hk]
  cases p.ctrl.getLsbD k <;> cases p.driven.getLsbD k <;> cases pullHigh <;> simp [hones]

/-- An output line, a driven input line and an undriven input line with the pull-high option. -/
theorem Port.levels_line (p : Port) (pullHigh : Bool) (float : Byte) {k : Nat} (hk : k < 8) :
    (p.ctrl.getLsbD k = false → (p.levels pullHigh float).getLsbD k = p.latch.getLsbD k) ∧
    (p.ctrl.getLsbD k = true → p.driven.getLsbD k = true →
      (p.levels pullHigh float).getLsbD k = p.level.getLsbD k) ∧
    (p.ctrl.getLsbD k = true → p.driven.getLsbD k = false → pullHigh = true →
      (p.levels pullHigh float).getLsbD k = true) := by
  rw [Port.getLsbD_levels p pullHigh float hk]
  refine ⟨fun hc => ?_, fun hc hd => ?_, fun hc hd hp => ?_⟩
  · simp [hc]
  · simp [hc, hd]
  · simp [hc, hd, hp]

/-! ### Reads (20_memory.md R107) -/

/-- What a read of TMRnH does (R112): the high byte is read, the low byte latched. -/
theorem exec_movAm_tmrH {s : State} {m : Byte} {n : TimerId} (h : s.resolve m = .ok (.tmrH n)) :
    ∃ lose, exec (.movAm m) s = .next (State.setTimer { s with
        acc := BitVec.ofNat 8 ((s.timer n).cnt.toNat / 256)
        draws := s.draws + 1
        cycles := s.cycles + 1 } n
      { s.timer n with buf := BitVec.ofNat 8 (s.timer n).cnt.toNat, lose := lose }) ∧
      ((s.timer n).ton = false → lose = false) := by
  refine ⟨(s.timer n).ton && s.draw.1.getLsbD 0, ?_, fun hoff => by rw [hoff, Bool.false_and]⟩
  rw [exec_movAm_resolved h, ← field_eq (s.timer n).cnt 8 256 rfl]
  cases n <;> rfl

theorem State.voiceReady_iff (s : State) :
    s.voiceReady = true ↔ s.vromc = true ∧ s.opt.vromDelayCycles ≤ s.vromAge := by
  simp [State.voiceReady]

theorem locOf_high {a : Byte} (h : 0x30 ≤ a.toNat) : locOf a = some (.ram a) := by
  decide +revert

/-- An operand at 30H or above is that byte of general RAM (10_state.md R45). -/
theorem State.resolve_high (s : State) {a : Byte} (h : 0x30 ≤ a.toNat) :
    s.resolve a = .ok (.ram a) := by
  have h0 : a ≠ 0x00#8 := by
    rintro rfl
    exact absurd h (by decide)
  have h2 : a ≠ 0x02#8 := by
    rintro rfl
    exact absurd h (by decide)
  rw [State.resolve_self h0 h2, State.resolveDirect, locOf_high h]

/-- Settles O8: most locations are read as they are; the bytes composed of bits, the registers with
open bits, TMRnH and LATCHD have their lemmas above. -/
theorem registerReads : Obligations.RegisterReads := by
  intro s reads shows floats
  have latchHigh (l : BitVec 18) := latchHighByte_bits s.opt.part l s.draw.1
  have latchMiddle (l : BitVec 18) :
      (l.extractLsb' 8 8, s) = (BitVec.ofNat 8 (l.toNat / 256), s) := by
    rw [field_eq l 8 256 rfl]
  have dalByte : s.readLoc .dal = (BitVec.ofNat 8 (s.dal.toNat * 16), s) := by
    rw [← dalByte_eq]
    rfl
  exact ⟨exec_movAm_pure .mp0 rfl rfl, exec_movAm_pure .mp1 rfl rfl, exec_movAm_pure .acc rfl rfl,
    exec_movAm_pure .pcl rfl rfl, exec_movAm_pure .tblp rfl rfl, exec_movAm_pure .tblh rfl rfl,
    exec_movAm_pure .wdts rfl rfl, ⟨_, exec_movAm_pure .status rfl rfl, s.statusByte_bits⟩,
    ⟨_, exec_movAm_pure .intc rfl rfl, s.intcByte_bits⟩, exec_movAm_tmrH (n := .t0) rfl,
    exec_movAm_pure (.tmrL .t0) rfl rfl,
    ⟨_, exec_movAm_pure (.tmrC .t0) rfl rfl, s.t0.ctrlByte_bits⟩, exec_movAm_tmrH (n := .t1) rfl,
    exec_movAm_pure (.tmrL .t1) rfl rfl,
    ⟨_, exec_movAm_pure (.tmrC .t1) rfl rfl, s.t1.ctrlByte_bits⟩, exec_movAm_pure .pac rfl rfl,
    exec_movAm_pure .pbc rfl rfl, ⟨_, exec_movAm_draw (.latchH .l0) rfl rfl, latchHigh s.latch0⟩,
    exec_movAm_pure (.latchM .l0) rfl (latchMiddle s.latch0), exec_movAm_pure (.latchL .l0) rfl rfl,
    ⟨_, exec_movAm_draw (.latchH .l1) rfl rfl, latchHigh s.latch1⟩,
    exec_movAm_pure (.latchM .l1) rfl (latchMiddle s.latch1), exec_movAm_pure (.latchL .l1) rfl rfl,
    ⟨_, exec_movAm_pure .intch rfl rfl, s.intchByte_bits⟩,
    ⟨_, exec_movAm_draw .tbhp rfl rfl, tbhpByte_low _ s.tbhp⟩, exec_movAm_pure .tmr3l rfl rfl,
    ⟨_, exec_movAm_pure .tmr3c rfl rfl, s.t3.ctrlByte_bits⟩,
    ⟨_, exec_movAm_pure .voicec rfl rfl, s.voicecByte_bits⟩, exec_movAm_pure .dal rfl dalByte,
    exec_movAm_pure .dah rfl rfl, ⟨_, exec_movAm_draw .vol rfl rfl, volByte_fields s.vol _⟩,
    fun hready => exec_movAm_pure .latchd rfl (if_pos (s.voiceReady_iff.mpr hready)),
    fun hready => ⟨_, exec_movAm_draw .latchd rfl (if_neg (hready ∘ s.voiceReady_iff.mp)), trivial⟩,
    fun a ha => exec_movAm_pure (.ram a) (s.resolve_high ha) rfl⟩

/-- Settles O9: both ports are read as their eight levels, with one free byte for floating lines. -/
theorem portReads : Obligations.PortReads := by
  refine ⟨fun s driven level slot later h => step_event h, ?_⟩
  intro s k hk reads
  obtain ⟨outA, drivenA, pullA⟩ := Port.levels_line s.pa s.opt.paPullHigh s.draw.1 hk
  obtain ⟨outB, drivenB, pullB⟩ := Port.levels_line s.pb s.opt.pbPullHigh s.draw.1 hk
  exact ⟨_, _, exec_movAm_draw .pa rfl rfl, exec_movAm_draw .pb rfl rfl, outA, drivenA, pullA,
    outB, drivenB, pullB⟩

end Sys2Proof.Machine
end

section
/-! Proofs about what MOV [m],A does at each register (20_memory.md R108 to R122; 60_exceptions.md
R435, R437, R470). -/

namespace Sys2Proof.Machine

open Sys2Proof.Config

/-! ### Locations that take every byte in one cycle -/

/-- The locations without a check on the byte written and without the dummy cycle of PCL (R109,
R114, R118, R122). -/
def Loc.plain : Loc → Bool
  | .pcl | .tmrC _ | .tmr3c | .voicec => false
  | .window | .mp0 | .mp1 | .acc | .tblp | .tblh | .wdts | .status | .intc | .tmrH _ | .tmrL _
  | .pa | .pac | .pb | .pbc | .latchH _ | .latchM _ | .latchL _ | .intch | .tbhp | .tmr3l | .dal
  | .dah | .vol | .latchd | .ram _ => true

theorem Loc.plain.accepts {l : Loc} (h : l.plain = true) (v : Byte) : l.accepts v := by
  refine ⟨?_, ?_, ?_⟩
  · rintro n rfl
    cases h
  · rintro rfl
    cases h
  · rintro rfl
    cases h

theorem exec_movMa_plain {s t : State} {m : Byte} (l : Loc) (h : s.resolve m = .ok l)
    (hl : l.plain = true) (ht : { s.writeLoc s.acc l with cycles := s.cycles + 1 } = t) :
    exec (.movMa m) s = .next t := by
  refine exec_movMa_oneCycle l h (Loc.plain.accepts hl s.acc) ?_ ht
  rintro rfl
  cases hl

/-! ### Fields put together, in whole numbers -/

/-- The value of two fields side by side. -/
theorem toNat_append_add {v w : Nat} (x : BitVec v) (y : BitVec w) :
    (x ++ y).toNat = x.toNat * 2 ^ w + y.toNat := by
  rw [BitVec.toNat_append, ← Nat.shiftLeft_add_eq_or_of_lt y.isLt, Nat.shiftLeft_eq]

/-- A write of PCL keeps the page (R109). -/
theorem pc_withLowByte (p : PAddr) (v : Byte) :
    p.extractLsb' 8 5 ++ v = BitVec.ofNat 13 (p.toNat / 256 * 256 + v.toNat) := by
  have hp := p.isLt
  have hv := v.isLt
  apply BitVec.eq_of_toNat_eq
  rw [toNat_append_add, field_eq p 8 256 rfl, BitVec.toNat_ofNat, BitVec.toNat_ofNat]
  omega

/-- The high part of a voice ROM latch replaced (R117). -/
theorem latch_withHigh (l : BitVec 18) (v : Byte) :
    v.extractLsb' 0 2 ++ l.extractLsb' 0 16 =
      BitVec.ofNat 18 (l.toNat % 65536 + v.toNat % 4 * 65536) := by
  apply BitVec.eq_of_toNat_eq
  rw [toNat_append_add, field_eq v 0 1 rfl, field_eq l 0 1 rfl]
  simp only [BitVec.toNat_ofNat]
  omega

/-- The middle byte of a voice ROM latch replaced (R117). -/
theorem latch_withMiddle (l : BitVec 18) (v : Byte) :
    l.extractLsb' 16 2 ++ v ++ l.extractLsb' 0 8 =
      BitVec.ofNat 18 (l.toNat / 65536 * 65536 + v.toNat * 256 + l.toNat % 256) := by
  have hl := l.isLt
  have hv := v.isLt
  apply BitVec.eq_of_toNat_eq
  rw [toNat_append_add, toNat_append_add, field_eq l 16 65536 rfl, field_eq l 0 1 rfl]
  simp only [BitVec.toNat_ofNat]
  omega

/-- The low byte of a voice ROM latch replaced (R117). -/
theorem latch_withLow (l : BitVec 18) (v : Byte) :
    l.extractLsb' 8 10 ++ v = BitVec.ofNat 18 (l.toNat / 256 * 256 + v.toNat) := by
  have hl := l.isLt
  have hv := v.isLt
  apply BitVec.eq_of_toNat_eq
  rw [toNat_append_add, field_eq l 8 256 rfl]
  simp only [BitVec.toNat_ofNat]
  omega

/-! ### Core registers, ports, DAC registers and RAM (20_memory.md R108) -/

/-- A write of PCL takes its dummy cycle (R109). -/
theorem exec_movMa_pcl (s : State) : exec (.movMa 0x06#8) s = .next { s with
    pc := BitVec.ofNat 13 (s.pc.toNat / 256 * 256 + s.acc.toNat), cycles := s.cycles + 2 } := by
  rw [exec_movMa_direct (l := .pcl) rfl ⟨nofun, nofun, nofun⟩, ← pc_withLowByte]
  rfl

/-- Settles O10: the bytes go to registers that take all of them, but for PCL; of DAL and VOL the
upper bits are kept. -/
theorem registerWrites : Obligations.RegisterWrites := by
  intro s writes
  have dal : exec (.movMa 0x27#8) s = .next { s with
      dal := BitVec.ofNat 4 (s.acc.toNat / 16), cycles := s.cycles + 1 } := by
    rw [← field_eq s.acc 4 16 rfl]
    exact exec_movMa_plain .dal rfl rfl rfl
  have vol : exec (.movMa 0x29#8) s = .next { s with
      vol := BitVec.ofNat 3 (s.acc.toNat / 32), cycles := s.cycles + 1 } := by
    rw [← field_eq s.acc 5 32 rfl]
    exact exec_movMa_plain .vol rfl rfl rfl
  exact ⟨exec_movMa_plain .mp0 rfl rfl rfl, exec_movMa_plain .mp1 rfl rfl rfl,
    exec_movMa_plain .acc rfl rfl rfl, exec_movMa_pcl s, exec_movMa_plain .tblp rfl rfl rfl,
    exec_movMa_plain .tblh rfl rfl rfl, exec_movMa_plain .wdts rfl rfl rfl,
    exec_movMa_plain .status rfl rfl rfl, exec_movMa_plain .intc rfl rfl rfl,
    exec_movMa_plain .pa rfl rfl rfl, exec_movMa_plain .pac rfl rfl rfl,
    exec_movMa_plain .pb rfl rfl rfl, exec_movMa_plain .pbc rfl rfl rfl,
    exec_movMa_plain .intch rfl rfl rfl, exec_movMa_plain .tbhp rfl rfl rfl, dal,
    exec_movMa_plain .dah rfl rfl rfl, vol, exec_movMa_plain .latchd rfl rfl rfl,
    fun a ha => ⟨exec_movMa_plain (.ram a) (s.resolve_high ha) rfl rfl,
      fun hwf b => State.ramRead_ramWrite hwf b a s.acc⟩⟩

/-! ### Timer registers (20_memory.md R112 to R114, R121, R122) -/

theorem Timer16.writeHigh_on {t : Timer16} (h : t.ton = true) (v : Byte) :
    t.writeHigh v = { t with pre := v ++ t.buf } := by
  rw [Timer16.writeHigh, if_pos h]

theorem Timer16.writeHigh_off {t : Timer16} (h : t.ton = false) (v : Byte) :
    t.writeHigh v = { t with pre := v ++ t.buf, cnt := v ++ t.buf } := by
  rw [Timer16.writeHigh, if_neg (by simp [h])]

theorem Timer16.writeCtrl_eq (t : Timer16) (v : Byte) : t.writeCtrl v = { t with
    te := v.getLsbD 3, ton := v.getLsbD 4, tm := BitVec.ofNat 2 (v.toNat / 64)
    pw := if v.getLsbD 4 = true ∧ t.ton = false then false else t.pw } := by
  have hpw : (t.pw && !(v.getLsbD 4 && !t.ton)) =
      if v.getLsbD 4 = true ∧ t.ton = false then false else t.pw := by
    cases v.getLsbD 4 <;> cases t.ton <;> simp
  rw [Timer16.writeCtrl, hpw, field_eq v 6 64 rfl]

theorem Timer8.writeCount_on {t : Timer8} (h : t.ton = true) (v : Byte) :
    t.writeCount v = { t with pre := v } := by
  rw [Timer8.writeCount, if_pos h]

theorem Timer8.writeCount_off {t : Timer8} (h : t.ton = false) (v : Byte) :
    t.writeCount v = { t with pre := v, cnt := v } := by
  rw [Timer8.writeCount, if_neg (by simp [h])]

theorem Timer8.writeCtrl_eq (t : Timer8) (v : Byte) : t.writeCtrl v = { t with
    sel := BitVec.ofNat 3 v.toNat, te := v.getLsbD 3, ton := v.getLsbD 4
    tm := BitVec.ofNat 2 (v.toNat / 64)
    ps := if v.getLsbD 4 = true ∧ t.ton = false then 0#8 else t.ps } := by
  have hps : (if (v.getLsbD 4 && !t.ton) = true then 0#8 else t.ps) =
      if v.getLsbD 4 = true ∧ t.ton = false then 0#8 else t.ps := by simp
  rw [Timer8.writeCtrl, hps, field_eq v 6 64 rfl]
  rfl

/-- The mode a control byte gives, in whole numbers. -/
theorem toNat_mode (v : Byte) : (v.extractLsb' 6 2).toNat = v.toNat / 64 := by
  have hv := v.isLt
  rw [field_eq v 6 64 rfl, BitVec.toNat_ofNat]
  omega

theorem accepts_tmrC {v : Byte} (h : ¬(v.getLsbD 4 = true ∧ v.toNat / 64 = 0)) (n : TimerId) :
    (Loc.tmrC n).accepts v := by
  refine ⟨fun _ _ hton hmode => h ⟨hton, ?_⟩, nofun, nofun⟩
  rw [← toNat_mode, hmode]
  rfl

theorem accepts_tmr3c {v : Byte} (h : ¬(v.getLsbD 4 = true ∧ v.toNat / 64 ≠ 2)) :
    Loc.tmr3c.accepts v := by
  refine ⟨nofun, fun _ hton => BitVec.eq_of_toNat_eq ?_, nofun⟩
  rw [toNat_mode]
  exact not_not.mp fun hmode => h ⟨hton, hmode⟩

section
variable {s : State} {m : Byte} {n : TimerId}

theorem exec_movMa_tmrH_on (h : s.resolve m = .ok (.tmrH n)) (hton : (s.timer n).ton = true) :
    exec (.movMa m) s = .next { s.setTimer n
      { s.timer n with pre := s.acc ++ (s.timer n).buf } with cycles := s.cycles + 1 } :=
  exec_movMa_plain (.tmrH n) h rfl (by rw [State.writeLoc, Timer16.writeHigh_on hton])

theorem exec_movMa_tmrH_off (h : s.resolve m = .ok (.tmrH n)) (hton : (s.timer n).ton = false) :
    exec (.movMa m) s = .next { s.setTimer n
      { s.timer n with pre := s.acc ++ (s.timer n).buf, cnt := s.acc ++ (s.timer n).buf } with
      cycles := s.cycles + 1 } :=
  exec_movMa_plain (.tmrH n) h rfl (by rw [State.writeLoc, Timer16.writeHigh_off hton])

theorem exec_movMa_tmrC (h : s.resolve m = .ok (.tmrC n))
    (hmode : ¬(s.acc.getLsbD 4 = true ∧ s.acc.toNat / 64 = 0)) :
    exec (.movMa m) s = .next { s.setTimer n { s.timer n with
        te := s.acc.getLsbD 3, ton := s.acc.getLsbD 4, tm := BitVec.ofNat 2 (s.acc.toNat / 64)
        pw := if s.acc.getLsbD 4 = true ∧ (s.timer n).ton = false then false
          else (s.timer n).pw } with
      cycles := s.cycles + 1 } :=
  exec_movMa_oneCycle (.tmrC n) h (accepts_tmrC hmode n) nofun
    (by rw [State.writeLoc, Timer16.writeCtrl_eq])

end

/-- Settles O11: what each register takes, with the timer on and off. -/
theorem timerRegisterWrites : Obligations.TimerRegisterWrites := by
  intro s writes v
  refine ⟨exec_movMa_plain (.tmrL .t0) rfl rfl rfl, exec_movMa_plain (.tmrL .t1) rfl rfl rfl,
    exec_movMa_tmrH_on (n := .t0) rfl, exec_movMa_tmrH_off (n := .t0) rfl,
    exec_movMa_tmrH_on (n := .t1) rfl, exec_movMa_tmrH_off (n := .t1) rfl,
    fun hmode => ⟨exec_movMa_tmrC (n := .t0) rfl hmode, exec_movMa_tmrC (n := .t1) rfl hmode⟩,
    fun hton => exec_movMa_plain .tmr3l rfl rfl ?_,
    fun hton => exec_movMa_plain .tmr3l rfl rfl ?_,
    fun hmode => exec_movMa_oneCycle .tmr3c rfl (accepts_tmr3c hmode) nofun ?_⟩
  · rw [State.writeLoc, Timer8.writeCount_on hton]
  · rw [State.writeLoc, Timer8.writeCount_off hton]
  · rw [State.writeLoc, Timer8.writeCtrl_eq]

/-! ### The voice ROM registers (20_memory.md R117, R118; 60_exceptions.md R470) -/

/-- From `s` to `t` LATCHD became unknown and the delay is to start again (log 12, 15). -/
def State.voiceDisturbed (s t : State) : Prop :=
  t.latchd = freeByte s.draws ∧ t.draws = s.draws + 1 ∧
    t.restartVoice = { t with vromAge := 0, vromRestart := false }

/-- LATCHD and its delay go on as they were. -/
def State.voiceUndisturbed (s t : State) : Prop :=
  t.latchd = s.latchd ∧ t.draws = s.draws ∧ t.vromRestart = s.vromRestart

/-- `t` differs from `s` in the voice ROM registers, the free values drawn and the cycles alone. -/
def State.voiceFrame (s t : State) : Prop :=
  { t with
    latch0 := s.latch0, latch1 := s.latch1, dac := s.dac, vromc := s.vromc, latchc := s.latchc,
    voiceB7 := s.voiceB7, latchd := s.latchd, vromRestart := s.vromRestart, draws := s.draws,
    cycles := s.cycles } = s

/-- The value of LATCHC that selects a latch (60_exceptions.md R470). -/
def LatchId.select : LatchId → Bool
  | .l0 => false
  | .l1 => true

theorem State.selected_eq_iff (s : State) (n : LatchId) : s.selected = n ↔ s.latchc = n.select := by
  unfold State.selected
  cases s.latchc <;> cases n <;> decide

theorem State.voiceFrame.disturbVoice {s t : State} (h : s.voiceFrame t) :
    s.voiceFrame t.disturbVoice := h

theorem State.voiceFrame.withCycles {s t : State} (h : s.voiceFrame t) (c : Nat) :
    s.voiceFrame { t with cycles := c } := h

theorem State.voiceFrame_setLatch (s : State) (n : LatchId) (x : BitVec 18) :
    s.voiceFrame (s.setLatch n x) := by
  cases n <;> rfl

theorem State.voiceDisturbed_of_disturbVoice {s u : State} (h : u.draws = s.draws) (c : Nat) :
    s.voiceDisturbed { u.disturbVoice with cycles := c } :=
  ⟨congrArg freeByte h, congrArg (· + 1) h, rfl⟩

/-- What a write of a part of latch `n`, which then holds `x`, does. -/
theorem exec_movMa_latch {s : State} {m : Byte} {n : LatchId} {x : BitVec 18} (l : Loc)
    (h : s.resolve m = .ok l) (hl : l.plain = true) (hw : s.writeLoc s.acc l = s.writeLatch n x) :
    ∃ t, exec (.movMa m) s = .next t ∧
      t.latch0 = (if n = .l0 then x else s.latch0) ∧
      t.latch1 = (if n = .l1 then x else s.latch1) ∧
      (t.dac, t.vromc, t.latchc, t.voiceB7) = (s.dac, s.vromc, s.latchc, s.voiceB7) ∧
      t.cycles = s.cycles + 1 ∧ s.voiceFrame t ∧
      (s.latchc = n.select → s.voiceDisturbed t) ∧
      (s.latchc ≠ n.select → s.voiceUndisturbed t) := by
  refine ⟨_, exec_movMa_plain l h hl rfl, ?_⟩
  have hiff := s.selected_eq_iff n
  rw [hw, State.writeLatch]
  by_cases hsel : s.selected = n
  · rw [if_pos hsel]
    refine ⟨?_, ?_, ?_, rfl, (s.voiceFrame_setLatch n x).disturbVoice.withCycles _,
      fun _ => State.voiceDisturbed_of_disturbVoice (State.setLatch_draws s n x) _,
      fun hne => absurd (hiff.mp hsel) hne⟩ <;>
      cases n <;> rfl
  · rw [if_neg hsel]
    refine ⟨?_, ?_, ?_, rfl, (s.voiceFrame_setLatch n x).withCycles _,
      fun heq => absurd (hiff.mpr heq) hsel, fun _ => ⟨?_, ?_, ?_⟩⟩ <;>
      cases n <;> rfl

/-- What a write of VOICEC with bit 7 zero does. -/
theorem exec_movMa_voicec {s : State} (hb7 : s.acc.getLsbD 7 = false) :
    ∃ t, exec (.movMa 0x26#8) s = .next t ∧
      (t.dac, t.vromc, t.latchc, t.voiceB7) =
        (s.acc.getLsbD 1, s.acc.getLsbD 2, s.acc.getLsbD 4, false) ∧
      t.latch0 = s.latch0 ∧ t.latch1 = s.latch1 ∧ t.cycles = s.cycles + 1 ∧ s.voiceFrame t ∧
      (s.acc.getLsbD 2 ≠ s.vromc ∨ s.acc.getLsbD 4 ≠ s.latchc → s.voiceDisturbed t) ∧
      (s.acc.getLsbD 2 = s.vromc → s.acc.getLsbD 4 = s.latchc → s.voiceUndisturbed t) := by
  refine ⟨_, exec_movMa_oneCycle .voicec rfl ⟨nofun, nofun, fun _ => hb7⟩ nofun rfl, ?_⟩
  have hframe : s.voiceFrame { s with
      dac := s.acc.getLsbD 1, vromc := s.acc.getLsbD 2, latchc := s.acc.getLsbD 4
      voiceB7 := s.acc.getLsbD 7 } := rfl
  rw [State.writeLoc, State.writeVoicec, ← hb7]
  dsimp only
  by_cases hsame : s.acc.getLsbD 2 = s.vromc ∧ s.acc.getLsbD 4 = s.latchc
  · rw [if_pos hsame]
    exact ⟨rfl, rfl, rfl, rfl, hframe.withCycles _, fun hne => absurd hsame (not_and_or.mpr hne),
      fun _ _ => ⟨rfl, rfl, rfl⟩⟩
  · rw [if_neg hsame]
    exact ⟨rfl, rfl, rfl, rfl, hframe.disturbVoice.withCycles _,
      fun _ => State.voiceDisturbed_of_disturbVoice rfl _,
      fun h2 h4 => absurd ⟨h2, h4⟩ hsame⟩

/-- Settles O12: the written part replaces its bits of the latch; whether LATCHD is disturbed is a
matter of the selected latch, or of VROMC and LATCHC. -/
theorem voiceRegisterWrites : Obligations.VoiceRegisterWrites := by
  intro s v frame voice disturbed undisturbed latchWrite high middle low
  exact ⟨exec_movMa_latch (.latchH .l0) rfl rfl
      (congrArg (s.writeLatch .l0) (latch_withHigh s.latch0 v)),
    exec_movMa_latch (.latchM .l0) rfl rfl
      (congrArg (s.writeLatch .l0) (latch_withMiddle s.latch0 v)),
    exec_movMa_latch (.latchL .l0) rfl rfl
      (congrArg (s.writeLatch .l0) (latch_withLow s.latch0 v)),
    exec_movMa_latch (.latchH .l1) rfl rfl
      (congrArg (s.writeLatch .l1) (latch_withHigh s.latch1 v)),
    exec_movMa_latch (.latchM .l1) rfl rfl
      (congrArg (s.writeLatch .l1) (latch_withMiddle s.latch1 v)),
    exec_movMa_latch (.latchL .l1) rfl rfl
      (congrArg (s.writeLatch .l1) (latch_withLow s.latch1 v)),
    exec_movMa_voicec⟩

end Sys2Proof.Machine
end

section
/-! Proofs about the spec-assigned encoding (30_encoding.md R142 to R145): every word is in one of the
formats or unassigned, and on each format the decoder and the encoder are inverse to each other. -/

namespace Sys2Proof

/-! ### The words of each format in whole numbers (30_encoding.md R142) -/

theorem toNat_append_eq_add {m n : Nat} (x : BitVec m) (y : BitVec n) :
    (x ++ y).toNat = x.toNat * 2 ^ n + y.toNat := by
  rw [BitVec.toNat_append, ← Nat.shiftLeft_add_eq_or_of_lt y.isLt, Nat.shiftLeft_eq]

theorem byteWord_toNat (op m : Byte) : (byteWord op m).toNat = op.toNat * 0x100 + m.toNat :=
  toNat_append_eq_add op m

theorem bitWord_toNat (op2 : BitVec 2) (i : Nat) (m : Byte) :
    (bitWord op2 i m).toNat = 0x8000 + op2.toNat * 0x800 + i % 8 * 0x100 + m.toNat := by
  rw [bitWord, toNat_append_eq_add, toNat_append_eq_add, toNat_append_eq_add, BitVec.toNat_ofNat,
    BitVec.toNat_ofNat]
  omega

theorem addrWord_toNat (op1 : BitVec 1) (addr : PAddr) :
    (addrWord op1 addr).toNat = 0xC000 + op1.toNat * 0x2000 + addr.toNat := by
  rw [addrWord, toNat_append_eq_add, toNat_append_eq_add, BitVec.toNat_ofNat]
  omega

/-- The opcode bytes of the words that are in neither format B nor format A. -/
def plainOp (op : Byte) : Prop := op.toNat < 0x80 ∨ 0xA0 ≤ op.toNat ∧ op.toNat < 0xC0

/-- Every word is of format B or A, or is told apart by its upper byte alone. -/
theorem word_cases (w : RomWord) :
    (∃ op m, plainOp op ∧ byteWord op m = w) ∨
    (∃ op2 i m, i < 8 ∧ bitWord op2 i m = w) ∨
    (∃ op1 addr, addrWord op1 addr = w) := by
  have hw := w.isLt
  by_cases hA : 0xC000 ≤ w.toNat
  · refine .inr (.inr ⟨BitVec.ofNat 1 (w.toNat / 0x2000), BitVec.ofNat 13 w.toNat, ?_⟩)
    apply BitVec.eq_of_toNat_eq
    rw [addrWord_toNat, BitVec.toNat_ofNat, BitVec.toNat_ofNat]
    omega
  by_cases hB : 0x8000 ≤ w.toNat ∧ w.toNat < 0xA000
  · refine .inr (.inl ⟨BitVec.ofNat 2 (w.toNat / 0x800), w.toNat / 0x100 % 8,
      BitVec.ofNat 8 w.toNat, by omega, ?_⟩)
    apply BitVec.eq_of_toNat_eq
    rw [bitWord_toNat, BitVec.toNat_ofNat, BitVec.toNat_ofNat]
    omega
  · refine .inl ⟨BitVec.ofNat 8 (w.toNat / 0x100), BitVec.ofNat 8 w.toNat, ?_, ?_⟩
    · rw [plainOp, BitVec.toNat_ofNat]
      omega
    · apply BitVec.eq_of_toNat_eq
      rw [byteWord_toNat, BitVec.toNat_ofNat, BitVec.toNat_ofNat]
      omega

/-! ### The decoder on each format -/

/-- The upper bits of an opcode byte, in whole numbers. -/
theorem opcode_top_toNat (op : Byte) :
    (op.extractLsb' 6 2).toNat = op.toNat / 64 ∧ (op.extractLsb' 5 3).toNat = op.toNat / 32 := by
  have hop := op.isLt
  simp only [BitVec.extractLsb'_toNat, Nat.shiftRight_eq_div_pow]
  omega

/-- `decode_byteWord` with the unassigned words A000H to BFFFH besides. -/
theorem decode_byteWord_of_plainOp {op : Byte} (h : plainOp op) (m : Byte) :
    decode (byteWord op m) = decodeByteOp op m (byteWord op m) := by
  obtain ⟨htop2, htop3⟩ := opcode_top_toNat op
  have hA : op.extractLsb' 6 2 ≠ 0b11#2 := fun he => by
    rw [he, BitVec.toNat_ofNat] at htop2
    unfold plainOp at h
    omega
  have hB : op.extractLsb' 5 3 ≠ 0b100#3 := fun he => by
    rw [he, BitVec.toNat_ofNat] at htop3
    unfold plainOp at h
    omega
  simp [decode, hA, hB]

/-- What format N decodes is the instruction of that word. -/
theorem decodeN_eq_ok {n : Byte} {w : RomWord} {i : Instr} (h : decodeN n w = .ok i) :
    encode i = byteWord 0x00#8 n ∧ i.wf = true := by
  unfold decodeN at h
  split at h <;> cases h
  all_goals
    rename_i hn
    exact ⟨congrArg (byteWord 0x00#8) (BitVec.eq_of_toNat_eq hn).symm, rfl⟩

/-- What an opcode byte decodes to is the instruction of that word. -/
theorem decodeByteOp_eq_ok {op m : Byte} {w : RomWord} {i : Instr}
    (h : decodeByteOp op m w = .ok i) : encode i = byteWord op m ∧ i.wf = true := by
  unfold decodeByteOp at h
  split at h
  case h_1 hop =>
    rw [BitVec.eq_of_toNat_eq (y := 0x00#8) hop]
    exact decodeN_eq_ok h
  all_goals cases h
  all_goals
    rename_i hop
    exact ⟨congrArg (byteWord · m) (BitVec.eq_of_toNat_eq hop).symm, rfl⟩

/-- A bit number of an instruction fits the three bits of format B (R144). -/
theorem bitNumber_toNat {i : Nat} (hi : i < 8) : (BitVec.ofNat 3 i).toNat = i := Nat.mod_eq_of_lt hi

theorem encode_decodeBitOp (op2 : BitVec 2) {i : Nat} (hi : i < 8) (m : Byte) :
    encode (decodeBitOp op2 (BitVec.ofNat 3 i) m) = bitWord op2 i m ∧
      (decodeBitOp op2 (BitVec.ofNat 3 i) m).wf = true := by
  match op2 with
  | 0b00#2 | 0b01#2 | 0b10#2 | 0b11#2 => simp [decodeBitOp, bitNumber_toNat hi, encode, Instr.wf, hi]

theorem encode_decodeAddrOp (op1 : BitVec 1) (addr : PAddr) :
    encode (decodeAddrOp (op1.getLsbD 0) addr) = addrWord op1 addr ∧
      (decodeAddrOp (op1.getLsbD 0) addr).wf = true := by
  match op1 with
  | 0#1 | 1#1 => exact ⟨rfl, rfl⟩

/-! ### Decoder and encoder are inverse to each other -/

/-- Settles O1: each instruction's word is of the instruction's format, and the decoder's row for its
opcode gives the instruction; a bit number below 8 fits its three bits. -/
theorem decodeOfEncode : Obligations.DecodeOfEncode := by
  intro i hwf
  cases i with
  | clrBit m k | setBit m k | szBit m k | snzBit m k =>
    have hk : k < 8 := of_decide_eq_true hwf
    refine (decode_bitWord _ k m).trans ?_
    simp [decodeBitOp, bitNumber_toNat hk]
  | jmp addr | call addr => exact decode_addrWord _ addr
  | _ => exact decode_byteWord _ _ (by decide)

/-- Settles O2, by the word's format. -/
theorem encodeOfDecode : Obligations.EncodeOfDecode := by
  intro w i h
  obtain ⟨op, m, hop, rfl⟩ | ⟨op2, k, m, hk, rfl⟩ | ⟨op1, addr, rfl⟩ := word_cases w
  · rw [decode_byteWord_of_plainOp hop] at h
    exact decodeByteOp_eq_ok h
  · rw [decode_bitWord] at h
    cases h
    exact encode_decodeBitOp op2 hk m
  · rw [decode_addrWord] at h
    cases h
    exact encode_decodeAddrOp op1 addr

/-- Settles O4: each word is the one the encoder gives its instruction. -/
theorem sampleWordsDecode : Obligations.SampleWordsDecode := by
  have h : ∀ {w : RomWord} {i : Instr}, encode i = w → i.wf = true → decode w = .ok i :=
    fun hw hwf => hw ▸ decodeOfEncode _ hwf
  exact ⟨h rfl rfl, h rfl rfl, h rfl rfl, h rfl rfl, h rfl rfl, h rfl rfl, h rfl rfl, h rfl rfl,
    h rfl rfl, h rfl rfl, h rfl rfl, h rfl rfl, h rfl rfl, h rfl rfl, h rfl rfl⟩

/-! ### The unassigned words (30_encoding.md R145) -/

theorem decodeN_isOk_iff (n : Byte) (w : RomWord) :
    (∃ i, decodeN n w = .ok i) ↔ n.toNat < 7 := by
  unfold decodeN
  split
  case h_8 =>
    refine ⟨nofun, fun hn => ?_⟩
    simp only [imp_false] at *
    omega
  all_goals
    rename_i hn
    exact ⟨fun _ => by omega, fun _ => ⟨_, rfl⟩⟩

theorem decodeByteOp_isOk_iff (op m : Byte) (w : RomWord) :
    (∃ i, decodeByteOp op m w = .ok i) ↔
      op.toNat = 0 ∧ m.toNat < 7 ∨ 0 < op.toNat ∧ op.toNat < 0x2C ∨
        0x40 ≤ op.toNat ∧ op.toNat < 0x47 := by
  unfold decodeByteOp
  split
  case h_1 hop =>
    rw [decodeN_isOk_iff]
    omega
  case h_52 =>
    refine ⟨nofun, fun hop => ?_⟩
    simp only [imp_false] at *
    omega
  all_goals
    rename_i hop
    exact ⟨fun _ => by omega, fun _ => ⟨_, rfl⟩⟩

/-- The four ranges of R145. -/
def unassignedWord (w : RomWord) : Prop :=
  (0x0007 ≤ w.toNat ∧ w.toNat ≤ 0x00FF) ∨ (0x2C00 ≤ w.toNat ∧ w.toNat ≤ 0x3FFF) ∨
    (0x4700 ≤ w.toNat ∧ w.toNat ≤ 0x7FFF) ∨ (0xA000 ≤ w.toNat ∧ w.toNat ≤ 0xBFFF)

/-- A word is some instruction exactly outside the ranges of R145: those of formats B and A all are,
the others by their opcode byte. -/
theorem decode_isOk_iff (w : RomWord) : (∃ i, decode w = .ok i) ↔ ¬ unassignedWord w := by
  unfold unassignedWord
  obtain ⟨op, m, hop, rfl⟩ | ⟨op2, k, m, hk, rfl⟩ | ⟨op1, addr, rfl⟩ := word_cases w
  · have hm := m.isLt
    rw [decode_byteWord_of_plainOp hop, decodeByteOp_isOk_iff, byteWord_toNat]
    unfold plainOp at hop
    omega
  · have hm := m.isLt
    have ho := op2.isLt
    rw [decode_bitWord, bitWord_toNat]
    exact ⟨fun _ => by omega, fun _ => ⟨_, rfl⟩⟩
  · have ho := op1.isLt
    rw [decode_addrWord, addrWord_toNat]
    exact ⟨fun _ => by omega, fun _ => ⟨_, rfl⟩⟩

end Sys2Proof

namespace Sys2Proof.Machine

/-- A fetched word that is no instruction stops the machine (decision D2). -/
theorem State.runInstr_undecoded {d : RomWord → Except DecodeError Instr} {s : State}
    (h : ∀ i, d s.fetch ≠ .ok i) : s.runInstr d = .fault (.illegalInstruction s.pc s.fetch) := by
  unfold State.runInstr
  split
  · rfl
  · rename_i i hd
    exact absurd hd (h i)

/-- Settles O3: the ranges by `decode_isOk_iff`; the step is the fetched word's, and it is none. -/
theorem unassignedWordsStop : Obligations.UnassignedWordsStop := by
  refine ⟨fun w => ?_, fun s hs hw => ?_⟩
  · rw [← not_exists, decode_isOk_iff, not_not]
    rfl
  · rw [hs.step]
    exact State.runInstr_undecoded (s := s.pastEvents) hw

end Sys2Proof.Machine
end

section
/-! Proofs about the arithmetic instructions (40_arithmetic.md) and the immediate forms of the logic
instructions (41_logic.md R227 to R229). -/

namespace Sys2Proof.Machine

open Sys2Proof.Config

/-! ### The adder's result and flags in ACC (40_arithmetic.md R201) -/

theorem State.addToAcc_sum (s : State) (a b : Byte) (c : Bool) :
    s.addToAcc (add8 a b c) =
      { s.withSum a b c with acc := BitVec.ofNat 8 (a.toNat + b.toNat + c.toNat) } := by
  rw [State.addToAcc, State.withAddFlags_sum, add8_r]

theorem State.addToAcc_difference (s : State) (a b : Byte) (c : Bool) :
    s.addToAcc (add8 a (~~~b) c) =
      { s.withDifference a b (!c) with acc := a - b - BitVec.ofNat 8 (!c).toNat } := by
  rw [State.addToAcc, State.withAddFlags_difference, add8_sub_r]

/-- A subtraction without borrow, as the carry 1 of the adder gives it. -/
theorem sub_noBorrow (a b : Byte) : a - b - BitVec.ofNat 8 (!true).toNat = a - b :=
  BitVec.sub_zero _

/-- The destination the arithmetic instructions are refused is STATUS alone (10_state.md R25). -/
theorem DestRule.notStatus_allows {l : Loc} (h : some l ≠ some .status) :
    DestRule.notStatus.allows l = true := bne_iff_ne.mpr fun hl => h (congrArg some hl)

/-! ### The shapes of addition and subtraction, with the carry a read keeps -/

section
variable {code : RomWord} {i : Instr} {m : Byte} {s : State} {carry : State → Bool}
  (hd : decode code = .ok i) (hc : ∀ t, s.afterRead t → carry t = carry s)
include hd hc

theorem readForm_sum
    (he : exec i s = s.loadOp m fun v t => t.addToAcc (add8 t.acc v (carry t))) :
    readForm code i m s fun v t => { t.withSum s.acc v (carry s) with
      acc := BitVec.ofNat 8 (s.acc.toNat + v.toNat + (carry s).toNat), cycles := s.cycles + 1 } := by
  refine readForm_of hd he fun v t ht => ?_
  obtain ⟨hcycles, hacc, -⟩ := ht.kept
  rw [hacc, hc t ht, State.addToAcc_sum, ← hcycles]
  rfl

theorem readForm_difference
    (he : exec i s = s.loadOp m fun v t => t.addToAcc (add8 t.acc (~~~v) (carry t))) :
    readForm code i m s fun v t => { t.withDifference s.acc v (!carry s) with
      acc := s.acc - v - BitVec.ofNat 8 (!carry s).toNat, cycles := s.cycles + 1 } := by
  refine readForm_of hd he fun v t ht => ?_
  obtain ⟨hcycles, hacc, -⟩ := ht.kept
  rw [hacc, hc t ht, State.addToAcc_difference, ← hcycles]
  rfl

theorem modifyForm_sum
    (he : exec i s = s.addMemOp i m fun v t => add8 t.acc v (carry t)) :
    modifyForm code i m s (some .status)
      (fun v _ => BitVec.ofNat 8 (s.acc.toNat + v.toNat + (carry s).toNat))
      (fun v t => t.withSum s.acc v (carry s)) (fun _ t => t) := by
  refine modifyForm_of hd he (fun _ => DestRule.notStatus_allows) (fun v t ht => ?_)
    (fun v t ht => ?_) (fun _ _ => rfl) (fun _ _ => rfl) (fun _ _ _ => rfl) fun _ _ => rfl
  all_goals obtain ⟨-, hacc, -⟩ := ht.kept
  · simp only [hacc, hc t ht, add8_r]
  · simp only [hacc, hc t ht, State.withAddFlags_sum]

theorem modifyForm_difference
    (he : exec i s = s.addMemOp i m fun v t => add8 t.acc (~~~v) (carry t)) :
    modifyForm code i m s (some .status)
      (fun v _ => s.acc - v - BitVec.ofNat 8 (!carry s).toNat)
      (fun v t => t.withDifference s.acc v (!carry s)) (fun _ t => t) := by
  refine modifyForm_of hd he (fun _ => DestRule.notStatus_allows) (fun v t ht => ?_)
    (fun v t ht => ?_) (fun _ _ => rfl) (fun _ _ => rfl) (fun _ _ _ => rfl) fun _ _ => rfl
  all_goals obtain ⟨-, hacc, -⟩ := ht.kept
  · simp only [hacc, hc t ht, add8_sub_r]
  · simp only [hacc, hc t ht, State.withAddFlags_difference]

end

theorem State.afterRead.fC {s t : State} (h : s.afterRead t) : t.fC = s.fC := by
  obtain ⟨-, -, hfC, -⟩ := h.kept
  exact hfC

/-! ### Addition and subtraction with an operand in memory (R201 to R210) -/

/-- Settles O14: ADD puts carry 0 into the adder, ADC puts C. -/
theorem addToAccumulator : Obligations.AddToAccumulator := fun m _ =>
  ⟨readForm_sum (carry := fun _ => false) (decodeOfEncode (.addAm m) rfl) (fun _ _ => rfl) rfl,
    readForm_sum (decodeOfEncode (.adcAm m) rfl) (fun _ ht => ht.fC) rfl⟩

/-- Settles O15: SUB puts carry 1, which is no borrow, into the adder, SBC puts C. -/
theorem subtractFromAccumulator : Obligations.SubtractFromAccumulator := by
  intro m s
  have hsub := readForm_difference (m := m) (s := s) (carry := fun _ => true)
    (decodeOfEncode (.subAm m) rfl) (fun _ _ => rfl) rfl
  simp only [sub_noBorrow] at hsub
  exact ⟨hsub, readForm_difference (decodeOfEncode (.sbcAm m) rfl) (fun _ ht => ht.fC) rfl⟩

/-- Settles O16: as O14, the sum written back. -/
theorem addToMemory : Obligations.AddToMemory := fun m _ =>
  ⟨modifyForm_sum (carry := fun _ => false) (decodeOfEncode (.addmAm m) rfl) (fun _ _ => rfl) rfl,
    modifyForm_sum (decodeOfEncode (.adcmAm m) rfl) (fun _ ht => ht.fC) rfl⟩

/-- Settles O17: as O15, the difference written back. -/
theorem subtractToMemory : Obligations.SubtractToMemory := by
  intro m s
  have hsub := modifyForm_difference (m := m) (s := s) (carry := fun _ => true)
    (decodeOfEncode (.submAm m) rfl) (fun _ _ => rfl) rfl
  simp only [sub_noBorrow] at hsub
  exact ⟨hsub, modifyForm_difference (decodeOfEncode (.sbcmAm m) rfl) (fun _ ht => ht.fC) rfl⟩

/-! ### The immediate forms (R203, R206; 41_logic.md R227 to R229) -/

theorem exec_addAx_sum (x : Byte) (s : State) : exec (.addAx x) s = .next
    { s.withSum s.acc x false with
      acc := BitVec.ofNat 8 (s.acc.toNat + x.toNat), cycles := s.cycles + 1 } := by
  rw [exec_addAx, execAddAx, State.addToAcc_sum]
  rfl

theorem exec_subAx_difference (x : Byte) (s : State) : exec (.subAx x) s = .next
    { s.withDifference s.acc x false with acc := s.acc - x, cycles := s.cycles + 1 } := by
  rw [exec_subAx, execSubAx, State.addToAcc_difference, sub_noBorrow]
  rfl

theorem Byte.beq_zero (r : Byte) : (r == 0#8) = decide (r.toNat = 0) := by
  rw [Bool.eq_iff_iff, beq_iff_eq, decide_eq_true_iff, BitVec.toNat_eq]
  rfl

/-- A logic result in ACC with Z from it, in one cycle (41_logic.md R220). -/
theorem State.resultToAcc_done (s : State) (r : Byte) : (s.resultToAcc r).done 1 = .next
    { s with acc := r, fZ := decide (r.toNat = 0), cycles := s.cycles + 1 } := by
  rw [← Byte.beq_zero]
  rfl

/-- Settles O20: the words are the encoder's, and the meanings those of the lemmas above. -/
theorem immediateForms : Obligations.ImmediateForms := fun x s =>
  ⟨decodeOfEncode (.addAx x) rfl, decodeOfEncode (.subAx x) rfl, decodeOfEncode (.andAx x) rfl,
    decodeOfEncode (.orAx x) rfl, decodeOfEncode (.xorAx x) rfl, exec_addAx_sum x s,
    exec_subAx_difference x s, s.resultToAcc_done _, s.resultToAcc_done _, s.resultToAcc_done _⟩

/-! ### The decimal adjust in whole numbers (R211) -/

theorem daaLow_toNat (lo : BitVec 4) (ac : Bool) : (daaLow lo ac).1.toNat =
    if 9 < lo.toNat ∨ ac = true then (lo.toNat + 6) % 16 else lo.toNat := by
  unfold daaLow
  by_cases hlo : 9 < lo.toNat
  · simp [hlo, BitVec.toNat_add]
  · cases ac <;> simp [hlo, BitVec.toNat_add]

theorem daaLow_carry (lo : BitVec 4) (ac : Bool) : (daaLow lo ac).2 =
    if 9 < lo.toNat then (if ac then daaAc1Both else true) else false := by
  unfold daaLow
  by_cases hlo : 9 < lo.toNat
  · simp [hlo]
  · cases ac <;> simp [hlo]

/-- The high nibble with the internal carry is at most 16, so it fits the model's five bits. -/
theorem daaHigh_sum_toNat (hi : BitVec 4) (ac1 : Bool) :
    (hi.setWidth 5 + (BitVec.ofBool ac1).setWidth 5).toNat = hi.toNat + ac1.toNat := by
  have hhi := hi.isLt
  have hac1 := Bool.toNat_le ac1
  simp [BitVec.toNat_add]
  omega

theorem daaHigh_carry (hi : BitVec 4) (ac1 c : Bool) :
    (daaHigh hi ac1 c).2 = decide (9 < hi.toNat + ac1.toNat ∨ c = true) := by
  unfold daaHigh
  dsimp only
  rw [daaHigh_sum_toNat]
  split
  next h => exact (decide_eq_true h).symm
  next h => rw [decide_eq_false h, Bool.eq_false_of_not_eq_true fun hc => h (.inr hc)]

theorem daaHigh_toNat (hi : BitVec 4) (ac1 c : Bool) : (daaHigh hi ac1 c).1.toNat =
    if 9 < hi.toNat + ac1.toNat ∨ c = true then (hi.toNat + ac1.toNat + 6) % 16
    else hi.toNat + ac1.toNat := by
  unfold daaHigh
  dsimp only
  rw [daaHigh_sum_toNat]
  split
  next h =>
    rw [BitVec.extractLsb'_toNat, BitVec.toNat_add, daaHigh_sum_toNat, BitVec.toNat_ofNat,
      Nat.shiftRight_zero]
    omega
  next h =>
    rw [BitVec.extractLsb'_toNat, daaHigh_sum_toNat, Nat.shiftRight_zero]
    omega

theorem lowNibble_toNat (v : Byte) : (v.extractLsb' 0 4).toNat = v.toNat % 16 := by
  rw [BitVec.extractLsb'_toNat, Nat.shiftRight_zero]

/-- The adjusted byte is made of the two adjusted nibbles. -/
theorem daaResult_eq {acc : Byte} {ac c : Bool} {low high : BitVec 4 × Bool}
    (hlow : daaLow (acc.extractLsb' 0 4) ac = low)
    (hhigh : daaHigh (acc.extractLsb' 4 4) low.2 c = high) :
    daaResult acc ac c = (BitVec.ofNat 8 (high.1.toNat * 16 + low.1.toNat), high.2) := by
  have hl := low.1.isLt
  have hh := high.1.isLt
  subst hlow hhigh
  refine Prod.ext (BitVec.eq_of_toNat_eq ?_) rfl
  rw [BitVec.toNat_ofNat, Nat.mod_eq_of_lt (by omega)]
  exact toNat_append_eq_add _ _

/-- Settles O18: the two nibbles of the model's adjust are those of the statement. -/
theorem decimalAdjust : Obligations.DecimalAdjust := by
  intro m s lo hi ac1 rlo carry rhi hstatus
  have hlo : (daaLow (s.acc.extractLsb' 0 4) s.fAC).1.toNat = rlo := by
    rw [daaLow_toNat, lowNibble_toNat]
  have hac1 : (daaLow (s.acc.extractLsb' 0 4) s.fAC).2 = ac1 := by
    rw [daaLow_carry, lowNibble_toNat]
  have hcarry : (daaHigh (s.acc.extractLsb' 4 4) ac1 s.fC).2 = carry := by
    rw [daaHigh_carry, toNat_highNibble]
  have hhi : (daaHigh (s.acc.extractLsb' 4 4) ac1 s.fC).1.toNat = rhi := by
    rw [daaHigh_toNat, toNat_highNibble]
    simp only [rhi, carry, decide_eq_true_eq]
    rfl
  have hresult : daaResult s.acc s.fAC s.fC = (BitVec.ofNat 8 (rhi * 16 + rlo), carry) := by
    rw [daaResult_eq rfl rfl, hac1, hcarry, hhi, hlo]
  refine storeForm_of (decodeOfEncode (.daa m) rfl) (r := .notStatus) ?_ (fun l hl => ?_) rfl rfl
  · rw [exec_daa, execDaa, hresult]
    rfl
  · exact DestRule.notStatus_allows fun h => hstatus (Option.some.inj h ▸ hl)

/-! ### Adding packed decimal bytes (R200, R203, R211) -/

/-- The low nibble of a sum of two decimal digits is adjusted to the digit of the sum; AC and the
internal carry together are the decimal carry. The open case of log 14 is not met. -/
theorem daaLow_digits {p q : Nat} (hp : p ≤ 9) (hq : q ≤ 9) {n : BitVec 4}
    (hn : n.toNat = (p + q) % 16) :
    (daaLow n (decide (16 ≤ p + q))).1.toNat = (p + q) % 10 ∧
    (p + q) / 16 + (daaLow n (decide (16 ≤ p + q))).2.toNat = (p + q) / 10 := by
  rw [daaLow_toNat, daaLow_carry, hn]
  by_cases hac : 16 ≤ p + q
  · have hlow : ¬ 9 < (p + q) % 16 := by omega
    simp [hac, hlow]
    omega
  · by_cases hten : 10 ≤ p + q
    · have hlow : 9 < (p + q) % 16 := by omega
      simp [hac, hlow]
      omega
    · have hlow : ¬ 9 < (p + q) % 16 := by omega
      simp [hac, hlow]
      omega

/-- The high nibble of a sum of two decimal digits and a carry `d`, which came into the nibble (`k`) or
is the internal carry, is adjusted to the digit of the sum, and C becomes the decimal carry. -/
theorem daaHigh_digits {p q k d : Nat} {ac1 : Bool} (hp : p ≤ 9) (hq : q ≤ 9) (hd : d ≤ 1)
    (hk : k + ac1.toNat = d) {n : BitVec 4} (hn : n.toNat = (p + q + k) % 16) :
    (daaHigh n ac1 (decide (16 ≤ p + q + k))).1.toNat = (p + q + d) % 10 ∧
    (daaHigh n ac1 (decide (16 ≤ p + q + k))).2 = decide (10 ≤ p + q + d) := by
  simp only [daaHigh_toNat, daaHigh_carry, hn, decide_eq_true_eq, decide_eq_decide]
  refine ⟨?_, by omega⟩
  split <;> omega

/-- The number two packed decimal digits stand for. -/
def packedValue (b : Byte) : Nat := b.toNat / 16 * 10 + b.toNat % 16

theorem packedValue_digits (p q : Nat) :
    packedValue (BitVec.ofNat 8 (p % 10 * 16 + q % 10)) = p % 10 * 10 + q % 10 ∧
    (BitVec.ofNat 8 (p % 10 * 16 + q % 10)).toNat % 16 = q % 10 := by
  rw [packedValue, BitVec.toNat_ofNat, Nat.mod_eq_of_lt (by omega)]
  omega

/-- The adjust of the binary sum of two packed decimal bytes, with the adder's AC and C. -/
theorem daaResult_decimalSum {a x : Byte} (ha0 : a.toNat % 16 ≤ 9) (ha1 : a.toNat / 16 ≤ 9)
    (hx0 : x.toNat % 16 ≤ 9) (hx1 : x.toNat / 16 ≤ 9) {r : Byte × Bool}
    (hr : daaResult (BitVec.ofNat 8 (a.toNat + x.toNat))
      (decide (16 ≤ a.toNat % 16 + x.toNat % 16)) (decide (256 ≤ a.toNat + x.toNat)) = r) :
    packedValue r.1 = (packedValue a + packedValue x) % 100 ∧ r.1.toNat % 16 ≤ 9 ∧
      r.2 = decide (100 ≤ packedValue a + packedValue x) := by
  have hlowSum : ((BitVec.ofNat 8 (a.toNat + x.toNat)).extractLsb' 0 4).toNat =
      (a.toNat % 16 + x.toNat % 16) % 16 := by
    rw [lowNibble_toNat, BitVec.toNat_ofNat]
    omega
  have hhighSum : ((BitVec.ofNat 8 (a.toNat + x.toNat)).extractLsb' 4 4).toNat =
      (a.toNat / 16 + x.toNat / 16 + (a.toNat % 16 + x.toNat % 16) / 16) % 16 := by
    rw [toNat_highNibble, BitVec.toNat_ofNat]
    omega
  have hC : decide (256 ≤ a.toNat + x.toNat) =
      decide (16 ≤ a.toNat / 16 + x.toNat / 16 + (a.toNat % 16 + x.toNat % 16) / 16) := by
    rw [decide_eq_decide]
    omega
  obtain ⟨hlow, hcarry⟩ := daaLow_digits ha0 hx0 hlowSum
  obtain ⟨hhigh, hhundred⟩ := daaHigh_digits ha1 hx1 (by omega) hcarry hhighSum
  rw [← hr, hC, daaResult_eq rfl rfl, hlow, hhigh, hhundred, (packedValue_digits _ _).1,
    (packedValue_digits _ _).2, decide_eq_decide]
  unfold packedValue
  omega

/-- DAA with ACC as its destination. -/
theorem exec_daa_acc (s : State) : exec (.daa 0x05#8) s = .next { s with
    acc := (daaResult s.acc s.fAC s.fC).1, fC := (daaResult s.acc s.fAC s.fC).2
    cycles := s.cycles + 1 } := by
  have hacc : s.resolve 0x05#8 = .ok .acc := rfl
  rw [exec_daa, execDaa, State.storeOp_ok 1 _ hacc rfl ⟨nofun, nofun, nofun⟩]
  rfl

/-- Settles O19: ADD leaves the binary sum with its AC and C, and DAA adjusts it digit by digit. -/
theorem decimalAdjustAddsDecimals : Obligations.DecimalAdjustAddsDecimals := by
  intro s t x ha0 ha1 hx0 hx1 hadd value
  rw [exec_addAx_sum] at hadd
  cases hadd
  exact ⟨_, exec_daa_acc _, daaResult_decimalSum ha0 ha1 hx0 hx1 rfl⟩

end Sys2Proof.Machine
end

section
/-! Proofs about the logic instructions with an operand in memory (41_logic.md R221 to R226, R230
and R231). -/

namespace Sys2Proof.Machine

theorem Byte.not_eq_ofNat (v : Byte) : ~~~v = BitVec.ofNat 8 (255 - v.toNat) := by
  rw [← Byte.toNat_not, BitVec.ofNat_toNat, BitVec.setWidth_eq]

theorem State.withZ_eq (s : State) (r : Byte) :
    s.withZ r = { s with fZ := decide (r.toNat = 0) } := by
  rw [State.withZ, Byte.beq_zero]

theorem State.afterRead.acc {s t : State} (h : s.afterRead t) : t.acc = s.acc := by
  obtain ⟨-, hacc, -⟩ := h.kept
  exact hacc

/-! ### The two shapes, for a result `r v` that the read does not change (R220) -/

section
variable {code : RomWord} {i : Instr} {m : Byte} {s : State} {f : Byte → State → Byte}
  {r : Byte → Byte} (hd : decode code = .ok i) (hf : ∀ v t, s.afterRead t → f v t = r v)
include hd hf

theorem readForm_resultToAcc
    (he : exec i s = s.loadOp m fun v t => t.resultToAcc (f v t)) :
    readForm code i m s fun v t =>
      { t with acc := r v, fZ := decide ((r v).toNat = 0), cycles := s.cycles + 1 } := by
  refine readForm_of hd he fun v t ht => ?_
  obtain ⟨hcycles, -⟩ := ht.kept
  rw [hf v t ht, State.resultToAcc, State.withZ_eq, ← hcycles]
  rfl

theorem modifyForm_resultToMem (he : exec i s = s.resultToMem i m f) :
    modifyForm code i m s (some .status) (fun v _ => r v)
      (fun v t => { t with fZ := decide ((r v).toNat = 0) }) (fun _ t => t) := by
  refine modifyForm_of hd he (fun _ => DestRule.notStatus_allows) hf (fun v t ht => ?_)
    (fun _ _ => rfl) (fun _ _ => rfl) (fun _ _ _ => rfl) fun _ _ => rfl
  rw [hf v t ht, State.withZ_eq]

end

/-! ### The instructions -/

/-- Settles O21: AND, OR and XOR combine the byte read with ACC, which the read keeps; CPLA takes
the byte alone. -/
theorem logicToAccumulator : Obligations.LogicToAccumulator := fun m _ =>
  ⟨readForm_resultToAcc (decodeOfEncode (.andAm m) rfl)
      (fun v _ ht => congrArg (· &&& v) ht.acc) rfl,
    readForm_resultToAcc (decodeOfEncode (.orAm m) rfl)
      (fun v _ ht => congrArg (· ||| v) ht.acc) rfl,
    readForm_resultToAcc (decodeOfEncode (.xorAm m) rfl)
      (fun v _ ht => congrArg (· ^^^ v) ht.acc) rfl,
    readForm_resultToAcc (decodeOfEncode (.cpla m) rfl) (fun v _ _ => Byte.not_eq_ofNat v) rfl⟩

/-- Settles O22: as O21, the result written back. -/
theorem logicToMemory : Obligations.LogicToMemory := fun m _ =>
  ⟨modifyForm_resultToMem (decodeOfEncode (.andmAm m) rfl)
      (fun v _ ht => congrArg (· &&& v) ht.acc) rfl,
    modifyForm_resultToMem (decodeOfEncode (.ormAm m) rfl)
      (fun v _ ht => congrArg (· ||| v) ht.acc) rfl,
    modifyForm_resultToMem (decodeOfEncode (.xormAm m) rfl)
      (fun v _ ht => congrArg (· ^^^ v) ht.acc) rfl,
    modifyForm_resultToMem (decodeOfEncode (.cpl m) rfl) (fun v _ _ => Byte.not_eq_ofNat v) rfl⟩

end Sys2Proof.Machine
end

section
/-! Proofs about the increment and decrement instructions (42_incdec.md R241 to R244). -/

namespace Sys2Proof.Machine

/-! ### The byte plus or minus 1 in whole numbers (42_incdec.md R240) -/

theorem Byte.add_one_eq_ofNat (v : Byte) : v + 1#8 = BitVec.ofNat 8 (v.toNat + 1) := by
  rw [BitVec.ofNat_add, BitVec.ofNat_toNat, BitVec.setWidth_eq]

/-- Minus 1 is plus 255 modulo 256. -/
theorem Byte.sub_one_eq_ofNat (v : Byte) : v - 1#8 = BitVec.ofNat 8 (v.toNat + 255) := by
  rw [BitVec.ofNat_add, BitVec.ofNat_toNat, BitVec.setWidth_eq, BitVec.sub_eq_add_neg]
  rfl

/-! ### The two shapes, for a whole number `n v` that the byte read determines -/

section
variable {code : RomWord} {i : Instr} {m : Byte} {s : State} {f : Byte → Byte} {n : Byte → Nat}
  (hd : decode code = .ok i) (hf : ∀ v, f v = BitVec.ofNat 8 (n v))
include hd hf

theorem readForm_numberToAcc (he : exec i s = s.loadOp m fun v t => t.resultToAcc (f v)) :
    readForm code i m s fun v t => { t with
      acc := BitVec.ofNat 8 (n v), fZ := decide (n v % 256 = 0), cycles := s.cycles + 1 } := by
  have h := readForm_resultToAcc hd (fun v _ _ => hf v) he
  simpa only [BitVec.toNat_ofNat] using h

theorem modifyForm_numberToMem (he : exec i s = s.resultToMem i m fun v _ => f v) :
    modifyForm code i m s (some .status) (fun v _ => BitVec.ofNat 8 (n v))
      (fun v t => { t with fZ := decide (n v % 256 = 0) }) (fun _ t => t) := by
  have h := modifyForm_resultToMem hd (fun v _ _ => hf v) he
  simpa only [BitVec.toNat_ofNat] using h

end

/-! ### The instructions -/

/-- Settles O23: each of the four has one of the two shapes, with the byte read plus 1 or 255. -/
theorem incrementDecrement : Obligations.IncrementDecrement := fun m _ =>
  ⟨readForm_numberToAcc (decodeOfEncode (.inca m) rfl) Byte.add_one_eq_ofNat rfl,
    readForm_numberToAcc (decodeOfEncode (.deca m) rfl) Byte.sub_one_eq_ofNat rfl,
    modifyForm_numberToMem (decodeOfEncode (.inc m) rfl) Byte.add_one_eq_ofNat rfl,
    modifyForm_numberToMem (decodeOfEncode (.dec m) rfl) Byte.sub_one_eq_ofNat rfl⟩

end Sys2Proof.Machine
end

section
/-! Proofs about the rotate instructions (43_rotate.md R251 to R258). -/

namespace Sys2Proof.Machine

/-! ### The rotated byte and the bit moved out, in whole numbers (43_rotate.md R250) -/

theorem Byte.bit0_eq_decide (v : Byte) : v.getLsbD 0 = decide (v.toNat % 2 = 1) :=
  Nat.testBit_zero v.toNat

theorem Byte.bit7_eq_decide (v : Byte) : v.getLsbD 7 = decide (v.toNat / 128 = 1) := by
  have hv := v.isLt
  refine (testBit_top (k := 7) hv).trans (decide_eq_decide.mpr ?_)
  omega

theorem Byte.bit0_toNat (v : Byte) : (v.getLsbD 0).toNat = v.toNat % 2 :=
  (Nat.toNat_testBit v.toNat 0).trans (by rw [pow_zero, Nat.div_one])

theorem Byte.bit7_toNat (v : Byte) : (v.getLsbD 7).toNat = v.toNat / 128 := by
  have hv := v.isLt
  refine (Nat.toNat_testBit v.toNat 7).trans (Nat.mod_eq_of_lt ?_)
  omega

/-- The byte moves down by one place and C comes in at the top. -/
theorem rotRightC_eq_ofNat (v : Byte) (c : Bool) :
    rotRightC v c = BitVec.ofNat 8 (v.toNat / 2 + 128 * c.toNat) := by
  have hv := v.isLt
  have hc := c.toNat_lt
  apply BitVec.eq_of_toNat_eq
  rw [rotRightC, toNat_append_eq_add, BitVec.extractLsb'_toNat, BitVec.toNat_ofBool,
    Nat.shiftRight_one, BitVec.toNat_ofNat]
  omega

/-- The byte moves up by one place and C comes in at the bottom. -/
theorem rotLeftC_eq_ofNat (v : Byte) (c : Bool) :
    rotLeftC v c = BitVec.ofNat 8 (2 * v.toNat + c.toNat) := by
  have hc := c.toNat_lt
  apply BitVec.eq_of_toNat_eq
  rw [rotLeftC, toNat_append_eq_add, BitVec.extractLsb'_toNat, BitVec.toNat_ofBool,
    Nat.shiftRight_zero, BitVec.toNat_ofNat]
  omega

/-- The plain right rotate is the one through a carry that holds bit 0. -/
theorem rotRight_eq_ofNat (v : Byte) :
    rotRight v = BitVec.ofNat 8 (v.toNat / 2 + 128 * (v.toNat % 2)) := by
  rw [← Byte.bit0_toNat]
  exact rotRightC_eq_ofNat v (v.getLsbD 0)

/-- The plain left rotate is the one through a carry that holds bit 7. -/
theorem rotLeft_eq_ofNat (v : Byte) :
    rotLeft v = BitVec.ofNat 8 (2 * v.toNat + v.toNat / 128) := by
  rw [← Byte.bit7_toNat]
  exact rotLeftC_eq_ofNat v (v.getLsbD 7)

/-! ### The two shapes of a plain rotate, for a rotated byte `r v` -/

section
variable {code : RomWord} {i : Instr} {m : Byte} {s : State} {f r : Byte → Byte}
  (hd : decode code = .ok i) (hf : ∀ v, f v = r v)
include hd hf

theorem readForm_byteToAcc (he : exec i s = s.loadOp m fun v t => { t with acc := f v }) :
    readForm code i m s fun v t => { t with acc := r v, cycles := s.cycles + 1 } := by
  refine readForm_of hd he fun v t ht => ?_
  obtain ⟨hcycles, -⟩ := ht.kept
  rw [hf v, ← hcycles]
  rfl

theorem modifyForm_byteToMem
    (he : exec i s = s.modifyOp .any i m (fun v _ => f v) (fun _ t => t) (fun _ t => t)) :
    modifyForm code i m s none (fun v _ => r v) (fun _ t => t) (fun _ t => t) :=
  modifyForm_of hd he (fun _ _ => rfl) (fun v _ _ => hf v) (fun _ _ _ => rfl) (fun _ _ => rfl)
    (fun _ _ => rfl) (fun _ _ _ => rfl) fun _ _ => rfl

end

/-! ### The two shapes of a rotate through carry: the C rotated in is the one before the read, which
makes the rotated byte `r v`; the bit `out v` moved out becomes C -/

section
variable {code : RomWord} {i : Instr} {m : Byte} {s : State} {f : Byte → Bool → Byte}
  {r : Byte → Byte} {bit out : Byte → Bool} (hd : decode code = .ok i)
  (hf : ∀ v, f v s.fC = r v) (hbit : ∀ v, bit v = out v)
include hd hf hbit

theorem readForm_throughCarry
    (he : exec i s = s.loadOp m fun v t => { t.withC (bit v) with acc := f v t.fC }) :
    readForm code i m s fun v t =>
      { t with acc := r v, fC := out v, cycles := s.cycles + 1 } := by
  refine readForm_of hd he fun v t ht => ?_
  obtain ⟨hcycles, -⟩ := ht.kept
  rw [ht.fC, hf v, hbit v, ← hcycles]
  rfl

theorem modifyForm_throughCarry
    (he : exec i s = s.modifyOp .notStatus i m (fun v t => f v t.fC)
      (fun v t => t.withC (bit v)) (fun _ t => t)) :
    modifyForm code i m s (some .status) (fun v _ => r v)
      (fun v t => { t with fC := out v }) (fun _ t => t) := by
  refine modifyForm_of hd he (fun _ => DestRule.notStatus_allows) (fun v t ht => ?_)
    (fun v t _ => ?_) (fun _ _ => rfl) (fun _ _ => rfl) (fun _ _ _ => rfl) fun _ _ => rfl
  · rw [ht.fC, hf v]
  · rw [hbit v, State.withC]

end

/-! ### The instructions -/

/-- Settles O24: the plain rotates bring in the bit they move out, those through carry bring in C,
which the read keeps. -/
theorem rotateToAccumulator : Obligations.RotateToAccumulator := fun m _ =>
  ⟨readForm_byteToAcc (decodeOfEncode (.rra m) rfl) rotRight_eq_ofNat rfl,
    readForm_throughCarry (decodeOfEncode (.rrca m) rfl) (rotRightC_eq_ofNat · _)
      Byte.bit0_eq_decide rfl,
    readForm_byteToAcc (decodeOfEncode (.rla m) rfl) rotLeft_eq_ofNat rfl,
    readForm_throughCarry (decodeOfEncode (.rlca m) rfl) (rotLeftC_eq_ofNat · _)
      Byte.bit7_eq_decide rfl⟩

/-- Settles O25: as O24, the rotated byte written back. -/
theorem rotateInMemory : Obligations.RotateInMemory := fun m _ =>
  ⟨modifyForm_byteToMem (decodeOfEncode (.rr m) rfl) rotRight_eq_ofNat rfl,
    modifyForm_throughCarry (decodeOfEncode (.rrc m) rfl) (rotRightC_eq_ofNat · _)
      Byte.bit0_eq_decide rfl,
    modifyForm_byteToMem (decodeOfEncode (.rl m) rfl) rotLeft_eq_ofNat rfl,
    modifyForm_throughCarry (decodeOfEncode (.rlc m) rfl) (rotLeftC_eq_ofNat · _)
      Byte.bit7_eq_decide rfl⟩

end Sys2Proof.Machine
end

section
/-! Proofs about the loads and stores (44_datamove.md R260 to R262; 48_misc.md R301, R302). -/

namespace Sys2Proof.Machine

/-- A plain store, for a byte `w` that the state before it determines: every destination is allowed,
and nothing is changed besides the location. -/
theorem storeForm_byte {code : RomWord} {i : Instr} {m w : Byte} {s : State}
    (hd : decode code = .ok i) (he : exec i s = s.storeOp .any i 1 m w fun t => t) :
    storeForm code i m s 1 w fun t => t :=
  storeForm_of hd he (fun _ _ => rfl) rfl rfl

/-- An immediate byte goes to ACC in one cycle, and no flag is written (44_datamove.md R262). -/
theorem exec_movAx_next (x : Byte) (s : State) :
    exec (.movAx x) s = .next { s with acc := x, cycles := s.cycles + 1 } := by
  rw [exec_movAx, execMovAx]
  rfl

/-- Settles O27: the load puts the byte read in ACC as it is, and the three stores differ in the byte
alone: ACC as it was, 00H and FFH. -/
theorem loadsAndStores : Obligations.LoadsAndStores := fun m x s =>
  ⟨readForm_byteToAcc (decodeOfEncode (.movAm m) rfl) (fun _ => rfl) (exec_movAm m s),
    decodeOfEncode (.movAx x) rfl,
    exec_movAx_next x s,
    storeForm_byte (decodeOfEncode (.movMa m) rfl) (exec_movMa m s),
    storeForm_byte (decodeOfEncode (.clr m) rfl) (exec_clr m s),
    storeForm_byte (decodeOfEncode (.set m) rfl) (exec_set m s)⟩

end Sys2Proof.Machine
end

section
/-! Proofs about the bit operations (45_bit.md R264 to R266). -/

namespace Sys2Proof.Machine

/-! ### The word of a bit instruction as a number (30_encoding.md R142) -/

theorem ofNat_eq_bitWord (op2 : BitVec 2) {i : Nat} (hi : i < 8) (m : Byte) :
    BitVec.ofNat 16 (0x8000 + op2.toNat * 0x800 + i * 0x100 + m.toNat) = bitWord op2 i m := by
  apply BitVec.eq_of_toNat_eq
  rw [bitWord_toNat, BitVec.toNat_ofNat]
  omega

/-! ### The byte with one bit cleared or set, bit by bit (45_bit.md R264) -/

theorem getLsbD_bitMask {i : Nat} (hi : i < 8) (k : Nat) : (bitMask i).getLsbD k = (k == i) := by
  rw [bitMask, ← BitVec.twoPow_eq, BitVec.getLsbD_twoPow, decide_eq_true hi, Bool.true_and,
    beq_eq_decide]
  exact decide_eq_decide.mpr eq_comm

theorem getLsbD_clearBit {i : Nat} (hi : i < 8) (v : Byte) (k : Nat) :
    (v &&& ~~~bitMask i).getLsbD k = (v.getLsbD k && k != i) := by
  rw [BitVec.getLsbD_and, BitVec.getLsbD_not, getLsbD_bitMask hi]
  by_cases hk : k < 8
  · rw [decide_eq_true hk, Bool.true_and, bne]
  · rw [BitVec.getLsbD_of_ge v k (Nat.le_of_not_lt hk), Bool.false_and, Bool.false_and]

theorem getLsbD_setBit {i : Nat} (hi : i < 8) (v : Byte) (k : Nat) :
    (v ||| bitMask i).getLsbD k = (v.getLsbD k || k == i) := by
  rw [BitVec.getLsbD_or, getLsbD_bitMask hi]

/-! ### The instructions -/

/-- Settles O28: the byte read, masked, goes back to the location it came from. Any destination is
allowed, and no flag is written. -/
theorem bitOperations : Obligations.BitOperations := by
  intro m i s hi
  have hclr : decode (BitVec.ofNat 16 (0x8800 + i * 256 + m.toNat)) = .ok (.clrBit m i) :=
    (congrArg decode (ofNat_eq_bitWord 0b01#2 hi m)).trans
      (decodeOfEncode (.clrBit m i) (decide_eq_true hi))
  have hset : decode (BitVec.ofNat 16 (0x8000 + i * 256 + m.toNat)) = .ok (.setBit m i) :=
    (congrArg decode (ofNat_eq_bitWord 0b00#2 hi m)).trans
      (decodeOfEncode (.setBit m i) (decide_eq_true hi))
  exact ⟨fun v => v &&& ~~~bitMask i, fun v => v ||| bitMask i,
    fun v => ⟨getLsbD_clearBit hi v, fun k _ => getLsbD_setBit hi v k⟩,
    modifyForm_byteToMem hclr (fun _ => rfl) (exec_clrBit m i s),
    modifyForm_byteToMem hset (fun _ => rfl) (exec_setBit m i s)⟩

end Sys2Proof.Machine
end

section
/-! Proofs about the branch instructions (46_branch.md R270 to R283). -/

namespace Sys2Proof.Machine

/-! ### The skip, its condition and its refused destination (R270) -/

/-- The skip and the count of the instruction's own cycles may come in either order. -/
theorem State.skipIf_retire (s : State) (b : Bool) (n : Nat) :
    (s.skipIf b).retire n = if b then (s.retire n).passOver else s.retire n := by
  cases b
  case false => rfl
  case true =>
    have hcycles : s.cycles + 1 + n = s.cycles + n + 1 := Nat.add_right_comm ..
    exact congrArg (fun k => { s with pc := s.pc + 1#13, cycles := k }) hcycles

theorem Byte.eq_ofNat (v : Byte) : v = BitVec.ofNat 8 v.toNat := by
  rw [BitVec.ofNat_toNat, BitVec.setWidth_eq]

theorem Byte.ofNat_beq_zero (n : Nat) : (BitVec.ofNat 8 n == 0#8) = decide (n % 256 = 0) := by
  rw [Byte.beq_zero, BitVec.toNat_ofNat]

/-- The destination SIZ and SDZ are refused is PCL alone (R276, R277). -/
theorem DestRule.notPcl_allows {l : Loc} (h : some l ≠ some .pcl) :
    DestRule.notPcl.allows l = true := bne_iff_ne.mpr fun hl => h (congrArg some hl)

/-! ### The shapes of the skips -/

section
variable {code : RomWord} {i : Instr} {m : Byte} {s : State} (hd : decode code = .ok i)
include hd

/-- A skip on the byte read, after the instruction's own change `own` of the state. -/
theorem readForm_skip {own : Byte → State → State} {test cond : Byte → Bool}
    (hown : ∀ v t, (own v t).cycles = t.cycles) (htest : ∀ v, test v = cond v)
    (he : exec i s = s.loadOp m fun v t => (own v t).skipIf (test v)) :
    readForm code i m s fun v t =>
      let u := { own v t with cycles := s.cycles + 1 }
      if cond v then u.passOver else u := by
  refine readForm_of hd he fun v t ht => ?_
  obtain ⟨hcycles, -⟩ := ht.kept
  rw [State.skipIf_retire, htest, State.retire, hown, hcycles]

variable {f : Byte → Byte} {n : Byte → Nat} (hf : ∀ v, f v = BitVec.ofNat 8 (n v))
include hf

/-- The number `n v` goes to ACC, and its byte decides the skip. -/
theorem readForm_numberToAccAndSkip
    (he : exec i s = s.loadOp m fun v t => { t with acc := f v }.skipIf (f v == 0#8)) :
    readForm code i m s fun v t =>
      let u := { t with acc := BitVec.ofNat 8 (n v), cycles := s.cycles + 1 }
      if n v % 256 = 0 then u.passOver else u := by
  have h := readForm_skip (own := fun v t => { t with acc := f v }) hd (fun _ _ => rfl)
    (fun v => (congrArg (· == 0#8) (hf v)).trans (Byte.ofNat_beq_zero (n v))) he
  simpa only [hf, decide_eq_true_eq] using h

/-- The number `n v` goes back to memory, and its byte, not what the location keeps of it, decides
the skip. -/
theorem modifyForm_numberToMemAndSkip
    (he : exec i s = s.modifyOp .notPcl i m (fun v _ => f v) (fun _ t => t)
      (fun r t => t.skipIf (r == 0#8))) :
    modifyForm code i m s (some .pcl) (fun v _ => BitVec.ofNat 8 (n v)) (fun _ t => t)
      (fun r t => if r.toNat = 0 then t.passOver else t) := by
  refine modifyForm_of hd he (fun _ => DestRule.notPcl_allows) (fun v _ _ => hf v)
    (fun _ _ _ => rfl) (fun _ _ => rfl) (fun _ _ => rfl) (fun r t k => ?_) fun r t => ?_
  · rw [State.skipIf_retire, Byte.beq_zero]
    simp only [decide_eq_true_eq]
  · split <;> rfl

end

/-! ### The skips (R272 to R279) -/

/-- Settles O29: the three differ in the test of the byte read alone; the words with a bit number
are those of format B. -/
theorem testAndSkip : Obligations.TestAndSkip := by
  intro m i s hi
  have hsz : decode (BitVec.ofNat 16 (0x9000 + i * 256 + m.toNat)) = .ok (.szBit m i) :=
    (congrArg decode (ofNat_eq_bitWord 0b10#2 hi m)).trans
      (decodeOfEncode (.szBit m i) (decide_eq_true hi))
  have hsnz : decode (BitVec.ofNat 16 (0x9800 + i * 256 + m.toNat)) = .ok (.snzBit m i) :=
    (congrArg decode (ofNat_eq_bitWord 0b11#2 hi m)).trans
      (decodeOfEncode (.snzBit m i) (decide_eq_true hi))
  exact ⟨readForm_skip (own := fun _ t => t) (decodeOfEncode (.sz m) rfl) (fun _ _ => rfl)
      Byte.beq_zero (exec_sz m s),
    readForm_skip (own := fun _ t => t) hsz (fun _ _ => rfl) (fun _ => rfl) (exec_szBit m i s),
    readForm_skip (own := fun _ t => t) hsnz (fun _ _ => rfl) (fun _ => rfl) (exec_snzBit m i s)⟩

/-- Settles O30: one shape, with the byte read as it is, plus 1, or plus 255. -/
theorem loadAndSkip : Obligations.LoadAndSkip := fun m s =>
  ⟨readForm_numberToAccAndSkip (f := fun v => v) (decodeOfEncode (.sza m) rfl) Byte.eq_ofNat
      (exec_sza m s),
    readForm_numberToAccAndSkip (decodeOfEncode (.siza m) rfl) Byte.add_one_eq_ofNat
      (exec_siza m s),
    readForm_numberToAccAndSkip (decodeOfEncode (.sdza m) rfl) Byte.sub_one_eq_ofNat
      (exec_sdza m s)⟩

/-- Settles O31: as O30, the byte written back. -/
theorem countAndSkip : Obligations.CountAndSkip := fun m s =>
  ⟨modifyForm_numberToMemAndSkip (decodeOfEncode (.siz m) rfl) Byte.add_one_eq_ofNat
      (exec_siz m s),
    modifyForm_numberToMemAndSkip (decodeOfEncode (.sdz m) rfl) Byte.sub_one_eq_ofNat
      (exec_sdz m s)⟩

/-! ### Jumps, calls and returns (R271, R280 to R283) -/

/-- A CALL stacks the address after itself as `Push` does and goes to its target (R280). -/
theorem exec_call_push (a : PAddr) (s : State) : exec (.call a) s = .next
    { s with pc := a, stack := (s.push s.pc).stack, cycles := s.cycles + 2 } := by
  rw [exec_call, execCall, State.push_eq]
  rfl

theorem State.push_stack_of_room {s : State} (h : s.stack.length < 8) (v : PAddr) :
    (s.push v).stack = s.stack ++ [v] := by
  obtain ⟨-, hpush⟩ | ⟨hfull, -⟩ := s.push_cases v
  · rw [hpush]
  · exact absurd h (Nat.not_lt.mpr hfull)

theorem State.push_stack_of_full {s : State} (h : s.stack.length = 8) (v : PAddr) :
    (s.push v).stack = s.stack.tail ++ [v] := by
  obtain ⟨hroom, -⟩ | ⟨-, hpush⟩ := s.push_cases v
  · exact absurd h hroom.ne
  · rw [hpush]

/-- Settles O32: `Push` has the two cases of the statement (decision D5). -/
theorem jumpAndCall : Obligations.JumpAndCall := by
  intro a s
  refine ⟨decodeOfEncode (.jmp a) rfl, decodeOfEncode (.call a) rfl, exec_jmp a s,
    fun hroom => ?_, fun hfull => ⟨?_, ?_⟩⟩
  · rw [exec_call_push, State.push_stack_of_room hroom]
  · rw [exec_call_push, State.push_stack_of_full hfull]
  · rw [List.length_append, List.length_tail, hfull, List.length_singleton]

theorem State.returnFromStack_newest {s : State} {older : List PAddr} {a : PAddr}
    (h : s.stack = older ++ [a]) :
    s.returnFromStack = .ok { s with pc := a, stack := older } := by
  simp only [State.returnFromStack, State.pop, h, List.getLast?_concat, List.dropLast_concat]

theorem State.returnFromStack_empty {s : State} (h : s.stack = []) :
    s.returnFromStack = .error (.stackUnderflow s.here) := by
  simp only [State.returnFromStack, State.pop, h, List.getLast?_nil]

/-- Settles O33: the three share `pc <- Pop()`, which takes the newest address or is the fault
(decision D5). -/
theorem returns : Obligations.Returns := by
  intro x s
  refine ⟨decodeOfEncode .ret rfl, decodeOfEncode (.retAx x) rfl, decodeOfEncode .reti rfl,
    fun older a hs => ?_, fun hs => ?_⟩
  all_goals
    rw [exec_ret, execRet, exec_retAx, execRetAx, exec_reti, execReti, State.returnFromInterrupt_eq]
  · rw [State.returnFromStack_newest hs]
    exact ⟨rfl, rfl, rfl⟩
  · rw [State.returnFromStack_empty hs]
    exact ⟨rfl, rfl, rfl⟩

end Sys2Proof.Machine
end

section
/-! Proofs about the table reads (47_tableread.md R290 to R292). -/

namespace Sys2Proof.Machine

theorem append_eq_ofNat {v w : Nat} (x : BitVec v) (y : BitVec w) :
    x ++ y = BitVec.ofNat (v + w) (x.toNat * 2 ^ w + y.toNat) := by
  rw [← toNat_append_eq_add, BitVec.ofNat_toNat, BitVec.setWidth_eq]

/-- The bytes of a table word as numbers: the low one goes to `[m]`, the high one to TBLH before it
(47_tableread.md R290). -/
theorem State.tableRead_eq_storeOp (s : State) (i : Instr) (m : Byte) (a : PAddr) :
    s.tableRead i m a = s.storeOp .any i 2 m (BitVec.ofNat 8 (s.romRead a).toNat)
      fun t => { t with tblh := BitVec.ofNat 8 ((s.romRead a).toNat / 256) } := by
  have hlow : (s.romRead a).extractLsb' 0 8 = BitVec.ofNat 8 (s.romRead a).toNat := by
    rw [field_eq _ 0 1 rfl, Nat.div_one]
  rw [State.tableRead, hlow, field_eq _ 8 256 rfl]

/-- A table read at the address `a`, the number `n`: every destination is allowed, and TBLH alone is
changed besides it. -/
theorem storeForm_tableRead {code : RomWord} {i : Instr} {m : Byte} {s : State} {a : PAddr} {n : Nat}
    (hd : decode code = .ok i) (he : exec i s = s.tableRead i m a) (ha : a = BitVec.ofNat 13 n) :
    storeForm code i m s 2 (BitVec.ofNat 8 (s.romRead (BitVec.ofNat 13 n)).toNat)
      fun t => { t with tblh := BitVec.ofNat 8 ((s.romRead (BitVec.ofNat 13 n)).toNat / 256) } := by
  subst ha
  exact storeForm_of hd (he.trans (s.tableRead_eq_storeOp i m _)) (fun _ _ => rfl) rfl rfl

/-- Settles O35: the two differ in the page alone, which is TBHP for TABRDC and the last one, 1FH, for
TABRDL (47_tableread.md R291, R292). -/
theorem tableReads : Obligations.TableReads := fun m s =>
  ⟨storeForm_tableRead (decodeOfEncode (.tabrdc m) rfl) (exec_tabrdc m s)
      (append_eq_ofNat s.tbhp s.tblp),
    storeForm_tableRead (decodeOfEncode (.tabrdl m) rfl) (exec_tabrdl m s)
      (append_eq_ofNat 0b11111#5 s.tblp)⟩

end Sys2Proof.Machine
end

section
/-! Proofs about the miscellaneous instructions (48_misc.md R299 to R308). -/

namespace Sys2Proof.Machine

open Sys2Proof.Config

/-! ### The nibble swap in whole numbers (R306) -/

theorem swapNibbles_eq_ofNat (v : Byte) :
    swapNibbles v = BitVec.ofNat 8 (v.toNat % 16 * 16 + v.toNat / 16) := by
  rw [swapNibbles, append_eq_ofNat, lowNibble_toNat, toNat_highNibble]
  rfl

/-! ### NOP and HALT (R300, R308) -/

/-- Settles O36: what HALT samples is the level of the eight lines of port A. -/
theorem nopAndHalt : Obligations.NopAndHalt := fun s =>
  ⟨decodeOfEncode .nop rfl, decodeOfEncode .halt rfl, exec_nop s, s.padsANow, exec_halt s,
    fun _ hk => s.pa.levels_line s.opt.paPullHigh s.draw.1 hk⟩

/-! ### The watchdog clears (R299, R303 to R305) -/

theorem State.clearActive_iff (s : State) (times : ClrWdtTimes) :
    s.clearActive times = true ↔ s.opt.wdtEnable = true ∧ s.opt.clrWdtTimes = times := by
  rw [State.clearActive, Bool.and_eq_true, beq_iff_eq]

theorem State.clearActive_eq_false {s : State} {times : ClrWdtTimes}
    (h : s.opt.wdtEnable = false ∨ s.opt.clrWdtTimes ≠ times) : s.clearActive times = false := by
  rw [← Bool.not_eq_true, State.clearActive_iff]
  rintro ⟨hon, htimes⟩
  exact h.elim (by simp [hon]) fun hne => hne htimes

section
variable {s : State}

theorem exec_clrWdt_inactive (h : s.clearActive .one = false) :
    exec .clrWdt s = .next { s with cycles := s.cycles + 1 } := by
  rw [exec_clrWdt, execClrWdt, h]
  rfl

theorem exec_clrWdt1_inactive (h : s.clearActive .two = false) :
    exec .clrWdt1 s = .next { s with cycles := s.cycles + 1 } := by
  rw [exec_clrWdt1, execClrWdt1, h]
  rfl

theorem exec_clrWdt2_inactive (h : s.clearActive .two = false) :
    exec .clrWdt2 s = .next { s with cycles := s.cycles + 1 } := by
  rw [exec_clrWdt2, execClrWdt2, h]
  rfl

theorem exec_clrWdt_active (h : s.clearActive .one = true) :
    exec .clrWdt s = .next { s.clearWdt with cycles := s.cycles + 1 } := by
  rw [exec_clrWdt, execClrWdt, h]
  rfl

theorem exec_clrWdt1_active (h : s.clearActive .two = true) :
    exec .clrWdt1 s = .next { (if s.wdt2f then { s.clearWdt with wdt1f := false, wdt2f := false }
      else { s with wdt1f := true }) with cycles := s.cycles + 1 } := by
  rw [exec_clrWdt1, execClrWdt1, h]
  cases s.wdt2f <;> rfl

theorem exec_clrWdt2_active (h : s.clearActive .two = true) :
    exec .clrWdt2 s = .next { (if s.wdt1f then { s.clearWdt with wdt1f := false, wdt2f := false }
      else { s with wdt2f := true }) with cycles := s.cycles + 1 } := by
  rw [exec_clrWdt2, execClrWdt2, h]
  cases s.wdt1f <;> rfl

end

/-- Settles O37: under each mask option a form is active or it is not (decisions D17, D27). -/
theorem watchdogClears : Obligations.WatchdogClears := by
  intro s tick cleared pair
  refine ⟨decodeOfEncode .clrWdt rfl, decodeOfEncode .clrWdt1 rfl, decodeOfEncode .clrWdt2 rfl,
    fun hoff => ?_, fun hon hone => ?_, fun hon htwo => ?_⟩
  · have hidle (times : ClrWdtTimes) : s.clearActive times = false :=
      State.clearActive_eq_false (.inl hoff)
    exact ⟨exec_clrWdt_inactive (hidle _), exec_clrWdt1_inactive (hidle _),
      exec_clrWdt2_inactive (hidle _)⟩
  · have hidle : s.clearActive .two = false := State.clearActive_eq_false (.inr (by simp [hone]))
    exact ⟨exec_clrWdt_active ((s.clearActive_iff _).mpr ⟨hon, hone⟩), exec_clrWdt1_inactive hidle,
      exec_clrWdt2_inactive hidle⟩
  · have hidle : s.clearActive .one = false := State.clearActive_eq_false (.inr (by simp [htwo]))
    have hactive : s.clearActive .two = true := (s.clearActive_iff _).mpr ⟨hon, htwo⟩
    exact ⟨exec_clrWdt_inactive hidle, exec_clrWdt1_active hactive, exec_clrWdt2_active hactive⟩

end Sys2Proof.Machine

namespace Sys2Proof

open Sys2Proof.Machine

/-- Settles O26: both are the shape of a plain rotate, for the byte with its nibbles exchanged. -/
theorem swapNibbles : Obligations.SwapNibbles := fun m s =>
  ⟨modifyForm_byteToMem (decodeOfEncode (.swap m) rfl) swapNibbles_eq_ofNat (exec_swap m s),
    readForm_byteToAcc (decodeOfEncode (.swapa m) rfl) swapNibbles_eq_ofNat (exec_swapa m s)⟩

end Sys2Proof
end

section
/-! Proofs about the spec's model faults (60_exceptions.md R401, R402): the destinations and values
that stop a writer (93_implementation_defined.md U4, U5, U8, U9), and that nothing else stops an
instruction. -/

namespace Sys2Proof.Machine

/-! ### Destinations that an instruction is refused -/

section
variable {s : State} {m : Byte} {l : Loc} {r : DestRule} (hl : s.resolve m = .ok l)
  (hr : r.allows l = false)
include hl hr

theorem State.storeOp_forbidden (i : Instr) (n : Nat) (v : Byte) (pre : State → State) :
    s.storeOp r i n m v pre = .fault (.unpredictable s.here i l.addr) := by
  simp only [State.storeOp, hl, State.destFault, hr, Bool.not_false, if_true]

theorem State.modifyOp_forbidden (i : Instr) (f : Byte → State → Byte)
    (g post : Byte → State → State) :
    s.modifyOp r i m f g post = .fault (.unpredictable s.here i l.addr) := by
  simp only [State.modifyOp, hl, State.destFault, hr, Bool.not_false, if_true]

end

/-- An instruction that computes flags into memory is refused STATUS (10_state.md R25). -/
theorem exec_status_forbidden {i : Instr} {m : Byte} {s : State} (hi : flagsToMemory i = some m)
    (hl : s.resolve m = .ok .status) : exec i s = .fault (.unpredictable s.here i 0x0A#8) := by
  have hstore : ∀ n v pre, s.storeOp .notStatus i n m v pre =
      .fault (.unpredictable s.here i 0x0A#8) := State.storeOp_forbidden hl rfl i
  have hmodify : ∀ f g post, s.modifyOp .notStatus i m f g post =
      .fault (.unpredictable s.here i 0x0A#8) := State.modifyOp_forbidden hl rfl i
  cases i <;> cases hi
  case daa => rw [exec_daa, execDaa, hstore]
  case addmAm | adcmAm | submAm | sbcmAm =>
    simp only [exec_addmAm, execAddmAm, exec_adcmAm, execAdcmAm, exec_submAm, execSubmAm,
      exec_sbcmAm, execSbcmAm, State.addMemOp, hmodify]
  case andmAm | ormAm | xormAm | cpl | inc | dec =>
    simp only [exec_andmAm, execAndmAm, exec_ormAm, execOrmAm, exec_xormAm, execXormAm, exec_cpl,
      execCpl, exec_inc, execInc, exec_dec, execDec, State.resultToMem, hmodify]
  case rrc | rlc => simp only [exec_rrc, execRrc, exec_rlc, execRlc, hmodify]

/-! ### Values that a location does not accept -/

/-- A mask of one bit as a power of two. -/
theorem bitMask_eq_ofNat (i : Nat) : bitMask i = BitVec.ofNat 8 (2 ^ i) := by
  apply BitVec.eq_of_toNat_eq
  rw [bitMask, ← BitVec.twoPow_eq, BitVec.toNat_twoPow, BitVec.toNat_ofNat]

/-- The byte that `State.written` names is the one a store puts out or a modify operation computes
from the byte read; ACC and C are the same before and after the read. -/
theorem exec_refused {i : Instr} {m w : Byte} {l : Loc} {s : State} (hl : s.resolve m = .ok l)
    (hw : s.written (s.readLoc l).1 i = some (m, w)) (ha : ¬l.accepts w) :
    exec i s = .fault (l.refusal s.here i) := by
  have hread := s.readLoc_afterRead l
  have hsum (v : Byte) (c : Bool) : (add8 (s.readLoc l).2.acc v c).r =
      BitVec.ofNat 8 (s.acc.toNat + v.toNat + c.toNat) := by rw [hread.acc, add8_r]
  have hdiff (v : Byte) (c : Bool) : (add8 (s.readLoc l).2.acc (~~~v) c).r =
      s.acc - v - BitVec.ofNat 8 (!c).toNat := by rw [hread.acc, add8_sub_r]
  have hstore (r : DestRule) (n : Nat) (pre : State → State) :
      s.storeOp r i n m w pre = .fault (l.refusal s.here i) := State.storeOp_refused r i n pre hl ha
  have hmodify {r : DestRule} {f : Byte → State → Byte} {g post : Byte → State → State}
      (hf : f (s.readLoc l).1 (s.readLoc l).2 = w) :
      s.modifyOp r i m f g post = .fault (l.refusal s.here i) :=
    State.modifyOp_refused r i f g post hl (by rwa [hf])
  cases i <;> cases hw
  case daa | movMa | clr | set =>
    simp only [exec_daa, execDaa, exec_movMa, execMovMa, exec_clr, execClr, exec_set, execSet,
      hstore]
  case tabrdc =>
    rw [exec_tabrdc, execTabrdc, State.tableRead_eq_storeOp, append_eq_ofNat]
    exact hstore _ _ _
  case tabrdl =>
    rw [exec_tabrdl, execTabrdl, State.tableRead_eq_storeOp, append_eq_ofNat]
    exact hstore _ _ _
  case addmAm | adcmAm =>
    simp only [exec_addmAm, execAddmAm, exec_adcmAm, execAdcmAm, State.addMemOp]
    exact hmodify ((hsum _ _).trans (by simp [hread.fC]))
  case submAm | sbcmAm =>
    simp only [exec_submAm, execSubmAm, exec_sbcmAm, execSbcmAm, State.addMemOp]
    exact hmodify ((hdiff _ _).trans (by simp [hread.fC]))
  case andmAm | ormAm | xormAm =>
    simp only [exec_andmAm, execAndmAm, exec_ormAm, execOrmAm, exec_xormAm, execXormAm,
      State.resultToMem]
    exact hmodify (by rw [hread.acc])
  case cpl =>
    rw [exec_cpl, execCpl, State.resultToMem]
    exact hmodify (Byte.not_eq_ofNat _)
  case inc | siz =>
    simp only [exec_inc, execInc, exec_siz, execSiz, State.resultToMem]
    exact hmodify (Byte.add_one_eq_ofNat _)
  case dec | sdz =>
    simp only [exec_dec, execDec, exec_sdz, execSdz, State.resultToMem]
    exact hmodify (Byte.sub_one_eq_ofNat _)
  case rr | rrc =>
    simp only [exec_rr, execRr, exec_rrc, execRrc]
    exact hmodify (by simp only [rotRight_eq_ofNat, rotRightC_eq_ofNat, hread.fC])
  case rl | rlc =>
    simp only [exec_rl, execRl, exec_rlc, execRlc]
    exact hmodify (by simp only [rotLeft_eq_ofNat, rotLeftC_eq_ofNat, hread.fC])
  case clrBit | setBit =>
    simp only [exec_clrBit, execClrBit, exec_setBit, execSetBit]
    exact hmodify (by rw [bitMask_eq_ofNat])
  case swap =>
    rw [exec_swap, execSwap]
    exact hmodify (swapNibbles_eq_ofNat _)

theorem not_accepts_tmrC {v : Byte} (hon : v.getLsbD 4 = true) (hmode : v.toNat / 64 = 0)
    (n : TimerId) : ¬(Loc.tmrC n).accepts v := fun ⟨hused, _⟩ =>
  hused n rfl hon (BitVec.eq_of_toNat_eq ((toNat_mode v).trans hmode))

theorem not_accepts_tmr3c {v : Byte} (hon : v.getLsbD 4 = true) (hmode : v.toNat / 64 ≠ 2) :
    ¬Loc.tmr3c.accepts v := fun ⟨_, hused, _⟩ =>
  hmode ((toNat_mode v).symm.trans (congrArg BitVec.toNat (hused rfl hon)))

theorem not_accepts_voicec {v : Byte} (hbit : v.getLsbD 7 = true) : ¬Loc.voicec.accepts v :=
  fun ⟨_, _, hclear⟩ => Bool.false_ne_true ((hclear rfl).symm.trans hbit)

/-- Settles O13: the check of the destination comes before that of the value, and both before any
effect (log 25). -/
theorem refusedDestinations : Obligations.RefusedDestinations := by
  refine ⟨fun i m s => exec_status_forbidden, fun m s hl => ⟨?_, ?_⟩, fun i m w l s => exec_refused,
    fun m s => ⟨fun hon hmode => ⟨fun hl => ?_, fun hl => ?_⟩, fun hon hmode hl => ?_,
      fun hbit hl => ?_⟩⟩
  · rw [exec_siz, execSiz, State.modifyOp_forbidden hl rfl]
    rfl
  · rw [exec_sdz, execSdz, State.modifyOp_forbidden hl rfl]
    rfl
  · exact exec_refused (i := .movMa m) hl rfl (not_accepts_tmrC hon hmode .t0)
  · exact exec_refused (i := .movMa m) hl rfl (not_accepts_tmrC hon hmode .t1)
  · exact exec_refused (i := .movMa m) hl rfl (not_accepts_tmr3c hon hmode)
  · exact exec_refused (i := .movMa m) hl rfl (not_accepts_voicec hbit)

/-! ### What an instruction can answer -/

/-- The answer `o` of instruction `i` is a next state or one of the spec's model faults with the
address of the instruction (60_exceptions.md R401). -/
def State.answers (s : State) (i : Instr) (o : Host.Outcome State Fault Refusal) : Prop :=
  (∃ t, o = .next t) ∨ (∃ a, o = .fault (.unusedAddress s.here a)) ∨
  (∃ a, o = .fault (.unpredictable s.here i a)) ∨
  o = .fault (.undocumentedBit s.here 0x26#8 7) ∨ o = .fault (.stackUnderflow s.here)

theorem State.answers_next (s : State) (i : Instr) (t : State) : s.answers i (.next t) :=
  .inl ⟨t, rfl⟩

theorem State.answers_destFault {s : State} {r : DestRule} {i : Instr} {l : Loc} {v : Byte}
    {e : Fault} (h : s.destFault r i l v = some e) : s.answers i (.fault e) := by
  obtain ⟨a, rfl⟩ | rfl := State.destFault_some h
  · exact .inr (.inr (.inl ⟨a, rfl⟩))
  · exact .inr (.inr (.inr (.inl rfl)))

theorem State.loadOp_answers (s : State) (i : Instr) (m : Byte) (f : Byte → State → State) :
    s.answers i (s.loadOp m f) := by
  obtain ⟨l, hl, -⟩ | ⟨hl, -⟩ := s.resolve_cases m
  · rw [State.loadOp_ok f (State.memRead_resolved hl)]
    exact s.answers_next i _
  · rw [State.loadOp_unresolved hl]
    exact .inr (.inl ⟨_, rfl⟩)

theorem State.storeOp_answers (s : State) (r : DestRule) (i : Instr) (n : Nat) (m v : Byte)
    (pre : State → State) : s.answers i (s.storeOp r i n m v pre) := by
  obtain ⟨l, hl, -⟩ | ⟨hl, -⟩ := s.resolve_cases m
  · simp only [State.storeOp, hl]
    split
    · exact State.answers_destFault ‹_›
    · exact s.answers_next i _
  · rw [State.storeOp_unresolved hl]
    exact .inr (.inl ⟨_, rfl⟩)

theorem State.modifyOp_answers (s : State) (r : DestRule) (i : Instr) (m : Byte)
    (f : Byte → State → Byte) (g post : Byte → State → State) :
    s.answers i (s.modifyOp r i m f g post) := by
  obtain ⟨l, hl, -⟩ | ⟨hl, -⟩ := s.resolve_cases m
  · simp only [State.modifyOp, hl]
    split
    · exact State.answers_destFault ‹_›
    · exact s.answers_next i _
  · rw [State.modifyOp_unresolved hl]
    exact .inr (.inl ⟨_, rfl⟩)

/-- A return on an empty stack is the fault of 10_state.md R28; any other return goes on. -/
theorem State.return_answers (s : State) (i : Instr) (n : Nat) (f : State → State) :
    s.answers i (finishReturn n (s.returnFromStack.map f)) := by
  obtain hs | ⟨older, a, hs⟩ := s.stack.eq_nil_or_concat'
  · rw [State.returnFromStack_empty hs]
    exact .inr (.inr (.inr (.inr rfl)))
  · rw [State.returnFromStack_newest hs]
    exact s.answers_next i _

theorem exec_answers (i : Instr) (s : State) : s.answers i (exec i s) := by
  cases hsp : special i with
  | false =>
    obtain ⟨m, f, he, -⟩ | ⟨r, n, m, v, pre, he, -⟩ | ⟨r, m, f, g, post, he, -, -⟩ | ⟨t, he, -⟩ :=
      exec_shape s hsp <;> rw [he]
    · exact s.loadOp_answers i m f
    · exact s.storeOp_answers r i n m v pre
    · exact s.modifyOp_answers r i m f g post
    · exact s.answers_next i t
  | true =>
    cases i
    case call | clrWdt | clrWdt1 | clrWdt2 | halt => exact s.answers_next _ _
    case ret =>
      have h := s.return_answers .ret 2 id
      rwa [Except.map_id] at h
    case retAx x => exact s.return_answers (.retAx x) 2 _
    case reti =>
      rw [exec_reti, execReti, State.returnFromInterrupt_eq]
      exact s.return_answers .reti 2 _
    all_goals cases hsp

/-- Settles O40: the shapes of the instructions fail by their operand or their destination, and the
returns by an empty stack. -/
theorem noInstructionRefused : Obligations.NoInstructionRefused := exec_answers

end Sys2Proof.Machine
end

section
/-! Proofs about interrupts (60_exceptions.md R410 to R420, R451, R452; 46_branch.md R283). -/

namespace Sys2Proof.Machine

/-! ### Which source is taken (R410, R411) -/

theorem State.pending_iff (s : State) (src : IrqSource) :
    s.pending src = true ↔ s.request.get src = true ∧ s.enable.get src = true := by
  rw [State.pending, Bool.and_eq_true]

/-- The order of priority is that of the vectors. -/
theorem State.accepted_of_highest {s : State} {src : IrqSource} (hemi : s.emi = true)
    (hroom : s.depth < 8) (hsrc : s.pending src = true)
    (hhigh : ∀ other : IrqSource, other.vector.toNat < src.vector.toNat → s.pending other ≠ true) :
    s.accepted = some src := by
  have hopen : (s.emi && decide (s.depth < 8)) = true := by rw [hemi, decide_eq_true hroom]; rfl
  rw [State.accepted, if_pos hopen]
  cases src with
  | ext => rw [if_pos hsrc]
  | timer0 => rw [if_neg (hhigh .ext (by decide)), if_pos hsrc]
  | timer1 =>
    rw [if_neg (hhigh .ext (by decide)), if_neg (hhigh .timer0 (by decide)), if_pos hsrc]
  | timer3 =>
    rw [if_neg (hhigh .ext (by decide)), if_neg (hhigh .timer0 (by decide)),
      if_neg (hhigh .timer1 (by decide)), if_pos hsrc]

theorem State.accepted_eq_none {s : State}
    (h : s.emi = false ∨ 8 ≤ s.depth ∨ ∀ src, s.pending src = false) : s.accepted = none := by
  cases ha : s.accepted with
  | none => rfl
  | some src =>
    obtain ⟨hemi, hroom, hpending⟩ := State.accepted_some ha
    obtain hoff | hfull | hnone := h
    · exact absurd hemi (by rw [hoff]; decide)
    · exact absurd hroom (Nat.not_lt.mpr hfull)
    · exact absurd hpending (by rw [hnone src]; decide)

/-! ### The entry and the return from it (R412, R415) -/

theorem State.interruptEntry_of_room {s : State} (h : s.stack.length < 8) (src : IrqSource) :
    s.interruptEntry src = { s with
      stack := s.stack ++ [s.pc], request := s.request.set src false, emi := false
      pc := src.vector, cycles := s.cycles + s.opt.intEntryCycles } := by
  rw [State.interruptEntry, State.push_eq, State.push_stack_of_room h]

theorem State.settle_awake {s : State} (h : s.halted = false) (n : Nat) :
    s.settle n = (State.deviceStep n s).restartVoice :=
  if_neg (by rw [h]; decide)

/-- Settles O41: past the boundary's empty list of events the source of highest priority is
accepted, and the entry has room on the stack. -/
theorem interruptTaken : Obligations.InterruptTaken := by
  refine ⟨rfl, fun s src hquiet hawake hemi hroom hreq hen hhigh => ?_⟩
  have haccepted : s.pastEvents.accepted = some src :=
    State.accepted_of_highest hemi hroom ((s.pending_iff src).mpr ⟨hreq, hen⟩)
      fun other hlt hpending => hhigh other hlt ((s.pending_iff other).mp hpending)
  rw [step_quiet hquiet, cpuStep_interrupt (s := s.pastEvents) hawake haccepted,
    State.takeInterrupt, State.interruptEntry_of_room (s := s.pastEvents) hroom, State.settle_awake]
  · rfl
  · exact hawake

theorem runInstr_fault {d : RomWord → Except DecodeError Instr} {s : State} {i : Instr} {e : Fault}
    (hd : d s.fetch = .ok i) (hx : exec i s.fetched = .fault e) : s.runInstr d = .fault e := by
  simp only [State.runInstr, hd, hx]

/-- Settles O42: each of the three conditions leaves no source accepted. -/
theorem interruptHeld : Obligations.InterruptHeld := by
  intro s hquiet hawake hheld
  have hnone : s.accepted = none := State.accepted_eq_none (hheld.imp id (.imp id fun h src => by
    rw [State.pending, Bool.and_eq_false_iff]
    exact h src))
  have hruns : s.runsNext := ⟨hquiet, hawake, hnone⟩
  exact ⟨hruns, fun i hd e hx => by rw [hruns.step, runInstr_fault (s := s.pastEvents) hd hx]⟩

/-- Settles O43: the newest address on the stack is the one the entry pushed. -/
theorem entryThenReti : Obligations.EntryThenReti := by
  intro s src hemi hroom
  rw [exec_reti, execReti, State.returnFromInterrupt_eq, State.interruptEntry_of_room hroom,
    State.returnFromStack_newest (older := s.stack) (a := s.pc) rfl]
  simp only [Except.map, finishReturn, State.retire, hemi]

/-! ### The INT pin (R413, R420) -/

/-- A change of the INT level to `v` is an active edge. -/
def State.intActive (s : State) (v : Bool) : Prop :=
  (s.intPrev = true ∧ v = false) ∨
  (s.intPrev = false ∧ v = true ∧ s.opt.intEdge = .fallingAndRising)

theorem State.intActive_iff (s : State) (v : Bool) : s.intActive v ↔
    ((s.intPrev && !v) || (!s.intPrev && v && s.opt.intEdge == .fallingAndRising)) = true := by
  simp only [State.intActive, Bool.or_eq_true, Bool.and_eq_true, Bool.not_eq_true', beq_iff_eq,
    and_assoc]

theorem State.intEdge_active {s : State} {v : Bool} (h : s.intActive v) :
    s.intEdge v = { s.raiseRequest .ext with intPrev := v } := by
  rw [State.intEdge, if_pos (s.intActive_iff v |>.mp h)]

theorem State.intEdge_inactive {s : State} {v : Bool} (h : ¬s.intActive v) :
    s.intEdge v = { s with intPrev := v } := by
  rw [State.intEdge, if_neg (mt (s.intActive_iff v).mpr h)]

/-- Settles O44: the event is an edge of the INT pin, and an active one is a request. -/
theorem externalInterruptEdge : Obligations.ExternalInterruptEdge := by
  intro s v slot later henv active
  rw [step_event henv]
  exact ⟨fun h => congrArg _ (State.intEdge_active (s := { s with env := slot :: later }) h),
    fun h => congrArg _ (State.intEdge_inactive (s := { s with env := slot :: later }) h)⟩

end Sys2Proof.Machine
end

section
/-! Proofs about the timers (60_exceptions.md R430 to R437, R451, R452). -/

namespace Sys2Proof.Machine

/-! ### A run of operations, and its count modulo a power of two -/

/-- A run of `n` operations goes through `g 0` to `g n` where each of them takes `g` to its next
value. -/
theorem iterate_eq_of_steps {α : Type} {f : α → α} (g : Nat → α) {x : α} {n : Nat} (h0 : x = g 0)
    (h : ∀ j < n, f (g j) = g (j + 1)) : f^[n] x = g n := by
  induction n with
  | zero => exact h0
  | succ n ih =>
    rw [Function.iterate_succ_apply', ih fun j hj => h j (Nat.lt_succ_of_lt hj), h n n.lt_succ_self]

/-- A counter of `w` bits counts as whole numbers do modulo `2 ^ k`, wherever it stands. -/
theorem toNat_add_ofNat_mod_two_pow {w k : Nat} (hk : k ≤ w) (x : BitVec w) (j : Nat) :
    (x + BitVec.ofNat w j).toNat % 2 ^ k = (x.toNat + j) % 2 ^ k := by
  rw [BitVec.toNat_add, BitVec.toNat_ofNat, Nat.add_mod_mod,
    Nat.mod_mod_of_dvd _ (pow_dvd_pow 2 hk)]

/-- From a multiple of `2 ^ k`, the next multiple comes after `2 ^ k` counts. -/
theorem toNat_add_ofNat_succ_mod {w k : Nat} (hk : k ≤ w) {x : BitVec w}
    (hx : x.toNat % 2 ^ k = 0) (j : Nat) :
    ((x + BitVec.ofNat w j).toNat + 1) % 2 ^ k = (j + 1) % 2 ^ k := by
  rw [← Nat.mod_add_mod, toNat_add_ofNat_mod_two_pow hk, Nat.mod_add_mod, Nat.add_assoc,
    ← Nat.mod_add_mod, hx, Nat.zero_add]

/-! ### Replacing a timer -/

@[simp] theorem State.setTimer_timer (s : State) (n : TimerId) : s.setTimer n (s.timer n) = s := by
  cases n <;> rfl

@[simp] theorem State.setTimer_setTimer (s : State) (n : TimerId) (t u : Timer16) :
    (s.setTimer n t).setTimer n u = s.setTimer n u := by
  cases n <;> rfl

/-! ### One count of timer 0 or 1 (R432) -/

/-- What the overflow of timer n leaves, with the timer as `t`: the request and, in HALT, the
wake-up (R451, R452). -/
def State.overflowed (s : State) (n : TimerId) (t : Timer16) : State :=
  { s.setTimer n t with
    request := s.request.set n.source true
    halted := s.halted && (s.request.get n.source || s.haltPre.get n.source) }

theorem State.overflowed_timer (s : State) (n : TimerId) (t : Timer16) :
    (s.overflowed n t).timer n = t := by
  cases n <;> rfl

theorem State.setTimer_overflowed (s : State) (n : TimerId) (t u : Timer16) :
    (s.overflowed n t).setTimer n u = s.overflowed n u := by
  cases n <;> rfl

section
variable {s : State} {n : TimerId}

theorem State.count16_below (h : (s.timer n).cnt.toNat ≠ 65535) :
    s.count16 n =
      s.setTimer n { s.timer n with cnt := BitVec.ofNat 16 ((s.timer n).cnt.toNat + 1) } := by
  have hcnt : (s.timer n).cnt ≠ 0xFFFF#16 := fun he => h (congrArg BitVec.toNat he)
  simp only [State.count16_eq, if_neg hcnt, BitVec.ofNat_add, BitVec.ofNat_toNat,
    BitVec.setWidth_eq]

theorem State.count16_top (h : (s.timer n).cnt.toNat = 65535) :
    s.count16 n = s.overflowed n { s.timer n with cnt := (s.timer n).pre } := by
  have hcnt : (s.timer n).cnt = 0xFFFF#16 := BitVec.eq_of_toNat_eq h
  rw [State.count16_eq, if_pos hcnt, if_pos hcnt]
  cases n <;> rfl

theorem State.count16_iterate {k : Nat} (h : (s.timer n).cnt.toNat + k < 65536) :
    (fun t => State.count16 t n)^[k] s =
      s.setTimer n { s.timer n with cnt := BitVec.ofNat 16 ((s.timer n).cnt.toNat + k) } := by
  refine iterate_eq_of_steps (fun j =>
    s.setTimer n { s.timer n with cnt := BitVec.ofNat 16 ((s.timer n).cnt.toNat + j) }) ?_
    fun j hj => ?_
  · simp only [Nat.add_zero, BitVec.ofNat_toNat, BitVec.setWidth_eq]
    exact (s.setTimer_timer n).symm
  · have hcnt : (BitVec.ofNat 16 ((s.timer n).cnt.toNat + j)).toNat = (s.timer n).cnt.toNat + j :=
      Nat.mod_eq_of_lt (by omega)
    rw [State.count16_below (by rw [State.timer_setTimer_same, hcnt]; omega)]
    simp only [State.timer_setTimer_same, State.setTimer_setTimer, hcnt, Nat.add_assoc]

end

/-- Settles O45: below FFFFH each count adds 1, and the one at FFFFH overflows. -/
theorem timerOverflow : Obligations.TimerOverflow := by
  intro n s k after
  have hlt := (s.timer n).cnt.isLt
  refine ⟨fun hk => ?_, fun hk => ?_⟩
  · have hafter : after = _ := State.count16_iterate (by omega)
    rw [hafter, State.timer_setTimer_same, State.setTimer_request]
    exact ⟨Nat.mod_eq_of_lt (by omega), rfl⟩
  · obtain ⟨j, rfl⟩ : ∃ j, k = j + 1 := Nat.exists_eq_succ_of_ne_zero (by omega)
    have hcnt : (BitVec.ofNat 16 ((s.timer n).cnt.toNat + j)).toNat = 65535 := by
      rw [BitVec.toNat_ofNat]
      omega
    have hafter : after = s.overflowed n { s.timer n with cnt := (s.timer n).pre } := by
      refine (Function.iterate_succ_apply' _ _ _).trans ?_
      rw [State.count16_iterate (by omega), State.count16_top (by rwa [State.timer_setTimer_same])]
      cases n <;> rfl
    rw [hafter, State.overflowed_timer]
    exact ⟨rfl, rfl, s.setTimer_enable n _⟩

/-! ### The internal clock (R433, R436) -/

section
variable {s : State} {n : TimerId}

/-- The end of a block changes nothing where none stands. -/
theorem State.unblock_of_free (h : (s.timer n).lose = false) : s.unblock n = s := by
  rw [State.unblock, ← h]
  exact s.setTimer_timer n

/-- A timer that runs and is not blocked counts. -/
theorem State.timerTick_counts (hruns : (s.timer n).runs = true)
    (hfree : (s.timer n).lose = false) : s.timerTick n = s.count16 n := by
  have hfree' : ((s.count16 n).timer n).lose = false := (s.count16_lose n n).trans hfree
  rw [State.timerTick, hruns, hfree]
  exact State.unblock_of_free hfree'

theorem State.timerTick_idle (h : (s.timer n).runs = false ∨ (s.timer n).lose = true) :
    s.timerTick n = s.unblock n := by
  refine if_neg fun hcounts => ?_
  obtain ⟨hruns, hfree⟩ := (Bool.and_eq_true _ _).mp hcounts
  obtain hstop | hlose := h
  · exact absurd hruns (by rw [hstop]; decide)
  · exact absurd hfree (by rw [hlose]; decide)

end

theorem Timer16.runs_iff (t : Timer16) :
    t.runs = true ↔ t.ton = true ∧ (t.tm = 0b10#2 ∨ t.tm = 0b11#2 ∧ t.pw = true) := by
  simp only [Timer16.runs, Bool.and_eq_true, Bool.or_eq_true, beq_iff_eq]

/-- Settles O46: the timer runs and is free, and then counts once, or it is not and loses the block
alone. -/
theorem timerCountsInternalClock : Obligations.TimerCountsInternalClock := by
  intro n s t
  refine ⟨fun hon hmode hfree => ?_, fun hidle => State.timerTick_idle ?_⟩
  · rw [State.timerTick_counts (t.runs_iff.mpr ⟨hon, hmode⟩) hfree]
    exact ⟨State.count16_below, State.count16_top⟩
  · rw [← Bool.not_eq_true, Timer16.runs_iff]
    change ¬(t.ton = true ∧ (t.tm = 0b10#2 ∨ t.tm = 0b11#2 ∧ t.pw = true)) ∨ t.lose = true
    obtain hoff | hlose | hmode | hmode | ⟨hmode, hpw⟩ := hidle
    · exact .inl (by simp [hoff])
    · exact .inr hlose
    · exact .inl (by simp [hmode])
    · exact .inl (by simp [hmode])
    · exact .inl (by simp [hmode, hpw])

/-! ### Timer Counter 3 (R437) -/

/-- The machine with the prescaler of Timer Counter 3 at `ps`. -/
def State.withPrescaler (s : State) (ps : Byte) : State := { s with t3 := { s.t3 with ps := ps } }

section
variable {s : State}

theorem State.count8_below (h : s.t3.cnt.toNat ≠ 255) :
    s.count8 = { s with t3 := { s.t3 with cnt := BitVec.ofNat 8 (s.t3.cnt.toNat + 1) } } := by
  have hcnt : s.t3.cnt ≠ 0xFF#8 := fun he => h (congrArg BitVec.toNat he)
  rw [State.count8_eq, if_neg hcnt, if_neg hcnt, Byte.add_one_eq_ofNat]

theorem State.count8_top (h : s.t3.cnt.toNat = 255) :
    s.count8 = { s with
      t3 := { s.t3 with cnt := s.t3.pre }
      request := { s.request with timer3 := true }
      halted := s.halted && (s.request.timer3 || s.haltPre.timer3) } := by
  have hcnt : s.t3.cnt = 0xFF#8 := BitVec.eq_of_toNat_eq h
  rw [State.count8_eq, if_pos hcnt, if_pos hcnt]
  rfl

theorem State.timer3Tick_off (h : s.t3.ton = false ∨ s.t3.tm ≠ 0b10#2) : s.timer3Tick = s := by
  refine if_neg fun hruns => ?_
  obtain ⟨hon, hmode⟩ := (Bool.and_eq_true _ _).mp hruns
  obtain hoff | hother := h
  · exact absurd hon (by rw [hoff]; decide)
  · exact hother (beq_iff_eq.mp hmode)

variable (hon : s.t3.ton = true) (hmode : s.t3.tm = 0b10#2)
include hon hmode

/-- The prescaler counts every cycle, and the counter where it reaches a multiple of its ratio. -/
theorem State.timer3Tick_on : s.timer3Tick =
    if (s.t3.ps.toNat + 1) % 2 ^ (s.t3.sel.toNat + 1) = 0 then
      (s.withPrescaler (s.t3.ps + 1#8)).count8
    else s.withPrescaler (s.t3.ps + 1#8) := by
  rw [State.timer3Tick, hon, hmode, ← toNat_add_ofNat_mod_two_pow s.t3.sel.isLt]
  rfl

theorem State.timer3Tick_passes (h : (s.t3.ps.toNat + 1) % 2 ^ (s.t3.sel.toNat + 1) ≠ 0) :
    s.timer3Tick = s.withPrescaler (s.t3.ps + 1#8) := by
  rw [State.timer3Tick_on hon hmode, if_neg h]

theorem State.timer3Tick_counts (h : (s.t3.ps.toNat + 1) % 2 ^ (s.t3.sel.toNat + 1) = 0) :
    s.timer3Tick = (s.withPrescaler (s.t3.ps + 1#8)).count8 := by
  rw [State.timer3Tick_on hon hmode, if_pos h]

variable (hps : s.t3.ps.toNat % 2 ^ (s.t3.sel.toNat + 1) = 0)
include hps

/-- From a multiple of the ratio, the prescaler alone counts for fewer cycles than the ratio. -/
theorem State.timer3Tick_iterate {k : Nat} (hk : k < 2 ^ (s.t3.sel.toNat + 1)) :
    State.timer3Tick^[k] s = s.withPrescaler (s.t3.ps + BitVec.ofNat 8 k) := by
  refine iterate_eq_of_steps (fun j => s.withPrescaler (s.t3.ps + BitVec.ofNat 8 j)) ?_
    fun j hj => ?_
  · rw [BitVec.add_zero]
    rfl
  · have hpasses : ((s.t3.ps + BitVec.ofNat 8 j).toNat + 1) % 2 ^ (s.t3.sel.toNat + 1) ≠ 0 := by
      rw [toNat_add_ofNat_succ_mod s.t3.sel.isLt hps, Nat.mod_eq_of_lt (by omega)]
      exact j.succ_ne_zero
    rw [BitVec.ofNat_add, ← BitVec.add_assoc]
    exact State.timer3Tick_passes (s := s.withPrescaler _) hon hmode hpasses

/-- The cycle after them counts. -/
theorem State.timer3Tick_period : State.timer3Tick^[2 ^ (s.t3.sel.toNat + 1)] s =
    (s.withPrescaler (s.t3.ps + BitVec.ofNat 8 (2 ^ (s.t3.sel.toNat + 1)))).count8 := by
  obtain ⟨j, hj⟩ : ∃ j, 2 ^ (s.t3.sel.toNat + 1) = j + 1 :=
    Nat.exists_eq_succ_of_ne_zero (Nat.two_pow_pos _).ne'
  have hcounts : ((s.t3.ps + BitVec.ofNat 8 j).toNat + 1) % 2 ^ (s.t3.sel.toNat + 1) = 0 := by
    rw [toNat_add_ofNat_succ_mod s.t3.sel.isLt hps, ← hj, Nat.mod_self]
  have hlast := State.timer3Tick_iterate hon hmode hps (k := j) (by omega)
  rw [hj, Function.iterate_succ_apply', hlast, BitVec.ofNat_add, ← BitVec.add_assoc]
  exact State.timer3Tick_counts (s := s.withPrescaler _) hon hmode hcounts

end

/-- Settles O47: the prescaler comes to a multiple of its ratio after as many cycles as the ratio
says, and a cycle that brings it there counts once. -/
theorem timerThreePrescaler : Obligations.TimerThreePrescaler := by
  refine ⟨fun s => State.timer3Tick_off, ?_⟩
  intro s hon hmode n counted
  have hcounted (phase : Byte) : counted phase (s.withPrescaler phase).count8 :=
    ⟨State.count8_below (s := s.withPrescaler phase), State.count8_top (s := s.withPrescaler phase)⟩
  refine ⟨State.timer3Tick_passes hon hmode, fun h => ?_, fun hps k =>
    ⟨State.timer3Tick_iterate hon hmode hps, ?_⟩⟩
  · rw [State.timer3Tick_counts hon hmode h]
    exact hcounted _
  · rintro rfl
    rw [State.timer3Tick_period hon hmode hps]
    exact hcounted _

/-! ### The edge detectors (R434, R435) -/

theorem Timer16.pulseEdge_otherMode {t : Timer16} (h : t.ton = false ∨ t.tm ≠ 0b11#2)
    (rising falling : Bool) : t.pulseEdge rising falling = t := by
  refine if_neg fun hmeasures => ?_
  obtain ⟨hon, hmode⟩ := (Bool.and_eq_true _ _).mp hmeasures
  obtain hoff | hother := h
  · exact absurd hon (by rw [hoff]; decide)
  · exact hother (beq_iff_eq.mp hmode)

theorem Timer16.eventEdge_otherMode {t : Timer16} (h : t.ton = false ∨ t.tm ≠ 0b01#2)
    (rising falling : Bool) : t.eventEdge rising falling = false := by
  obtain hoff | hother := h
  · rw [Timer16.eventEdge, hoff, Bool.false_and, Bool.false_and]
  · rw [Timer16.eventEdge, beq_eq_false_iff_ne.mpr hother, Bool.and_false, Bool.false_and]

theorem Timer16.pulseEdge_noEdge (t : Timer16) : t.pulseEdge false false = t := by
  simp only [Timer16.pulseEdge, Bool.and_false, Bool.or_self, Bool.false_eq_true, if_false,
    ite_self]

theorem Timer16.eventEdge_noEdge (t : Timer16) : t.eventEdge false false = false := by
  simp only [Timer16.eventEdge, Bool.and_false, Bool.or_self]

/-- TE selects the rising edge by 0 in event count mode, and the falling edge by 1. -/
theorem Timer16.eventEdge_eq {t : Timer16} (hon : t.ton = true) (hmode : t.tm = 0b01#2) (v : Bool) :
    t.eventEdge v (!v) = (t.te == !v) := by
  rw [Timer16.eventEdge, hon, hmode]
  cases v <;> cases t.te <;> rfl

section
variable {t : Timer16} {v : Bool} (hon : t.ton = true) (hmode : t.tm = 0b11#2)
include hon hmode

/-- In pulse width mode TE selects the edges the other way round: the one to the level `TE` starts a
measurement, and the opposite one ends it. -/
theorem Timer16.pulseEdge_eq : t.pulseEdge v (!v) =
    if t.pw then if t.te = v then t else { t with pw := false, ton := false }
    else if t.te = v then { t with pw := true } else t := by
  rw [Timer16.pulseEdge, hon, hmode]
  cases v <;> cases t.te <;> cases t.pw <;> rfl

theorem Timer16.pulseEdge_starts (hpw : t.pw = false) (hte : t.te = v) :
    t.pulseEdge v (!v) = { t with pw := true } := by
  simp [Timer16.pulseEdge_eq hon hmode, hpw, hte]

theorem Timer16.pulseEdge_ends (hpw : t.pw = true) (hte : t.te = !v) :
    t.pulseEdge v (!v) = { t with pw := false, ton := false } := by
  simp [Timer16.pulseEdge_eq hon hmode, hpw, hte]

theorem Timer16.pulseEdge_waits (hpw : t.pw = false) (hte : t.te = !v) :
    t.pulseEdge v (!v) = t := by
  simp [Timer16.pulseEdge_eq hon hmode, hpw, hte]

theorem Timer16.pulseEdge_goesOn (hpw : t.pw = true) (hte : t.te = v) :
    t.pulseEdge v (!v) = t := by
  simp [Timer16.pulseEdge_eq hon hmode, hpw, hte]

end

/-! ### Events of the TMRn input (R434, R435) -/

section
variable {s : State} {n : TimerId} {v : Bool}

theorem State.applyEvent_timerPin_on (h : s.opt.extTimer = true) :
    s.applyEvent (.timerPin n v) = s.timerEdge n v := if_pos h

theorem State.applyEvent_timerPin_off (h : s.opt.extTimer = false) :
    s.applyEvent (.timerPin n v) = s := if_neg (by rw [h]; decide)

theorem State.timerEdge_noEdge (hpin : (s.timer n).pin = v) : s.timerEdge n v = s := by
  simp only [State.timerEdge, hpin, Bool.not_and_self, Bool.and_not_self,
    Timer16.eventEdge_noEdge, Timer16.pulseEdge_noEdge, Bool.false_eq_true, if_false]
  rw [← hpin]
  exact s.setTimer_timer n

/-- In timer mode and mode 00, and with TON = 0, an edge moves the level last seen alone. -/
theorem State.timerEdge_otherMode
    (h : (s.timer n).ton = false ∨ (s.timer n).tm ≠ 0b01#2 ∧ (s.timer n).tm ≠ 0b11#2) :
    s.timerEdge n v = s.setTimer n { s.timer n with pin := v } := by
  simp only [State.timerEdge, Timer16.eventEdge_otherMode (h.imp_right And.left),
    Timer16.pulseEdge_otherMode (h.imp_right And.right), Bool.false_eq_true, if_false]

theorem State.count16_timer_tm : ((s.count16 n).timer n).tm = (s.timer n).tm := by
  rw [State.count16_eq, State.timer_setTimer_same]

section
variable (hon : (s.timer n).ton = true) (hpin : (s.timer n).pin = !v)
include hon hpin

theorem State.timerEdge_counts (hmode : (s.timer n).tm = 0b01#2) (hte : (s.timer n).te = !v) :
    s.timerEdge n v = (s.count16 n).setTimer n { (s.count16 n).timer n with pin := v } := by
  have hedge : (s.timer n).eventEdge v (!v) = true := by
    rw [Timer16.eventEdge_eq hon hmode, hte, beq_self_eq_true]
  have hmode' : ((s.count16 n).timer n).tm ≠ 0b11#2 := by
    rw [State.count16_timer_tm, hmode]
    decide
  simp only [State.timerEdge, hpin, Bool.not_not, Bool.and_self, hedge, if_true,
    Timer16.pulseEdge_otherMode (.inr hmode')]

theorem State.timerEdge_otherEdge (hmode : (s.timer n).tm = 0b01#2) (hte : (s.timer n).te = v) :
    s.timerEdge n v = s.setTimer n { s.timer n with pin := v } := by
  have hedge : (s.timer n).eventEdge v (!v) = false := by
    rw [Timer16.eventEdge_eq hon hmode, hte, beq_eq_false_iff_ne]
    exact (Bool.not_ne_self v).symm
  have hmode' : (s.timer n).tm ≠ 0b11#2 := by
    rw [hmode]
    decide
  simp only [State.timerEdge, hpin, Bool.not_not, Bool.and_self, hedge, Bool.false_eq_true,
    if_false, Timer16.pulseEdge_otherMode (.inr hmode')]

end

theorem State.timerEdge_measures (hpin : (s.timer n).pin = !v) (hmode : (s.timer n).tm = 0b11#2) :
    s.timerEdge n v = s.setTimer n { (s.timer n).pulseEdge v (!v) with pin := v } := by
  have hmode' : (s.timer n).tm ≠ 0b01#2 := by
    rw [hmode]
    decide
  simp only [State.timerEdge, hpin, Bool.not_not, Bool.and_self,
    Timer16.eventEdge_otherMode (.inr hmode'), Bool.false_eq_true, if_false]

end

/-- Settles O48: an edge counts once, where the option, the mode and TE let it, and otherwise moves
the level last seen. -/
theorem eventCounting : Obligations.EventCounting := by
  refine ⟨fun s n v h => ?_, fun s n v hopt hmode => ?_, fun s n v hopt hon hmode hpin => ?_⟩
  · cases hopt : s.opt.extTimer with
    | false => exact State.applyEvent_timerPin_off hopt
    | true =>
      rw [State.applyEvent_timerPin_on hopt]
      exact State.timerEdge_noEdge (h.resolve_left (by rw [hopt]; decide))
  · rw [State.applyEvent_timerPin_on hopt]
    refine State.timerEdge_otherMode (hmode.imp_right ?_)
    rintro (h | h) <;> rw [h] <;> decide
  · rw [State.applyEvent_timerPin_on hopt]
    intro t u
    refine ⟨fun hte hcnt => ?_, fun hte hcnt => ?_, State.timerEdge_otherEdge hon hpin hmode⟩
    · have hu : u = _ := State.timerEdge_counts hon hpin hmode hte
      rw [hu, State.count16_below hcnt, State.timer_setTimer_same, State.setTimer_setTimer]
    · have hu : u = _ := State.timerEdge_counts hon hpin hmode hte
      rw [hu, State.count16_top hcnt, State.overflowed_timer, State.setTimer_overflowed]
      rfl

/-- Settles O49: the event is an edge for the detector of pulse widths, which has four cases. -/
theorem pulseMeasurement : Obligations.PulseMeasurement := by
  intro s n v hopt hon hmode hpin t becomes
  have hbecomes {u : Timer16} (h : t.pulseEdge v (!v) = u) : becomes { u with pin := v } := by
    subst h
    exact (State.applyEvent_timerPin_on hopt).trans (State.timerEdge_measures hpin hmode)
  exact ⟨fun hpw hte => hbecomes (Timer16.pulseEdge_starts hon hmode hpw hte),
    fun hpw hte => hbecomes (Timer16.pulseEdge_ends hon hmode hpw hte),
    fun hpw hte => hbecomes (Timer16.pulseEdge_waits hon hmode hpw hte),
    fun hpw hte => hbecomes (Timer16.pulseEdge_goesOn hon hmode hpw hte)⟩

end Sys2Proof.Machine
end

section
/-! Proofs about the resets (70_reset_and_hazards.md R500 to R503), the watchdog, HALT and its
wake-up by port A (60_exceptions.md R414, R440 to R442, R450 to R460). -/

namespace Sys2Proof.Machine

/-! ### Chip resets (70_reset_and_hazards.md R500, R503) -/

/-- Settles O53: the four kinds share their first part, and power-on alone has values of its own for
the registers the table marks u after the others. -/
theorem chipResetValues : Obligations.ChipResetValues := by
  intro s kind u t
  cases kind with
  | powerOn =>
    exact ⟨rfl, rfl, rfl, rfl, rfl, rfl, rfl, rfl, rfl, rfl, rfl, rfl, rfl, rfl, rfl, rfl, rfl, rfl,
      fun _ => ⟨rfl, rfl, rfl, rfl⟩, fun hkind => absurd rfl hkind, rfl, rfl, rfl⟩
  | resNormal | resHalt | wdtNormal =>
    exact ⟨rfl, rfl, rfl, rfl, rfl, rfl, rfl, rfl, rfl, rfl, rfl, rfl, rfl, rfl, rfl, rfl, rfl, rfl,
      nofun, fun _ => ⟨rfl, rfl, rfl, rfl, rfl, rfl, rfl, rfl, rfl, rfl, rfl, rfl, rfl, rfl, rfl,
        rfl, rfl, rfl, rfl, rfl⟩, rfl, rfl, rfl⟩

/-- Settles O54: the events are the resets of their kinds. -/
theorem resetEvents : Obligations.ResetEvents := by
  intro s slot later s1
  refine ⟨fun henv => step_event henv, fun henv hawake => ?_, fun henv hhalted => ?_⟩
  · rw [step_event henv]
    exact congrArg _ (if_neg (by rw [hawake]; decide))
  · rw [step_event henv]
    exact congrArg _ (if_pos hhalted)

/-! ### HALT (60_exceptions.md R450) -/

/-- Settles O51: with no event left the step is the CPU's, and in HALT that is nothing. -/
theorem haltHolds : Obligations.HaltHolds := fun s hhalted hquiet =>
  (step_quiet hquiet).trans (cpuStep_halted (s := s.pastEvents) hhalted)

/-! ### The port A detector (60_exceptions.md R451, R460) -/

/-- A byte is not 0 where one of its bits is 1. -/
theorem Byte.beq_zero_eq_false_iff (v : Byte) :
    (v == 0#8) = false ↔ ∃ k, k < 8 ∧ v.getLsbD k = true := by
  rw [beq_eq_false_iff_ne]
  constructor
  · intro hne
    by_contra hall
    push Not at hall
    exact hne (BitVec.eq_of_getLsbD_eq fun k hk => by
      rw [BitVec.getLsbD_zero]
      exact Bool.eq_false_iff.mpr (hall k hk))
  · rintro ⟨k, -, hbit⟩ rfl
    rw [BitVec.getLsbD_zero] at hbit
    cases hbit

/-- A line with the wake-up option fell between the two looks. -/
theorem wakeLines_iff (before now wakeup : Byte) :
    ((before &&& ~~~now) &&& wakeup == 0#8) = false ↔
      ∃ k, k < 8 ∧ wakeup.getLsbD k = true ∧ before.getLsbD k = true ∧ now.getLsbD k = false := by
  rw [Byte.beq_zero_eq_false_iff]
  refine exists_congr fun k => and_congr_right fun hk => ?_
  simp only [BitVec.getLsbD_and, BitVec.getLsbD_not, hk, decide_true, Bool.true_and,
    Bool.and_eq_true, Bool.not_eq_true']
  tauto

/-- Settles O52: the detector's two looks decide the wake-up line by line. -/
theorem portAWakes : Obligations.PortAWakes := by
  intro s driven level slot later henv
  let s1 : State := { s with
    env := slot :: later, pa := { s.pa with driven := driven, level := level } }
  refine ⟨s1.padsANow, _, step_event henv,
    fun k hk => s1.pa.levels_line s.opt.paPullHigh s1.draw.1 hk, ?_⟩
  rw [Bool.and_eq_false_iff]
  exact or_congr_right (wakeLines_iff s.paPrev s1.padsANow s.opt.paWakeup)

/-! ### The watchdog (60_exceptions.md R440 to R442) -/

/-- The machine with the watchdog counter at `c`. -/
def State.withWdtcnt (s : State) (c : BitVec 15) : State := { s with wdtcnt := c }

/-- The watchdog times out after 256 x 2^WS clocks. -/
def State.wdtPeriod (s : State) : Nat := 2 ^ (8 + s.wdts.toNat % 8)

theorem State.wdtPeriod_pos (s : State) : 0 < s.wdtPeriod := Nat.two_pow_pos _

theorem State.wdtPeriod_eq (s : State) : s.wdtPeriod = 256 * 2 ^ (s.wdts.toNat % 8) :=
  Nat.pow_add 2 8 _

section
variable {s : State}

theorem State.wdtcnt_succ_mod (hphase : s.wdtcnt.toNat % s.wdtPeriod = 0) (j : Nat) :
    ((s.wdtcnt + BitVec.ofNat 15 j).toNat + 1) % s.wdtPeriod = (j + 1) % s.wdtPeriod :=
  toNat_add_ofNat_succ_mod (by omega) hphase j

theorem State.wdtTick_disabled (h : s.opt.wdtEnable = false) : s.wdtTick = s :=
  if_neg (by rw [h]; decide)

theorem State.wdtTimeout_resComing (h : s.resComing = true) : s.wdtTimeout = s := if_pos h

theorem State.wdtTimeout_awake (h : s.resComing = false) (hawake : s.halted = false) :
    s.wdtTimeout = s.runReset .wdtNormal := by
  rw [State.wdtTimeout, h, hawake]
  rfl

theorem State.wdtTimeout_halted (h : s.resComing = false) (hhalted : s.halted = true) :
    s.wdtTimeout = s.warmReset := by
  rw [State.wdtTimeout, h, hhalted]
  rfl

variable (hon : s.opt.wdtEnable = true)
include hon

theorem State.wdtTick_on : s.wdtTick =
    if (s.wdtcnt.toNat + 1) % s.wdtPeriod = 0 then (s.withWdtcnt (s.wdtcnt + 1#15)).wdtTimeout
    else s.withWdtcnt (s.wdtcnt + 1#15) := by
  have hk : 8 + s.wdts.toNat % 8 ≤ 15 := by omega
  rw [State.wdtTick, hon, State.wdtPeriod, ← toNat_add_ofNat_mod_two_pow hk]
  rfl

theorem State.wdtTick_counts (h : (s.wdtcnt.toNat + 1) % s.wdtPeriod ≠ 0) :
    s.wdtTick = s.withWdtcnt (s.wdtcnt + 1#15) := by
  rw [State.wdtTick_on hon, if_neg h]

theorem State.wdtTick_timesOut (h : (s.wdtcnt.toNat + 1) % s.wdtPeriod = 0) :
    s.wdtTick = (s.withWdtcnt (s.wdtcnt + 1#15)).wdtTimeout := by
  rw [State.wdtTick_on hon, if_pos h]

variable (hphase : s.wdtcnt.toNat % s.wdtPeriod = 0)
include hphase

/-- From a multiple of the period, fewer clocks than the period only count. -/
theorem State.wdtTick_iterate {k : Nat} (hk : k < s.wdtPeriod) :
    State.wdtTick^[k] s = s.withWdtcnt (s.wdtcnt + BitVec.ofNat 15 k) := by
  refine iterate_eq_of_steps (fun j => s.withWdtcnt (s.wdtcnt + BitVec.ofNat 15 j)) ?_
    fun j hj => ?_
  · rw [BitVec.add_zero]
    rfl
  · have hcounts : ((s.wdtcnt + BitVec.ofNat 15 j).toNat + 1) % s.wdtPeriod ≠ 0 := by
      rw [State.wdtcnt_succ_mod hphase, Nat.mod_eq_of_lt (by omega)]
      exact j.succ_ne_zero
    rw [BitVec.ofNat_add, ← BitVec.add_assoc]
    exact State.wdtTick_counts (s := s.withWdtcnt _) hon hcounts

/-- The clock after them is the time-out. -/
theorem State.wdtTick_period : State.wdtTick^[s.wdtPeriod] s =
    (s.withWdtcnt (s.wdtcnt + BitVec.ofNat 15 s.wdtPeriod)).wdtTimeout := by
  obtain ⟨j, hj⟩ : ∃ j, s.wdtPeriod = j + 1 := Nat.exists_eq_succ_of_ne_zero s.wdtPeriod_pos.ne'
  have htimesOut : ((s.wdtcnt + BitVec.ofNat 15 j).toNat + 1) % s.wdtPeriod = 0 := by
    rw [State.wdtcnt_succ_mod hphase, ← hj, Nat.mod_self]
  have hlast := State.wdtTick_iterate hon hphase (k := j) (by omega)
  rw [hj, Function.iterate_succ_apply', hlast, BitVec.ofNat_add, ← BitVec.add_assoc]
  exact State.wdtTick_timesOut (s := s.withWdtcnt _) hon htimesOut

end

/-- Settles O50: a clock counts or brings the counter to a multiple of the period; a time-out leaves
the same whatever the counter stood at. -/
theorem watchdogPeriod : Obligations.WatchdogPeriod := by
  refine ⟨fun s => State.wdtTick_disabled, fun s slot later henv => ⟨fun hosc => ?_, fun ht1 => ?_⟩,
    ?_, ?_⟩
  · rw [step_event henv]
    exact congrArg _ (if_pos hosc)
  · rw [step_event henv]
    exact congrArg _ (if_neg (by rw [ht1]; decide))
  · intro s hon counts
    refine ⟨State.wdtTick_counts hon, fun h => ?_⟩
    have htick := State.wdtTick_timesOut hon h
    exact ⟨fun hres => htick.trans (State.wdtTimeout_resComing hres),
      fun hres hawake => htick.trans (State.wdtTimeout_awake hres hawake),
      fun hres hhalted => htick.trans (State.wdtTimeout_halted hres hhalted)⟩
  · intro s k hon hclear hres period after
    have hphase : s.wdtcnt.toNat % s.wdtPeriod = 0 := by
      rw [hclear]
      exact Nat.zero_mod _
    have hperiod : s.wdtPeriod = period := s.wdtPeriod_eq
    have hlast (hk : k = period) : after = _ :=
      (congrArg (State.wdtTick^[·] s) (hk.trans hperiod.symm)).trans
        (State.wdtTick_period hon hphase)
    refine ⟨fun hk => ?_, fun hk hawake => ?_, fun hk hhalted => ?_⟩
    · have hafter : after = _ := State.wdtTick_iterate hon hphase (hk.trans_eq hperiod.symm)
      rw [hafter, hclear, BitVec.zero_add]
      rfl
    · have hafter := (hlast hk).trans (State.wdtTimeout_awake (s := s.withWdtcnt _) hres hawake)
      rw [hafter]
      exact ⟨rfl, rfl, rfl, rfl, rfl, rfl, rfl, rfl, rfl⟩
    · exact (hlast hk).trans (State.wdtTimeout_halted (s := s.withWdtcnt _) hres hhalted)

end Sys2Proof.Machine
end

section
/-! Proofs about the voice ROM circuit (60_exceptions.md R470). -/

namespace Sys2Proof.Machine

/-- The machine with `VROM_age` at `age`. -/
def State.withVromAge (s : State) (age : Nat) : State := { s with vromAge := age }

section
variable {s : State}

theorem State.vromTick_idle (h : s.vromc = false ∨ s.opt.vromDelayCycles ≤ s.vromAge) :
    s.vromTick = s := by
  refine if_neg fun hruns => ?_
  obtain ⟨hon, hlt⟩ := (Bool.and_eq_true _ _).mp hruns
  obtain hoff | hover := h
  · exact absurd hon (by rw [hoff]; decide)
  · exact absurd (of_decide_eq_true hlt) (Nat.not_lt.mpr hover)

variable (hon : s.vromc = true)
include hon

theorem State.vromTick_on (hlt : s.vromAge < s.opt.vromDelayCycles) : s.vromTick =
    if s.vromAge + 1 = s.opt.vromDelayCycles then (s.withVromAge (s.vromAge + 1)).deliverVoice
    else s.withVromAge (s.vromAge + 1) :=
  if_pos ((Bool.and_eq_true _ _).mpr ⟨hon, decide_eq_true hlt⟩)

/-- Before the last cycle of a restarted delay the age alone counts. -/
theorem State.vromTick_iterate {k : Nat} (hage : s.vromAge = 0) (hk : k < s.opt.vromDelayCycles) :
    State.vromTick^[k] s = s.withVromAge k := by
  refine iterate_eq_of_steps s.withVromAge ?_ fun j hj => ?_
  · rw [State.withVromAge, ← hage]
  · have hlt : j + 1 < s.opt.vromDelayCycles := Nat.lt_of_le_of_lt hj hk
    exact (State.vromTick_on (s := s.withVromAge j) hon (Nat.lt_of_succ_lt hlt)).trans
      (if_neg hlt.ne)

/-- The last cycle of the delay delivers the byte, and the cycles after it change nothing. -/
theorem State.vromTick_delay {k : Nat} (hage : s.vromAge = 0) (hpos : 0 < s.opt.vromDelayCycles)
    (hk : s.opt.vromDelayCycles ≤ k) :
    State.vromTick^[k] s = (s.withVromAge s.opt.vromDelayCycles).deliverVoice := by
  obtain ⟨j, hj⟩ : ∃ j, s.opt.vromDelayCycles = j + 1 := Nat.exists_eq_succ_of_ne_zero hpos.ne'
  have hlast : State.vromTick^[j + 1] s = (s.withVromAge (j + 1)).deliverVoice := by
    rw [Function.iterate_succ_apply', State.vromTick_iterate hon hage (by omega)]
    have hlt : j < s.opt.vromDelayCycles := by omega
    exact (State.vromTick_on (s := s.withVromAge j) hon hlt).trans (if_pos hj.symm)
  have hover : (s.withVromAge (j + 1)).deliverVoice.vromTick =
      (s.withVromAge (j + 1)).deliverVoice := by
    refine State.vromTick_idle (.inr ?_)
    rw [State.deliverVoice_eq]
    exact hj.le
  rw [hj] at hk ⊢
  rw [← Nat.sub_add_cancel hk, Function.iterate_add_apply, hlast, Function.iterate_fixed hover]

end

/-- What a cycle can change. -/
theorem State.vromTick_eq (s : State) : s.vromTick = { s with
    vromAge := s.vromTick.vromAge, latchd := s.vromTick.latchd, draws := s.vromTick.draws } := by
  unfold State.vromTick
  split
  · dsimp only
    split
    · rw [State.deliverVoice_eq]
    · rfl
  · rfl

/-- The address of the selected latch, in the bits the part has. -/
theorem State.vaddr_eq (s : State) : s.vaddr =
    (if s.latchc then s.latch1 else s.latch0).toNat % 2 ^ s.opt.part.vromAddrBits := by
  unfold State.vaddr State.selected
  split <;> rfl

/-- Settles O56: the delay runs out with its last cycle, which delivers the byte. -/
theorem voiceByteDelivered : Obligations.VoiceByteDelivered := by
  refine ⟨fun s => ⟨_, _, _, s.vromTick_eq⟩, fun s => State.vromTick_idle, ?_⟩
  intro s k hon hage hin after
  refine ⟨fun hk => ?_, fun hk hpos => ?_⟩
  · have hafter : after = s.withVromAge k := State.vromTick_iterate hon hage hk
    rw [← Bool.not_eq_true, State.voiceReady_iff, hafter]
    exact fun ⟨_, hready⟩ => Nat.not_lt.mpr hready hk
  · rw [← State.vaddr_eq] at hin ⊢
    have hafter : after = { s with
        vromAge := s.opt.vromDelayCycles, latchd := s.vromRead s.vaddr } :=
      (State.vromTick_delay hon hage hpos hk).trans (if_pos hin)
    rw [State.voiceReady_iff, hafter]
    exact ⟨⟨hon, le_rfl⟩, rfl⟩

end Sys2Proof.Machine
end
